-- ==== Sys2Proof/Word.lean ====
section
/-! DEFINITION. The two bit-vector types of the block (R10) and the plainest arithmetic on them. -/

namespace Sys2Proof

/-- A byte: 8 bits, unsigned (R10). -/
abbrev Byte := BitVec 8

/-- A command word or a register payload: 32 bits (R10, R110). -/
abbrev Word := BitVec 32

/-- Four bytes as one 32-bit value, the first in the high bits (R11: concatenation puts its first part high). -/
def joinBytes (b0 b1 b2 b3 : Byte) : Word := b0 ++ b1 ++ b2 ++ b3

end Sys2Proof
end

