-- ==== Sys2Proof/Config.lean ====
section
/-! DEFINITION. Protocol constants the source fixes (R9), and the free values: constants without a body that stand
for what the spec leaves open. The three parameters the spec takes from general knowledge (PAYLOAD_ORDER, LAYOUT,
RESERVED_CHECK) are in Machine/Params.lean. -/

namespace Sys2Proof

/-- `SYNC`: byte 0 of every frame (R9). -/
def Config.sync : Byte := 0x05

/-- `MASTER_ADDR`: byte 1 of a reply (R9). -/
def Config.masterAddr : Byte := 0xFF

/-- `WRITE_OFFSET`: write address = read address + `0x80` (R9, R81). -/
def Config.writeOffset : Byte := 0x80

/-- `MAX_DRIVER_ADDR` (R9). -/
def Config.maxDriverAddr : Byte := 3

/-- `CRC_POLY` (R9). -/
def Config.crcPoly : Byte := 0x07

/-- `CRC_INIT` (R9). -/
def Config.crcInit : Byte := 0x00

/-- `READ_RX_LEN`: 4 echoed + 8 reply (R9, R258). -/
def Config.readRxLen : Byte := 12

/-- `WRITE_RX_LEN`: 8 + 4 echoed + 8 reply (R9, R258). -/
def Config.writeRxLen : Byte := 20

/-- `BUF_MAX`: the bytes of DIN and of DOUT (R9). -/
def Config.bufMax : Nat := 256

/-- `T_EXCHANGE`, in seconds: recorded, and read by no rule (R262, R386). -/
def Config.tExchangeSeconds : Nat := 1

/-- How an exchange ends (R254). -/
inductive AnswerKind where
  | bytes
  | timeout
  | ioError
deriving DecidableEq, Repr, Inhabited

/-- FREE VALUE (log entry 4; R257 too): byte `i` of draw `k`. The content of a DIN byte nothing has written, and a
byte the transport answers. -/
opaque Config.freeByte : Nat → Nat → Byte

/-- FREE VALUE (log entries 4 and 5): the 32 bits of draw `k`. The content of PAYLOAD or FIELDS where nothing the
command can use has been written. -/
opaque Config.freeWord : Nat → Word

/-- FREE VALUE (log entry 2): the choice of draw `k` among the ports that wait for the lock (R252: "free choice, no
fixed order"). -/
opaque Config.freeChoice : Nat → Nat

/-- FREE VALUE (log entry 2): how the transport ends the exchange in flight at draw `k` (R254, R259, R260). -/
opaque Config.freeAnswerKind : Nat → AnswerKind

end Sys2Proof
end

