-- ==== Sys2Proof/Machine/Crc8.lean ====
section
/-! DEFINITION. The CRC-8 that closes every frame, bit-serial as the source gives it (R230, R231). -/

namespace Sys2Proof.Machine

/-- One iteration: feedback tap bit 7, the data bit is bit 0 of `b`, the shift is truncated to 8 bits (R230). -/
def crcShift (crc b : Byte) : Byte :=
  if (crc >>> 7) ^^^ (b &&& 1) ≠ 0 then (crc <<< 1) ^^^ Config.crcPoly else crc <<< 1

/-- `k` iterations over a byte, least significant bit first (R230). -/
def crcLoop : Nat → Byte → Byte → Byte
  | 0, crc, _ => crc
  | k + 1, crc, b => crcLoop k (crcShift crc b) (b >>> 1)

/-- 8 iterations: the CRC register after one more byte (R230). -/
def crcByte (crc b : Byte) : Byte := crcLoop 8 crc b

/-- `crc8(bytes)`: initial value 0, no reflection, no final xor (R230). -/
def crc8 (bs : List Byte) : Byte := bs.foldl crcByte Config.crcInit

end Sys2Proof.Machine
end

