-- ==== Sys2Proof/Syntax.lean ====
section
/-! DEFINITION. The catalog's register and field names, and the one type of instructions: a constructor for each row
of spec/opcode_table.json. -/

namespace Sys2Proof

/-- The 13 registers of the catalog (R140), by their catalog names. -/
inductive Reg where
  | gconf  -- GCONF, R150
  | gstat  -- GSTAT, R151
  | ifcnt  -- IFCNT, R152
  | nodeconf  -- NODECONF, R153
  | ioin  -- IOIN, R154
  | iholdIrun  -- IHOLD_IRUN, R155
  | tpowerdown  -- TPOWERDOWN, R156
  | tstep  -- TSTEP, R157
  | tpwmthrs  -- TPWMTHRS, R158
  | tcoolthrs  -- TCOOLTHRS, R159
  | vactual  -- VACTUAL, R160
  | chopconf  -- CHOPCONF, R161
  | pwmconf  -- PWMCONF, R162
deriving DecidableEq, Repr

/-- The field names of the catalog, as the spec spells them (R150 to R162). -/
inductive FieldName where
  -- GCONF
  | i_scale_analog | internal_rsense | en_spreadcycle | shaft | index_otpw | index_step | pdn_disable | mstep_reg_select | multistep_filt | test_mode
  -- GSTAT
  | reset | drv_err | uv_cp
  -- IFCNT
  | cnt
  -- NODECONF
  | send_delay
  -- IOIN
  | enn | ms1 | ms2 | diag | pdn_uart | step | spread_en | dir | version
  -- IHOLD_IRUN
  | ihold | irun | ihold_delay
  -- TPOWERDOWN
  | tpowerdown
  -- TSTEP
  | tstep
  -- TPWMTHRS
  | tpwmthrs
  -- TCOOLTHRS
  | tcoolthrs
  -- VACTUAL
  | vactual
  -- CHOPCONF
  | toff | hstrt | hend | tbl | vsense | mres | intpol | dedge | diss2g | diss2vs
  -- PWMCONF
  | pwm_ofs | pwm_grad | pwm_freq | pwm_autoscale | pwm_autograd | freewheel | pwm_reg | pwm_lim
deriving DecidableEq, Repr

/-- The source's spelling of the last field of PWMCONF: another name of `pwm_lim` (R162, I6). -/
abbrev FieldName.pwm_ilm : FieldName := .pwm_lim

/-- An instruction: a host command (R111), a per-register form (R113) or a frame on the wire (R100 to R102). A register
operand is a catalog register (R121 refuses every other byte when the command is decoded); an operand of ENC_RD and
ENC_WR is any byte (R202). -/
inductive Instr where
  | crc8 (n : Byte)
  | crcCheck (n : Byte)
  | encRd (a r : Byte)
  | encWr (a r : Byte)
  | decReply (r : Reg) (n : Byte)
  | unpack (r : Reg)
  | pack (r : Reg)
  | exchange (a n : Byte)
  | readReg (r : Reg)
  | writeReg (r : Reg)
  | verify (a n : Byte)
  | rdGconf
  | rdGstat
  | rdIfcnt
  | rdNodeconf
  | rdIoin
  | rdIholdIrun
  | rdTpowerdown
  | rdTstep
  | rdTpwmthrs
  | rdTcoolthrs
  | rdVactual
  | rdChopconf
  | rdPwmconf
  | wrGconf
  | wrGstat
  | wrIfcnt
  | wrNodeconf
  | wrIoin
  | wrIholdIrun
  | wrTpowerdown
  | wrTstep
  | wrTpwmthrs
  | wrTcoolthrs
  | wrVactual
  | wrChopconf
  | wrPwmconf
  /-- Bytes `05 addr reg crc` (R100). -/
  | frameReadRequest (addr : BitVec 2) (reg : BitVec 7) (crc : Byte)
  /-- Bytes `05 addr (0x80 + reg) p0 p1 p2 p3 crc` (R101). -/
  | frameWriteRequest (addr : BitVec 2) (reg : BitVec 7) (p0 p1 p2 p3 crc : Byte)
  /-- Bytes `05 FF reg p0 p1 p2 p3 crc` (R102). -/
  | frameReply (reg : BitVec 7) (p0 p1 p2 p3 crc : Byte)
deriving DecidableEq, Repr

end Sys2Proof
end

