-- ==== Sys2Proof/Machine/Params.lean ====
section
/-! DEFINITION. The three parameters that the spec takes from general knowledge of the TMC2209 and holds as named
configuration fields: PAYLOAD_ORDER (R71), LAYOUT (R150 to R162) and RESERVED_CHECK (R143). Each is one definition, so
a corrected value changes no rule. -/

namespace Sys2Proof.Machine

/-- The two orders a payload's bytes can have on the wire (R71). -/
inductive PayloadOrder where
  | bigEndian
  | littleEndian
deriving DecidableEq, Repr

/-- PRESUMED (by the spec itself, D4; log entry 13): `PAYLOAD_ORDER`, default big-endian. -/
def payloadOrder : PayloadOrder := .bigEndian

/-- One field of a register: its name and its bits hi..lo (R141). -/
structure FieldSpec where
  name : FieldName
  hi : Nat
  lo : Nat
deriving DecidableEq, Repr

/-- `hi - lo + 1` (R11). -/
def FieldSpec.width (f : FieldSpec) : Nat := f.hi + 1 - f.lo

/-- PRESUMED (by the spec itself, D5 and D7; log entry 14): `LAYOUT`, each register's fields and their bit positions. -/
def layout : Reg → List FieldSpec
  -- R150
  | .gconf =>
    [⟨.i_scale_analog, 0, 0⟩, ⟨.internal_rsense, 1, 1⟩, ⟨.en_spreadcycle, 2, 2⟩, ⟨.shaft, 3, 3⟩, ⟨.index_otpw, 4, 4⟩,
     ⟨.index_step, 5, 5⟩, ⟨.pdn_disable, 6, 6⟩, ⟨.mstep_reg_select, 7, 7⟩, ⟨.multistep_filt, 8, 8⟩, ⟨.test_mode, 9, 9⟩]
  -- R151
  | .gstat =>
    [⟨.reset, 0, 0⟩, ⟨.drv_err, 1, 1⟩, ⟨.uv_cp, 2, 2⟩]
  -- R152
  | .ifcnt =>
    [⟨.cnt, 7, 0⟩]
  -- R153
  | .nodeconf =>
    [⟨.send_delay, 11, 8⟩]
  -- R154
  | .ioin =>
    [⟨.enn, 0, 0⟩, ⟨.ms1, 2, 2⟩, ⟨.ms2, 3, 3⟩, ⟨.diag, 4, 4⟩, ⟨.pdn_uart, 6, 6⟩,
     ⟨.step, 7, 7⟩, ⟨.spread_en, 8, 8⟩, ⟨.dir, 9, 9⟩, ⟨.version, 31, 24⟩]
  -- R155
  | .iholdIrun =>
    [⟨.ihold, 4, 0⟩, ⟨.irun, 12, 8⟩, ⟨.ihold_delay, 19, 16⟩]
  -- R156
  | .tpowerdown =>
    [⟨.tpowerdown, 7, 0⟩]
  -- R157
  | .tstep =>
    [⟨.tstep, 19, 0⟩]
  -- R158
  | .tpwmthrs =>
    [⟨.tpwmthrs, 19, 0⟩]
  -- R159
  | .tcoolthrs =>
    [⟨.tcoolthrs, 19, 0⟩]
  -- R160
  | .vactual =>
    [⟨.vactual, 23, 0⟩]
  -- R161
  | .chopconf =>
    [⟨.toff, 3, 0⟩, ⟨.hstrt, 6, 4⟩, ⟨.hend, 10, 7⟩, ⟨.tbl, 16, 15⟩, ⟨.vsense, 17, 17⟩,
     ⟨.mres, 27, 24⟩, ⟨.intpol, 28, 28⟩, ⟨.dedge, 29, 29⟩, ⟨.diss2g, 30, 30⟩, ⟨.diss2vs, 31, 31⟩]
  -- R162
  | .pwmconf =>
    [⟨.pwm_ofs, 7, 0⟩, ⟨.pwm_grad, 15, 8⟩, ⟨.pwm_freq, 17, 16⟩, ⟨.pwm_autoscale, 18, 18⟩, ⟨.pwm_autograd, 19, 19⟩,
     ⟨.freewheel, 21, 20⟩, ⟨.pwm_reg, 27, 24⟩, ⟨.pwm_lim, 31, 28⟩]

/-- PRESUMED (by the spec itself, D6; log entry 15): `RESERVED_CHECK`, the bits of a payload that must be 0 (R143). -/
def reservedCheck : Reg → List Nat
  | .ioin => [1, 5]
  | .gconf | .gstat | .ifcnt | .nodeconf | .iholdIrun | .tpowerdown | .tstep | .tpwmthrs | .tcoolthrs | .vactual
  | .chopconf | .pwmconf => []

end Sys2Proof.Machine
end

