-- ==== Sys2Proof/Decode.lean ====
section
/-! DEFINITION. The command word and the wire frames as bits: field extraction (R110), the catalog's addresses (R140),
the decoder of each, and after it the encoder. Decoding is total and rejects by name. -/

namespace Sys2Proof

/-- Why bits are no instruction. -/
inductive DecodeError where
  /-- OPC is one of the reserved values (R120). -/
  | reservedOpcode (opc : Byte)
  /-- R is not a catalog read address where one is required (R121). -/
  | nonCatalogRegister (r : Byte)
  /-- CRC_CHECK with N = 0 (R122). -/
  | crcCheckEmpty
  /-- The bytes are none of the three frames (R100 to R102). -/
  | notAFrame
deriving DecidableEq, Repr

/-- `OPC = CMD[31:24]` (R32, R110). -/
def opcOf (w : Word) : Byte := w.extractLsb' 24 8

/-- `A = CMD[23:16]` (R32, R110). -/
def aOf (w : Word) : Byte := w.extractLsb' 16 8

/-- `R = CMD[15:8]` (R32, R110). -/
def rOf (w : Word) : Byte := w.extractLsb' 8 8

/-- `N = CMD[7:0]` (R32, R110). -/
def nOf (w : Word) : Byte := w.extractLsb' 0 8

/-- The command word with the given fields (R110). -/
def commandWord (opc a r n : Byte) : Word := joinBytes opc a r n

/-- The read address of a catalog register (R140). -/
def Reg.addr : Reg → Byte
  | .gconf => 0x00
  | .gstat => 0x01
  | .ifcnt => 0x02
  | .nodeconf => 0x03
  | .ioin => 0x06
  | .iholdIrun => 0x10
  | .tpowerdown => 0x11
  | .tstep => 0x12
  | .tpwmthrs => 0x13
  | .tcoolthrs => 0x14
  | .vactual => 0x22
  | .chopconf => 0x6C
  | .pwmconf => 0x70

/-- The catalog, in the order of R140. -/
def Reg.catalog : List Reg :=
  [.gconf, .gstat, .ifcnt, .nodeconf, .ioin, .iholdIrun, .tpowerdown, .tstep, .tpwmthrs, .tcoolthrs, .vactual, .chopconf, .pwmconf]

/-- The catalog register at a read address, if there is one (R121, R140). -/
def Reg.ofByte? (b : Byte) : Option Reg := Reg.catalog.find? fun r => r.addr == b

/-- The write address of a register: its read address + `0x80`, modulo 256 (R81). -/
def Reg.writeAddr (r : Reg) : Byte := r.addr + Config.writeOffset

/-- `RD_X` of register X (R113). -/
def Instr.readForm : Reg → Instr
  | .gconf => .rdGconf
  | .gstat => .rdGstat
  | .ifcnt => .rdIfcnt
  | .nodeconf => .rdNodeconf
  | .ioin => .rdIoin
  | .iholdIrun => .rdIholdIrun
  | .tpowerdown => .rdTpowerdown
  | .tstep => .rdTstep
  | .tpwmthrs => .rdTpwmthrs
  | .tcoolthrs => .rdTcoolthrs
  | .vactual => .rdVactual
  | .chopconf => .rdChopconf
  | .pwmconf => .rdPwmconf

/-- `WR_X` of register X (R113). -/
def Instr.writeForm : Reg → Instr
  | .gconf => .wrGconf
  | .gstat => .wrGstat
  | .ifcnt => .wrIfcnt
  | .nodeconf => .wrNodeconf
  | .ioin => .wrIoin
  | .iholdIrun => .wrIholdIrun
  | .tpowerdown => .wrTpowerdown
  | .tstep => .wrTstep
  | .tpwmthrs => .wrTpwmthrs
  | .tcoolthrs => .wrTcoolthrs
  | .vactual => .wrVactual
  | .chopconf => .wrChopconf
  | .pwmconf => .wrPwmconf

/-- The instruction a command with catalog operand R makes, or the refusal of R121. -/
def withRegister (r : Byte) (k : Reg → Instr) : Except DecodeError Instr :=
  match Reg.ofByte? r with
  | some x => .ok (k x)
  | none => .error (.nonCatalogRegister r)

/-- The opcode map (R111) with the reserved encodings of R120 to R122. A word of READ_REG or WRITE_REG is a word of the
per-register form with that R (R113), and is decoded to it (DESIGN CHOICE, log entry 10). Fields an opcode does not list
are ignored (R112). -/
def decodeCommand (w : Word) : Except DecodeError Instr :=
  match (opcOf w).toNat with
  | 0x01 => .ok (.crc8 (nOf w))
  | 0x02 => if nOf w = 0 then .error .crcCheckEmpty else .ok (.crcCheck (nOf w))
  | 0x10 => .ok (.encRd (aOf w) (rOf w))
  | 0x11 => .ok (.encWr (aOf w) (rOf w))
  | 0x12 => withRegister (rOf w) fun x => .decReply x (nOf w)
  | 0x20 => withRegister (rOf w) .unpack
  | 0x21 => withRegister (rOf w) .pack
  | 0x30 => .ok (.exchange (aOf w) (nOf w))
  | 0x40 => withRegister (rOf w) Instr.readForm
  | 0x41 => withRegister (rOf w) Instr.writeForm
  | 0x42 => .ok (.verify (aOf w) (nOf w))
  | _ => .error (.reservedOpcode (opcOf w))

/-- Byte 1 of a request: the 2 bits of a driver address in a byte (R103). -/
def addrByte (a : BitVec 2) : Byte := a.setWidth 8

/-- Byte 2 of a read request and of a reply for an address below `0x80` (R103). -/
def readAddrByte (r : BitVec 7) : Byte := r.setWidth 8

/-- Byte 2 of a write request: read address + `0x80` (R81, R101). -/
def writeAddrByte (r : BitVec 7) : Byte := r.setWidth 8 + Config.writeOffset

/-- The frame a byte sequence is: bit 7 of byte 2 tells a request's length, byte 1 tells a reply (R103, R104). The CRC
byte is an operand, not checked here: a frame with a bad CRC is still a frame on the line. -/
def decodeFrame : List Byte → Except DecodeError Instr
  | [s, a, r, c] =>
    if s = Config.sync ∧ a ≤ Config.maxDriverAddr ∧ r.msb = false then
      .ok (.frameReadRequest (a.setWidth 2) (r.setWidth 7) c)
    else .error .notAFrame
  | [s, a, r, p0, p1, p2, p3, c] =>
    if s = Config.sync ∧ a ≤ Config.maxDriverAddr ∧ r.msb = true then
      .ok (.frameWriteRequest (a.setWidth 2) (r.setWidth 7) p0 p1 p2 p3 c)
    else if s = Config.sync ∧ a = Config.masterAddr ∧ r.msb = false then
      .ok (.frameReply (r.setWidth 7) p0 p1 p2 p3 c)
    else .error .notAFrame
  | _ => .error .notAFrame

/-- The bytes of a 32-bit wire pattern, byte 0 leftmost (R103). -/
def wireBytes4 (v : BitVec 32) : List Byte :=
  [v.extractLsb' 24 8, v.extractLsb' 16 8, v.extractLsb' 8 8, v.extractLsb' 0 8]

/-- The bytes of a 64-bit wire pattern, byte 0 leftmost (R103). -/
def wireBytes8 (v : BitVec 64) : List Byte :=
  [v.extractLsb' 56 8, v.extractLsb' 48 8, v.extractLsb' 40 8, v.extractLsb' 32 8,
   v.extractLsb' 24 8, v.extractLsb' 16 8, v.extractLsb' 8 8, v.extractLsb' 0 8]

/-- What the decoder reads from an instruction whose bits are `w`, numbered as the opcode table numbers them: bit 0 is
the least significant bit of the command word, or of the last byte of a wire frame (R103). 32 bits are a command word,
or else a 4-byte frame (`0x05` is a reserved OPC, R120); 64 bits are an 8-byte frame. -/
def decodeTableWord (nbits w : Nat) : Option Instr :=
  if nbits ≤ 32 then
    match decodeCommand (BitVec.ofNat 32 w) with
    | .ok i => some i
    | .error _ => (decodeFrame (wireBytes4 (BitVec.ofNat 32 w))).toOption
  else (decodeFrame (wireBytes8 (BitVec.ofNat 64 w))).toOption

/-! The encoder, from the same tables: R111 for commands, R100 to R102 for frames. Ignored fields are 0. -/

/-- The bytes a frame puts on the line (R100 to R102); a command puts none there. -/
def frameBytes : Instr → List Byte
  | .frameReadRequest a r c => [Config.sync, addrByte a, readAddrByte r, c]
  | .frameWriteRequest a r p0 p1 p2 p3 c => [Config.sync, addrByte a, writeAddrByte r, p0, p1, p2, p3, c]
  | .frameReply r p0 p1 p2 p3 c => [Config.sync, Config.masterAddr, readAddrByte r, p0, p1, p2, p3, c]
  | _ => []

/-- How many bits an instruction's row has. -/
def encodeBits : Instr → Nat
  | .frameWriteRequest .. => 64
  | .frameReply .. => 64
  | _ => 32

/-- A byte sequence as one number, byte 0 leftmost (R103). -/
def wireNat (bs : List Byte) : Nat := bs.foldl (fun acc b => acc * 256 + b.toNat) 0

/-- The command word of a command; a frame has none (its row is `wireNat` of its bytes). -/
def encodeCommand : Instr → Word
  | .crc8 n => commandWord 0x01 0 0 n
  | .crcCheck n => commandWord 0x02 0 0 n
  | .encRd a r => commandWord 0x10 a r 0
  | .encWr a r => commandWord 0x11 a r 0
  | .decReply r n => commandWord 0x12 0 r.addr n
  | .unpack r => commandWord 0x20 0 r.addr 0
  | .pack r => commandWord 0x21 0 r.addr 0
  | .exchange a n => commandWord 0x30 a 0 n
  | .readReg r => commandWord 0x40 0 r.addr 0
  | .writeReg r => commandWord 0x41 0 r.addr 0
  | .verify a n => commandWord 0x42 a 0 n
  | .rdGconf => commandWord 0x40 0 0x00 0
  | .rdGstat => commandWord 0x40 0 0x01 0
  | .rdIfcnt => commandWord 0x40 0 0x02 0
  | .rdNodeconf => commandWord 0x40 0 0x03 0
  | .rdIoin => commandWord 0x40 0 0x06 0
  | .rdIholdIrun => commandWord 0x40 0 0x10 0
  | .rdTpowerdown => commandWord 0x40 0 0x11 0
  | .rdTstep => commandWord 0x40 0 0x12 0
  | .rdTpwmthrs => commandWord 0x40 0 0x13 0
  | .rdTcoolthrs => commandWord 0x40 0 0x14 0
  | .rdVactual => commandWord 0x40 0 0x22 0
  | .rdChopconf => commandWord 0x40 0 0x6C 0
  | .rdPwmconf => commandWord 0x40 0 0x70 0
  | .wrGconf => commandWord 0x41 0 0x00 0
  | .wrGstat => commandWord 0x41 0 0x01 0
  | .wrIfcnt => commandWord 0x41 0 0x02 0
  | .wrNodeconf => commandWord 0x41 0 0x03 0
  | .wrIoin => commandWord 0x41 0 0x06 0
  | .wrIholdIrun => commandWord 0x41 0 0x10 0
  | .wrTpowerdown => commandWord 0x41 0 0x11 0
  | .wrTstep => commandWord 0x41 0 0x12 0
  | .wrTpwmthrs => commandWord 0x41 0 0x13 0
  | .wrTcoolthrs => commandWord 0x41 0 0x14 0
  | .wrVactual => commandWord 0x41 0 0x22 0
  | .wrChopconf => commandWord 0x41 0 0x6C 0
  | .wrPwmconf => commandWord 0x41 0 0x70 0
  | .frameReadRequest .. => 0
  | .frameWriteRequest .. => 0
  | .frameReply .. => 0

/-- The bits of an instruction, numbered as the opcode table numbers them. -/
def encodeWord (i : Instr) : Nat :=
  match i with
  | .frameReadRequest .. => wireNat (frameBytes i)
  | .frameWriteRequest .. => wireNat (frameBytes i)
  | .frameReply .. => wireNat (frameBytes i)
  | _ => (encodeCommand i).toNat

/-- The spelling the decoder gives: READ_REG and WRITE_REG of a register as its per-register form (R113; log
entry 10); every other instruction as it is. -/
def Instr.canonical : Instr → Instr
  | .readReg r => .readForm r
  | .writeReg r => .writeForm r
  | i => i

end Sys2Proof
end

