-- ==== Sys2Proof/Machine/State.lean ====
section
/-! DEFINITION. The state of EB-TMCBUS as plain data: the ports (R31 to R42), the shared bus (R43 to R45), the moves
that the agents make (R30), and the state after reset (R52, R370). In a latch, `none` is the spec's own value ⊥,
"unwritten" (R52). -/

namespace Sys2Proof.Machine

/-- A buffer's bytes as (index, byte) pairs, indexes strictly rising; an index that is not listed reads as ⊥ (R52).
DIN and DOUT are the block's only byte stores (R33, R40); it has no addressable memory (R49). -/
abbrev Memory := List Host.Cell

/-- The canonical form: indexes strictly rising. An unlisted byte reads as ⊥, which no listed byte equals. -/
def Memory.wf : Memory → Bool
  | [] => true
  | [_] => true
  | x :: y :: m => decide (x.1 < y.1) && Memory.wf (y :: m)

/-- The outcome codes (R331). -/
inductive Status where
  | ok
  | invalidDriverAddress
  | invalidSyncByte
  | invalidMasterAddress
  | crcMismatch
  | registerAddressMismatch
  | datagramLength
  | packingError
  | unpackingError
  | ioError
  | timeout
  | writeVerificationFailed
deriving DecidableEq, Repr

/-- The phases of a bus command (R36): EXCHANGE, READ_REG, and the two exchanges of WRITE_REG. -/
inductive Phase where
  | raw
  | rd
  | wb
  | wm
deriving DecidableEq, Repr

/-- A port's sequencer (R36). -/
inductive Seq where
  | idle
  | waitLock (ph : Phase)
  | xchg (ph : Phase)
deriving DecidableEq, Repr

/-- One field of a field record: a bit vector of the field's own width (R35). -/
structure FieldVal where
  name : FieldName
  width : Nat
  val : BitVec width
deriving DecidableEq, Repr

/-- A field record of one register, its fields in the order of LAYOUT (R35, R42). -/
structure FieldRecord where
  reg : Reg
  vals : List FieldVal
deriving DecidableEq, Repr

/-- One port: one Driver Session (R31 to R42). -/
structure Port where
  /-- `CFG_ADDR[p]` (R31). -/
  cfgAddr : Byte
  /-- `CMD[p]` (R32). -/
  cmd : Option Word
  /-- `DIN[p]` (R33). -/
  din : Memory
  /-- `PAYLOAD[p]` (R34). -/
  payload : Option Word
  /-- `FIELDS[p]` (R35). -/
  fields : Option FieldRecord
  /-- `SEQ[p]` (R36). -/
  seq : Seq
  /-- `TXB[p]` (R37). -/
  txb : Option (List Byte)
  /-- `RXLEN[p]` (R37). -/
  rxlen : Option Byte
  /-- `WREG[p]` (R37). -/
  wreg : Option Byte
  /-- `WPAY[p]` (R37). -/
  wpay : Option Word
  /-- `STATUS[p]` (R38). -/
  status : Option Status
  /-- `BEFORE[p]` (R39). -/
  before : Option Byte
  /-- `AFTER[p]` (R39). -/
  after : Option Byte
  /-- `DOUT[p]` (R40). -/
  dout : Memory
  /-- `DOUT_LEN[p]` (R40). -/
  doutLen : Option Nat
  /-- `RESULT32[p]` (R41). -/
  result32 : Option Word
  /-- `RFIELDS[p]` (R42). -/
  rfields : Option FieldRecord
deriving DecidableEq, Repr

/-- A port number (R344). -/
abbrev PortId := Fin 4

/-- The four places for ports; the first `State.nports` of them exist (R344). -/
structure PortBank where
  p0 : Port
  p1 : Port
  p2 : Port
  p3 : Port
deriving DecidableEq, Repr

/-- The exchange in flight (R45). -/
structure Xfer where
  owner : PortId
  tx : List Byte
  n : Byte
deriving DecidableEq, Repr

/-- How the transport ends an exchange (R254). -/
inductive Answer where
  | bytes (rx : List Byte)
  | timeout
  | ioError
deriving DecidableEq, Repr

/-- The latches a host can read (R338, R345). -/
inductive Latch where
  | status
  | dout
  | result32
  | rfields
  | before
  | after
deriving DecidableEq, Repr

/-- What a host read returns (R345). -/
inductive HostValue where
  | status (st : Status)
  | bytes (bs : List Byte)
  | word (v : Word)
  | record (f : FieldRecord)
  | byte (b : Byte)
deriving DecidableEq, Repr

/-- One move of an agent (R30, R265). -/
inductive Input where
  /-- The host writes bytes of DIN, from index `off` on (R131, R345). -/
  | writeDin (p : PortId) (off : Nat) (bs : List Byte)
  /-- The host writes PAYLOAD (R131, R345). -/
  | writePayload (p : PortId) (v : Word)
  /-- The host writes a whole field record to FIELDS (R131, R345). -/
  | writeFields (p : PortId) (f : FieldRecord)
  /-- The host writes a command word to CMD, which issues the command (R32, R345). -/
  | issue (p : PortId) (w : Word)
  /-- The host waits until the port is IDLE; the environment moves meanwhile (R345). -/
  | wait (p : PortId)
  /-- The host reads a result latch (R345). -/
  | read (p : PortId) (l : Latch)
  /-- The arbiter grants the bus to this port (R252). -/
  | grant (p : PortId)
  /-- The transport ends the exchange in flight (R254). -/
  | answer (a : Answer)
  /-- Bytes arrive in the receive buffer of the transport (R45, R257). -/
  | wire (bs : List Byte)
deriving DecidableEq, Repr

/-- The whole state. -/
structure State where
  /-- `NPORTS` (R9, R344): fixed at construction. -/
  nports : Nat
  ports : PortBank
  /-- `LOCK_OWNER` (R43). -/
  lockOwner : Option PortId
  /-- `XFER` (R45). -/
  xfer : Option Xfer
  /-- The bytes the transport holds and no exchange has taken (R45, R382): environment state (log entry 11). -/
  line : List Byte
  /-- The model's own: the agents' moves, next first (log entry 1). -/
  inputs : List Input
  /-- The model's own: the port whose command is being issued (log entry 17). -/
  cur : PortId
  /-- The model's own: how many draws of free values were made (log entry 3). -/
  fresh : Nat
  /-- The model's own: what the last host read returned (log entry 18). -/
  readout : Option HostValue
deriving DecidableEq, Repr

/-- Why a step stops although its input is admitted by the encoding. -/
inductive Fault where
  /-- Raised by a host read of a latch that holds ⊥ (R338: "A host read of any latch that holds ⊥ is a fault of
  the model"; R52, R345, I15). Safe. -/
  | unwrittenLatch (l : Latch)
  /-- Raised by an input that no agent can make in this state: a host operand write or read while the port is busy
  (R345, D31), a GRANT or an ANSWER that is not enabled (R252, R254). A stuck state. Safe for the block: no claim is
  made of such a run (log entry 9). -/
  | noSuchMove
  /-- Raised by a host write of DIN beyond its 256 bytes (R33). Safe. -/
  | dinOutOfRange
  /-- Raised by a GRANT or a continuation whose internal latch holds ⊥; no state that meets `State.Inv` raises it
  (log entry 16). Safe. -/
  | internalLatchUnwritten
deriving DecidableEq, Repr

/-- Why a command has no meaning (R339). -/
inductive Refusal where
  /-- Raised by an arm of `exec` that has no meaning yet. Safe. -/
  | notModelled (mnemonic : String)
  /-- Raised by an issued word that the encoding does not admit (R120, R121, R122). Safe: no claim holds of a program
  that contains it (R339). -/
  | undecodable (why : DecodeError)
  /-- Raised by a command issued while its port is not IDLE (R339, R345). Safe. -/
  | portBusy
  /-- Raised by a host move on a port number that is not below NPORTS (R344). Safe. -/
  | noSuchPort
  /-- Raised by a host write of a record that does not have exactly its register's fields, each of its own width
  (R35, D12, I8: refused at the grammar). Safe. -/
  | malformedFields
deriving DecidableEq, Repr

/-- A port right after construction with this driver address: IDLE, every latch ⊥ (R52). -/
def Port.construct (addr : Byte) : Port where
  cfgAddr := addr
  cmd := none
  din := []
  payload := none
  fields := none
  seq := .idle
  txb := none
  rxlen := none
  wreg := none
  wpay := none
  status := none
  before := none
  after := none
  dout := []
  doutLen := none
  result32 := none
  rfields := none

/-- Reset is construction (R370): `n` ports with the given driver addresses, the lock free, no exchange in flight, no
byte sent (R371). -/
def State.construct (n : Nat) (a0 a1 a2 a3 : Byte) : State where
  nports := n
  ports := ⟨.construct a0, .construct a1, .construct a2, .construct a3⟩
  lockOwner := none
  xfer := none
  line := []
  inputs := []
  cur := 0
  fresh := 0
  readout := none

/-- DESIGN CHOICE (log entry 6): the launch with four ports, port p at driver address p. -/
def State.reset : State := State.construct 4 0 1 2 3

end Sys2Proof.Machine
end

