-- ==== Sys2Proof/Machine/Layout.lean ====
section
/-! DEFINITION. The catalog's bit-field extractor and packer as functions (R105, R141 to R144), over the parameters of
Machine/Params.lean, and the field record's own operations. -/

namespace Sys2Proof.Machine

/-- The fields of register `r` in payload `v`: `v[hi:lo]` for each field of LAYOUT (R141). -/
def fieldsOf (r : Reg) (v : Word) : FieldRecord where
  reg := r
  vals := (layout r).map fun f => ⟨f.name, f.width, v.extractLsb' f.lo f.width⟩

/-- Every bit of RESERVED_CHECK is 0 in the payload (R141, R143). -/
def reservedClear (r : Reg) (v : Word) : Bool := (reservedCheck r).all fun b => !v.getLsbD b

/-- `unpack(r, v)` (R141). -/
def unpack (r : Reg) (v : Word) : Except Status FieldRecord :=
  if reservedClear r v then .ok (fieldsOf r v) else .error .unpackingError

/-- The OR of every field's bits at its place; a bit no field covers is 0 (R142). -/
def packVals : List FieldSpec → List FieldVal → Word
  | f :: fs, x :: xs => (x.val.setWidth 32 <<< f.lo) ||| packVals fs xs
  | _, _ => 0

/-- `pack(r, F)` (R142). -/
def pack (r : Reg) (f : FieldRecord) : Word := packVals (layout r) f.vals

/-- `FIELD_MASK[r]`: the OR of all field bits of the register (R144). -/
def fieldMask (r : Reg) : Word :=
  (layout r).foldl (fun m f => m ||| ((BitVec.allOnes f.width).setWidth 32 <<< f.lo)) 0

/-- The record is a record of register `r`: its register, and exactly that register's fields, each of its own width
(R35). -/
def FieldRecord.fits (f : FieldRecord) (r : Reg) : Bool :=
  f.reg == r && (f.vals.map fun x => (x.name, x.width)) == ((layout r).map fun s => (s.name, s.width))

/-- The value a field list gives a name; a field not listed is 0 (R131). DESIGN CHOICE (log entry 28): of a field that the
list names twice, the first value counts; the spec does not say. -/
def listedValue (given : List (FieldName × Nat)) (n : FieldName) : Nat := (given.lookup n).getD 0

/-- The record of register `r` that a `.fields` statement writes (R131). -/
def FieldRecord.make (r : Reg) (given : List (FieldName × Nat)) : FieldRecord where
  reg := r
  vals := (layout r).map fun f => ⟨f.name, f.width, BitVec.ofNat f.width (listedValue given f.name)⟩

/-- A field's value by name, unsigned (R105, R141). -/
def FieldRecord.get? (f : FieldRecord) (n : FieldName) : Option Nat :=
  (f.vals.find? fun x => x.name == n).map fun x => x.val.toNat

/-- A field's value by name, read as two's complement: the signed view of VACTUAL is `sext_24` of its field (R105,
R160). -/
def FieldRecord.getSigned? (f : FieldRecord) (n : FieldName) : Option Int :=
  (f.vals.find? fun x => x.name == n).map fun x => x.val.toInt

/-- `cnt` of an IFCNT payload: bits 7..0, bits 31..8 take no part (R152, R299). -/
def ifcntOf (v : Word) : Byte := v.extractLsb' 0 8

end Sys2Proof.Machine
end

