-- ==== Sys2Proof/Machine/Datagram.lean ====
section
/-! DEFINITION. The datagram codec as functions: payload byte order (R71), the request encoders (R200, R203), the reply
decoder with its fixed order of checks (R207), and the IFCNT comparison (R302). -/

namespace Sys2Proof.Machine

/-- `payload_of(p0, p1, p2, p3)` under PAYLOAD_ORDER (R71). -/
def payloadOf (p0 p1 p2 p3 : Byte) : Word :=
  match payloadOrder with
  | .bigEndian => joinBytes p0 p1 p2 p3
  | .littleEndian => joinBytes p3 p2 p1 p0

/-- `bytes_of(v)` under PAYLOAD_ORDER (R71). -/
def bytesOf (v : Word) : List Byte :=
  match payloadOrder with
  | .bigEndian => [v.extractLsb' 24 8, v.extractLsb' 16 8, v.extractLsb' 8 8, v.extractLsb' 0 8]
  | .littleEndian => [v.extractLsb' 0 8, v.extractLsb' 8 8, v.extractLsb' 16 8, v.extractLsb' 24 8]

/-- A frame closed by the CRC of every byte before it (R233). -/
def closeFrame (f : List Byte) : List Byte := f ++ [crc8 f]

/-- `enc_read(a, r)` (R200): the driver address is checked (R201), the read address is not (R202). -/
def encRead (a r : Byte) : Except Status (List Byte) :=
  if a > Config.maxDriverAddr then .error .invalidDriverAddress
  else .ok (closeFrame [Config.sync, a, r])

/-- `enc_write(a, w, v)` (R203): `w` is the write address as given (R204). -/
def encWrite (a w : Byte) (v : Word) : Except Status (List Byte) :=
  if a > Config.maxDriverAddr then .error .invalidDriverAddress
  else .ok (closeFrame ([Config.sync, a, w] ++ bytesOf v))

/-- `dec_reply(b, r)` (R207): the first check that fails is the outcome. -/
def decReply (b : List Byte) (r : Reg) : Except Status (Word × FieldRecord) :=
  match b with
  | [b0, b1, b2, b3, b4, b5, b6, b7] =>
    if crc8 [b0, b1, b2, b3, b4, b5, b6] ≠ b7 then .error .crcMismatch
    else if b0 ≠ Config.sync then .error .invalidSyncByte
    else if b1 ≠ Config.masterAddr then .error .invalidMasterAddress
    else if b2 ≠ r.addr then .error .registerAddressMismatch
    else
      match unpack r (payloadOf b3 b4 b5 b6) with
      | .error e => .error e
      | .ok f => .ok (payloadOf b3 b4 b5 b6, f)
  | _ => .error .datagramLength

/-- CRC_CHECK's test: the last byte is the CRC of the bytes before it (R232). -/
def crcAccepts (frame : List Byte) : Bool :=
  match frame.getLast? with
  | some c => crc8 frame.dropLast == c
  | none => false

/-- `verify(before, after)` (R302): unsigned compare, and the single wrap case. -/
def verifies (before after : Byte) : Bool :=
  decide (after > before) || (before == 255 && after == 0)

end Sys2Proof.Machine
end

