-- ==== Sys2Proof/Machine/Ops.lean ====
section
/-! DEFINITION. The named operations over buffers, ports and the bus. Every meaning is built from these; `raise` is the
one operation that ends a command with an error (R330), in the place of taking a trap (R335). -/

namespace Sys2Proof.Machine

/-! ### Buffers -/

/-- The byte at an index; `none` is ⊥. -/
def Memory.read : Memory → Nat → Option Byte
  | [], _ => none
  | c :: m, a => if c.1 = a then some c.2 else Memory.read m a

/-- Write one byte, keeping the indexes rising. -/
def Memory.write : Memory → Nat → Byte → Memory
  | [], a, b => [(a, b)]
  | c :: m, a, b =>
    if a < c.1 then (a, b) :: c :: m
    else if a = c.1 then (a, b) :: m
    else c :: Memory.write m a b

/-- Write bytes at consecutive indexes from `a` on. -/
def Memory.writeBytes : Memory → Nat → List Byte → Memory
  | m, _, [] => m
  | m, a, b :: bs => Memory.writeBytes (Memory.write m a b) (a + 1) bs

/-- The written bytes among the first `n` (all of them, for a buffer the block filled). -/
def Memory.firstBytes (m : Memory) (n : Nat) : List Byte := (List.range n).filterMap m.read

/-! ### Ports -/

/-- Port `p` of the bank. -/
def PortBank.get (b : PortBank) (p : PortId) : Port :=
  match p with
  | 0 => b.p0
  | 1 => b.p1
  | 2 => b.p2
  | 3 => b.p3

/-- The bank with port `p` replaced. -/
def PortBank.set (b : PortBank) (p : PortId) (q : Port) : PortBank :=
  match p with
  | 0 => { b with p0 := q }
  | 1 => { b with p1 := q }
  | 2 => { b with p2 := q }
  | 3 => { b with p3 := q }

/-- Port `p`'s own state (R266). -/
def State.port (s : State) (p : PortId) : Port := s.ports.get p

/-- Change port `p` and nothing else: the only way the state of a port changes (R266). -/
def State.updPort (s : State) (p : PortId) (f : Port → Port) : State :=
  { s with ports := s.ports.set p (f (s.port p)) }

/-- Port `p` exists (R344). -/
def State.hasPort (s : State) (p : PortId) : Bool := decide (p.val < s.nports)

/-- Port `p` accepts a command (R36). -/
def State.isIdle (s : State) (p : PortId) : Bool := decide ((s.port p).seq = .idle)

/-- `DOUT[p][0..k-1] <- bs ; DOUT_LEN[p] <- k` (R40): bytes beyond the new length stay (log entry 22). -/
def Port.putDout (bs : List Byte) (q : Port) : Port :=
  { q with dout := q.dout.writeBytes 0 bs, doutLen := some bs.length }

/-- `RESULT32[p] <- v` (R41). -/
def Port.putResult (v : Word) (q : Port) : Port := { q with result32 := some v }

/-- `RFIELDS[p] <- F` (R42). -/
def Port.putRfields (f : FieldRecord) (q : Port) : Port := { q with rfields := some f }

/-- `BEFORE[p] <- b` (R39). -/
def Port.putBefore (b : Byte) (q : Port) : Port := { q with before := some b }

/-- `AFTER[p] <- b` (R39). -/
def Port.putAfter (b : Byte) (q : Port) : Port := { q with after := some b }

/-- `STATUS[p] <- st ; SEQ[p] <- IDLE`: the end of every command (R38, R330). -/
def Port.finish (st : Status) (q : Port) : Port := { q with status := some st, seq := .idle }

/-- `raise E` on a port: `STATUS[p] <- E ; SEQ[p] <- IDLE` and nothing else (R330). -/
def Port.raise (e : Status) (q : Port) : Port := q.finish e

/-- `TXB[p] <- tx ; RXLEN[p] <- n ; SEQ[p] <- WAIT_LOCK(ph)`: the request half of `BusExchange(tx, n)` (R251, R256). -/
def Port.busExchange (ph : Phase) (tx : List Byte) (n : Byte) (q : Port) : Port :=
  { q with txb := some tx, rxlen := some n, seq := .waitLock ph }

/-- `WREG[p] <- r ; WPAY[p] <- v` (R296). -/
def Port.latchWrite (r : Byte) (v : Word) (q : Port) : Port := { q with wreg := some r, wpay := some v }

/-- The host's write of `CMD[p]` (R32). -/
def Port.putCmd (w : Word) (q : Port) : Port := { q with cmd := some w }

/-- The host's write of DIN bytes (R33). -/
def Port.putDin (off : Nat) (bs : List Byte) (q : Port) : Port := { q with din := q.din.writeBytes off bs }

/-- The host's write of PAYLOAD (R34). -/
def Port.putPayload (v : Word) (q : Port) : Port := { q with payload := some v }

/-- The host's write of FIELDS (R35). -/
def Port.putFields (f : FieldRecord) (q : Port) : Port := { q with fields := some f }

/-! ### The whole state -/

/-- One more draw of free values was made. -/
def State.draw (s : State) : State := { s with fresh := s.fresh + 1 }

/-- `raise E` for the command of port `p` (R330). -/
def raise (p : PortId) (e : Status) (s : State) : State := s.updPort p (Port.raise e)

/-- Run a command on the port that issues it, if that port is IDLE; otherwise the issue is refused (R339, R345). -/
def onIdlePort (s : State) (k : Host.Outcome State Fault Refusal) : Host.Outcome State Fault Refusal :=
  if s.isIdle s.cur then k else .refused .portBusy

/-- GRANT's effect for a port whose latches are written: the lock, SEQ and XFER in one step (R252). -/
def State.takeLock (s : State) (p : PortId) (ph : Phase) (tx : List Byte) (n : Byte) : State :=
  { s.updPort p (fun q => { q with seq := .xchg ph }) with
    lockOwner := some p
    xfer := some ⟨p, tx, n⟩ }

/-- ANSWER's release: `LOCK_OWNER <- none ; XFER <- none`, once per exchange, whatever the outcome (R254, R255). -/
def State.release (s : State) : State := { s with lockOwner := none, xfer := none }

/-- What the transport still holds after an answer: the `n` bytes of the exchange are taken; on Timeout and IoError the
bytes received so far are discarded (R259, R260). -/
def lineAfter : Answer → List Byte → List Byte
  | .bytes rx, held => held.drop rx.length
  | .timeout, _ => []
  | .ioError, _ => []

/-- ANSWER's effect on the whole state once the owner's port is to become `q`: that port, the release, and what the
transport holds, in one step (R254). -/
def State.endExchange (s : State) (p : PortId) (a : Answer) (q : Port) : State :=
  { (s.updPort p fun _ => q).release with line := lineAfter a s.line }

/-- The ports that wait for the lock (R44). -/
def State.waiters (s : State) : List PortId :=
  ([0, 1, 2, 3] : List PortId).filter fun p =>
    match (s.port p).seq with
    | .waitLock _ => true
    | .idle => false
    | .xchg _ => false

end Sys2Proof.Machine
end

