-- ==== Sys2Proof/Machine/Flags.lean ====
section
/-! DEFINITION. STATUS, the block's only condition flag (R38): its numeric codes (R331), the outcome that a check gives,
and the info that the host recovers beside it (R332). -/

namespace Sys2Proof.Machine

/-- The code of an outcome (R331). -/
def Status.code : Status → Byte
  | .ok => 0x00
  | .invalidDriverAddress => 0x01
  | .invalidSyncByte => 0x02
  | .invalidMasterAddress => 0x03
  | .crcMismatch => 0x04
  | .registerAddressMismatch => 0x05
  | .datagramLength => 0x06
  | .packingError => 0x07
  | .unpackingError => 0x08
  | .ioError => 0x09
  | .timeout => 0x0A
  | .writeVerificationFailed => 0x0B

/-- The outcome of the IFCNT comparison (R302). -/
def verifyStatus (before after : Byte) : Status :=
  if verifies before after then .ok else .writeVerificationFailed

/-- The outcome of CRC_CHECK (R232). -/
def crcStatus (frame : List Byte) : Status := if crcAccepts frame then .ok else .crcMismatch

/-- The info recorded with an outcome (R331). -/
inductive Info where
  | address (a : Byte)
  | register (r : Byte)
  | length (n : Byte)
  | counts (before after : Byte)
deriving DecidableEq, Repr

/-- The expected register of a command's reply: R, or IFCNT's address for WRITE_REG (R210, R291, R297, R298). -/
def expectedRegister (w : Word) : Byte := if opcOf w = 0x41 then Reg.ifcnt.addr else rOf w

/-- The info of the port's outcome, recovered from CMD (and from CFG_ADDR, BEFORE and AFTER), as R332 says: the block
stores none of it apart. DEDUCED (log entry 20): for READ_REG and WRITE_REG the address is CFG_ADDR. -/
def Port.info (q : Port) : Option Info :=
  match q.status, q.cmd with
  | some .invalidDriverAddress, some w =>
    if opcOf w = 0x10 ∨ opcOf w = 0x11 then some (.address (aOf w)) else some (.address q.cfgAddr)
  | some .crcMismatch, some w =>
    if opcOf w = 0x02 then some (.length (nOf w)) else some (.register (expectedRegister w))
  | some .invalidSyncByte, some w => some (.register (expectedRegister w))
  | some .invalidMasterAddress, some w => some (.register (expectedRegister w))
  | some .registerAddressMismatch, some w => some (.register (expectedRegister w))
  | some .datagramLength, some w => some (.register (expectedRegister w))
  | some .unpackingError, some w => some (.register (rOf w))
  | some .writeVerificationFailed, _ =>
    match q.before, q.after with
    | some b, some a => some (.counts b a)
    | _, _ => none
  | _, _ => none

end Sys2Proof.Machine
end

