-- ==== Sys2Proof/Machine/Operands.lean ====
section
/-! DEFINITION. The buffer operands of a command (R112): DIN, PAYLOAD and FIELDS of the issuing port. What nothing has
written is a free value (log entries 4 and 5): the command runs on it. A command that reads a buffer makes one draw. -/

namespace Sys2Proof.Machine

/-- Byte `i` of a DIN buffer; a byte that holds ⊥ is a free value of draw `k` (log entry 4). -/
def dinByte (m : Memory) (k i : Nat) : Byte := (m.read i).getD (Config.freeByte k i)

/-- `DIN[p][0..n-1]` of the issuing port (R33, R112). -/
def State.dinOperand (s : State) (n : Byte) : List Byte :=
  (List.range n.toNat).map (dinByte (s.port s.cur).din s.fresh)

/-- `PAYLOAD[p]` of the issuing port (R34); ⊥ is a free value (log entry 4). -/
def State.payloadOperand (s : State) : Word := (s.port s.cur).payload.getD (Config.freeWord s.fresh)

/-- `FIELDS[p]` of the issuing port as a record of register `r` (R35). Where it holds ⊥ or a record of another
register, the record's values are free: the fields of a free word (log entries 4 and 5). -/
def State.fieldsOperand (s : State) (r : Reg) : FieldRecord :=
  match (s.port s.cur).fields with
  | some f => if f.fits r then f else fieldsOf r (Config.freeWord s.fresh)
  | none => fieldsOf r (Config.freeWord s.fresh)

/-- The register selected by R of a port's command word, if CMD is written and R is in the catalog (R110, R121). -/
def Port.cmdReg (q : Port) : Option Reg := q.cmd.bind fun w => Reg.ofByte? (rOf w)

end Sys2Proof.Machine
end

