-- ==== Sys2Proof/Machine/Catalog.lean ====
section
/-! DEFINITION. The catalog decoder's commands: UNPACK (R141) and PACK (R142). -/

namespace Sys2Proof.Machine

/-- UNPACK's result on a port: RFIELDS with OK, or UnpackingError raised (R141). RESULT32 is not written (log
entry 26). -/
def Port.putUnpacked (result : Except Status FieldRecord) (q : Port) : Port :=
  match result with
  | .ok f => (q.putRfields f).finish .ok
  | .error e => q.raise e

/-- UNPACK R with the payload from PAYLOAD (R141). -/
def execUnpack (r : Reg) (s : State) : Host.Outcome State Fault Refusal :=
  onIdlePort s (.next (s.draw.updPort s.cur (Port.putUnpacked (unpack r s.payloadOperand))))

/-- PACK R with the record from FIELDS (R142): always OK. -/
def execPack (r : Reg) (s : State) : Host.Outcome State Fault Refusal :=
  onIdlePort s (.next (s.draw.updPort s.cur fun q => (q.putResult (pack r (s.fieldsOperand r))).finish .ok))

end Sys2Proof.Machine
end

