-- ==== Sys2Proof/Machine/Codec.lean ====
section
/-! DEFINITION. The datagram codec's commands: ENC_RD (R200), ENC_WR (R203) and DEC_REPLY (R210). Each finishes in its
issue step and never touches the bus. -/

namespace Sys2Proof.Machine

/-- An encoder's result on a port: the frame in DOUT with OK, or the error raised with DOUT untouched (R200, R203). -/
def Port.putFrame (result : Except Status (List Byte)) (q : Port) : Port :=
  match result with
  | .ok f => (q.putDout f).finish .ok
  | .error e => q.raise e

/-- A reply decoder's result on a port: RESULT32 and RFIELDS with OK, or the error raised with both untouched (R209,
R210, R291). -/
def Port.putReply (result : Except Status (Word × FieldRecord)) (q : Port) : Port :=
  match result with
  | .ok (v, f) => ((q.putResult v).putRfields f).finish .ok
  | .error e => q.raise e

/-- ENC_RD A, R (R200). -/
def execEncRd (a r : Byte) (s : State) : Host.Outcome State Fault Refusal :=
  onIdlePort s (.next (s.updPort s.cur (Port.putFrame (encRead a r))))

/-- ENC_WR A, R with the payload from PAYLOAD (R203). -/
def execEncWr (a r : Byte) (s : State) : Host.Outcome State Fault Refusal :=
  onIdlePort s (.next (s.draw.updPort s.cur (Port.putFrame (encWrite a r s.payloadOperand))))

/-- DEC_REPLY R, N with the frame from DIN (R210). -/
def execDecReply (r : Reg) (n : Byte) (s : State) : Host.Outcome State Fault Refusal :=
  onIdlePort s (.next (s.draw.updPort s.cur (Port.putReply (decReply (s.dinOperand n) r))))

end Sys2Proof.Machine
end

