-- ==== Sys2Proof/Machine/Session.lean ====
section
/-! DEFINITION. The bus commands' issue steps (EXCHANGE R256, READ_REG R290, WRITE_REG R296), what each does when its
exchange ends (R256, R291, R297, R298), and VERIFY (R302). -/

namespace Sys2Proof.Machine

/-! ### Issue steps -/

/-- READ_REG's issue step for register `r` (R290): the address check comes before the bus is requested (R292). -/
def readRegister (r : Reg) (s : State) : State :=
  s.updPort s.cur fun q =>
    match encRead q.cfgAddr r.addr with
    | .error e => q.raise e
    | .ok f => q.busExchange .rd f Config.readRxLen

/-- WRITE_REG's issue step for register `r` (R296): the latches are written, then the "before" read of IFCNT is
requested. -/
def writeRegister (r : Reg) (s : State) : State :=
  s.draw.updPort s.cur fun q =>
    let q := q.latchWrite r.addr (pack r (s.fieldsOperand r))
    match encRead q.cfgAddr Reg.ifcnt.addr with
    | .error e => q.raise e
    | .ok f => q.busExchange .wb f Config.readRxLen

/-- EXCHANGE N, A: `TXB[p] <- DIN[p][0..N-1] ; RXLEN[p] <- A ; SEQ[p] <- WAIT_LOCK(RAW)` (R256). -/
def execExchange (a n : Byte) (s : State) : Host.Outcome State Fault Refusal :=
  onIdlePort s (.next (s.draw.updPort s.cur (Port.busExchange .raw (s.dinOperand n) a)))

/-- READ_REG R (R290). -/
def execReadReg (r : Reg) (s : State) : Host.Outcome State Fault Refusal :=
  onIdlePort s (.next (readRegister r s))

/-- WRITE_REG R (R296). -/
def execWriteReg (r : Reg) (s : State) : Host.Outcome State Fault Refusal :=
  onIdlePort s (.next (writeRegister r s))

/-- VERIFY A, N: BEFORE, AFTER and the outcome of their comparison (R302). -/
def execVerify (a n : Byte) (s : State) : Host.Outcome State Fault Refusal :=
  onIdlePort s (.next (s.updPort s.cur fun q => ((q.putBefore a).putAfter n).finish (verifyStatus a n)))

/-! ### Continuations, run in the ANSWER step -/

/-- The trailing 8 bytes of READ_REG's and the WB phase's 12 received bytes: `rx[4..11]` (R75, R291, R297). -/
def replyOfRead (rx : List Byte) : List Byte := (rx.drop 4).take 8

/-- The trailing 8 bytes of the WM phase's 20 received bytes: `rx[12..19]` (R75, R298). -/
def replyOfWrite (rx : List Byte) : List Byte := (rx.drop 12).take 8

/-- The two frames of the WM phase: the write request, then the IFCNT read request (R297). -/
def writeThenRead (a wreg : Byte) (v : Word) : Except Status (List Byte) :=
  match encWrite a (wreg + Config.writeOffset) v with
  | .error e => .error e
  | .ok w =>
    match encRead a Reg.ifcnt.addr with
    | .error e => .error e
    | .ok q => .ok (w ++ q)

/-- EXCHANGE's continuation with received bytes: DOUT, DOUT_LEN, OK; nothing is checked (R256). -/
def continueRaw (rx : List Byte) (q : Port) : Except Fault Port := .ok ((q.putDout rx).finish .ok)

/-- READ_REG's continuation with received bytes (R291). R is the R of CMD. -/
def continueRd (rx : List Byte) (q : Port) : Except Fault Port :=
  match q.cmdReg with
  | none => .error .internalLatchUnwritten
  | some r => .ok (q.putReply (decReply (replyOfRead rx) r))

/-- WRITE_REG's WB continuation with received bytes (R297): BEFORE, then the main exchange is requested, or the
write is never sent. -/
def continueWb (rx : List Byte) (q : Port) : Except Fault Port :=
  match decReply (replyOfRead rx) .ifcnt with
  | .error e => .ok (q.raise e)
  | .ok (v, _) =>
    match q.wreg, q.wpay with
    | some w, some pay =>
      match writeThenRead q.cfgAddr w pay with
      | .error e => .ok ((q.putBefore (ifcntOf v)).raise e)
      | .ok tx => .ok ((q.putBefore (ifcntOf v)).busExchange .wm tx Config.writeRxLen)
    | _, _ => .error .internalLatchUnwritten

/-- WRITE_REG's WM continuation with received bytes (R298): AFTER, then the comparison with BEFORE. -/
def continueWm (rx : List Byte) (q : Port) : Except Fault Port :=
  match decReply (replyOfWrite rx) .ifcnt with
  | .error e => .ok (q.raise e)
  | .ok (v, _) =>
    match q.before with
    | none => .error .internalLatchUnwritten
    | some b => .ok ((q.putAfter (ifcntOf v)).finish (verifyStatus b (ifcntOf v)))

/-- Continue a port's command in phase `ph` with the outcome of its exchange (R254). Timeout and IoError are raised in
every phase (R256, R291, R297, R298). -/
def continueCommand (ph : Phase) (a : Answer) (q : Port) : Except Fault Port :=
  match a with
  | .timeout => .ok (q.raise .timeout)
  | .ioError => .ok (q.raise .ioError)
  | .bytes rx =>
    match ph with
    | .raw => continueRaw rx q
    | .rd => continueRd rx q
    | .wb => continueWb rx q
    | .wm => continueWm rx q

end Sys2Proof.Machine
end

