-- ==== Sys2Proof/Machine/Convenience.lean ====
section
/-! DEFINITION. The per-register forms RD_X and WR_X (R113, R145, R150 to R162): READ_REG and WRITE_REG with R fixed. -/

namespace Sys2Proof.Machine

/-- RD_GCONF: READ_REG with R of GCONF (R145, R150). -/
def execRdGconf (s : State) : Host.Outcome State Fault Refusal := onIdlePort s (.next (readRegister .gconf s))

/-- RD_GSTAT: READ_REG with R of GSTAT (R145, R151). -/
def execRdGstat (s : State) : Host.Outcome State Fault Refusal := onIdlePort s (.next (readRegister .gstat s))

/-- RD_IFCNT: READ_REG with R of IFCNT (R145, R152). -/
def execRdIfcnt (s : State) : Host.Outcome State Fault Refusal := onIdlePort s (.next (readRegister .ifcnt s))

/-- RD_NODECONF: READ_REG with R of NODECONF (R145, R153). -/
def execRdNodeconf (s : State) : Host.Outcome State Fault Refusal := onIdlePort s (.next (readRegister .nodeconf s))

/-- RD_IOIN: READ_REG with R of IOIN (R145, R154). -/
def execRdIoin (s : State) : Host.Outcome State Fault Refusal := onIdlePort s (.next (readRegister .ioin s))

/-- RD_IHOLD_IRUN: READ_REG with R of IHOLD_IRUN (R145, R155). -/
def execRdIholdIrun (s : State) : Host.Outcome State Fault Refusal := onIdlePort s (.next (readRegister .iholdIrun s))

/-- RD_TPOWERDOWN: READ_REG with R of TPOWERDOWN (R145, R156). -/
def execRdTpowerdown (s : State) : Host.Outcome State Fault Refusal := onIdlePort s (.next (readRegister .tpowerdown s))

/-- RD_TSTEP: READ_REG with R of TSTEP (R145, R157). -/
def execRdTstep (s : State) : Host.Outcome State Fault Refusal := onIdlePort s (.next (readRegister .tstep s))

/-- RD_TPWMTHRS: READ_REG with R of TPWMTHRS (R145, R158). -/
def execRdTpwmthrs (s : State) : Host.Outcome State Fault Refusal := onIdlePort s (.next (readRegister .tpwmthrs s))

/-- RD_TCOOLTHRS: READ_REG with R of TCOOLTHRS (R145, R159). -/
def execRdTcoolthrs (s : State) : Host.Outcome State Fault Refusal := onIdlePort s (.next (readRegister .tcoolthrs s))

/-- RD_VACTUAL: READ_REG with R of VACTUAL (R145, R160). -/
def execRdVactual (s : State) : Host.Outcome State Fault Refusal := onIdlePort s (.next (readRegister .vactual s))

/-- RD_CHOPCONF: READ_REG with R of CHOPCONF (R145, R161). -/
def execRdChopconf (s : State) : Host.Outcome State Fault Refusal := onIdlePort s (.next (readRegister .chopconf s))

/-- RD_PWMCONF: READ_REG with R of PWMCONF (R145, R162). -/
def execRdPwmconf (s : State) : Host.Outcome State Fault Refusal := onIdlePort s (.next (readRegister .pwmconf s))

/-- WR_GCONF: WRITE_REG with R of GCONF (R145, R150). -/
def execWrGconf (s : State) : Host.Outcome State Fault Refusal := onIdlePort s (.next (writeRegister .gconf s))

/-- WR_GSTAT: WRITE_REG with R of GSTAT (R145, R151). -/
def execWrGstat (s : State) : Host.Outcome State Fault Refusal := onIdlePort s (.next (writeRegister .gstat s))

/-- WR_IFCNT: WRITE_REG with R of IFCNT (R145, R152). -/
def execWrIfcnt (s : State) : Host.Outcome State Fault Refusal := onIdlePort s (.next (writeRegister .ifcnt s))

/-- WR_NODECONF: WRITE_REG with R of NODECONF (R145, R153). -/
def execWrNodeconf (s : State) : Host.Outcome State Fault Refusal := onIdlePort s (.next (writeRegister .nodeconf s))

/-- WR_IOIN: WRITE_REG with R of IOIN (R145, R154). -/
def execWrIoin (s : State) : Host.Outcome State Fault Refusal := onIdlePort s (.next (writeRegister .ioin s))

/-- WR_IHOLD_IRUN: WRITE_REG with R of IHOLD_IRUN (R145, R155). -/
def execWrIholdIrun (s : State) : Host.Outcome State Fault Refusal := onIdlePort s (.next (writeRegister .iholdIrun s))

/-- WR_TPOWERDOWN: WRITE_REG with R of TPOWERDOWN (R145, R156). -/
def execWrTpowerdown (s : State) : Host.Outcome State Fault Refusal := onIdlePort s (.next (writeRegister .tpowerdown s))

/-- WR_TSTEP: WRITE_REG with R of TSTEP (R145, R157). -/
def execWrTstep (s : State) : Host.Outcome State Fault Refusal := onIdlePort s (.next (writeRegister .tstep s))

/-- WR_TPWMTHRS: WRITE_REG with R of TPWMTHRS (R145, R158). -/
def execWrTpwmthrs (s : State) : Host.Outcome State Fault Refusal := onIdlePort s (.next (writeRegister .tpwmthrs s))

/-- WR_TCOOLTHRS: WRITE_REG with R of TCOOLTHRS (R145, R159). -/
def execWrTcoolthrs (s : State) : Host.Outcome State Fault Refusal := onIdlePort s (.next (writeRegister .tcoolthrs s))

/-- WR_VACTUAL: WRITE_REG with R of VACTUAL (R145, R160). -/
def execWrVactual (s : State) : Host.Outcome State Fault Refusal := onIdlePort s (.next (writeRegister .vactual s))

/-- WR_CHOPCONF: WRITE_REG with R of CHOPCONF (R145, R161). -/
def execWrChopconf (s : State) : Host.Outcome State Fault Refusal := onIdlePort s (.next (writeRegister .chopconf s))

/-- WR_PWMCONF: WRITE_REG with R of PWMCONF (R145, R162). -/
def execWrPwmconf (s : State) : Host.Outcome State Fault Refusal := onIdlePort s (.next (writeRegister .pwmconf s))

end Sys2Proof.Machine
end

