-- ==== Sys2Proof/Machine/Bus.lean ====
section
/-! DEFINITION. The shared bus: the arbiter's GRANT (R252), the transport's ANSWER (R254), bytes arriving on the line
(R257), and the environment's turn when no agent's move is given. -/

namespace Sys2Proof.Machine

/-- GRANT to port `p` (R252): enabled when the lock is free and the port waits. -/
def grant (p : PortId) (s : State) : Host.Outcome State Fault Refusal :=
  match s.lockOwner, (s.port p).seq with
  | none, .waitLock ph =>
    match (s.port p).txb, (s.port p).rxlen with
    | some tx, some n => .next (s.takeLock p ph tx n)
    | _, _ => .fault .internalLatchUnwritten
  | _, _ => .fault .noSuchMove

/-- The answer is one the transport can give to an exchange of this port: bytes come with `len(rx) = RXLEN[p]`
(R254). -/
def answerFits (a : Answer) (q : Port) : Bool :=
  match a with
  | .bytes rx => q.rxlen.map (fun n => n.toNat) == some rx.length
  | .timeout => true
  | .ioError => true

/-- ANSWER (R254): release the lock, then continue the owner's command with the outcome, in one step. -/
def answer (a : Answer) (s : State) : Host.Outcome State Fault Refusal :=
  match s.lockOwner with
  | none => .fault .noSuchMove
  | some p =>
    match (s.port p).seq with
    | .xchg ph =>
      if answerFits a (s.port p) then
        match continueCommand ph a (s.port p) with
        | .error e => .fault e
        | .ok q => .next (s.endExchange p a q)
      else .fault .noSuchMove
    | .idle => .fault .noSuchMove
    | .waitLock _ => .fault .noSuchMove

/-- How many bytes the exchange in flight still asks for in all (R45); `none` if none is in flight. -/
def State.wanted (s : State) : Option Nat :=
  match s.lockOwner with
  | none => none
  | some p =>
    match (s.port p).seq with
    | .xchg _ => (s.port p).rxlen.map fun n => n.toNat
    | .idle => none
    | .waitLock _ => none

/-- Bytes arrive in the transport's receive buffer (R45, R257). Where they complete the exchange in flight, it ends with
the bytes it asked for (R254); otherwise the transport holds them, and no block state changes (log entries 11 and 12). -/
def arrive (bs : List Byte) (s : State) : Host.Outcome State Fault Refusal :=
  let s := { s with line := s.line ++ bs }
  match s.wanted with
  | some n => if n ≤ s.line.length then answer (.bytes (s.line.take n)) s else .next s
  | none => .next s

/-- The bytes a transport answers when nothing names them: free values of draw `k` (R257). -/
def freeBytes (k n : Nat) : List Byte := (List.range n).map (Config.freeByte k)

/-- The answer of draw `k` to an exchange of `n` bytes (R254, R257, R259, R260). -/
def freeAnswer (k n : Nat) : Answer :=
  match Config.freeAnswerKind k with
  | .bytes => .bytes (freeBytes k n)
  | .timeout => .timeout
  | .ioError => .ioError

/-- The waiter that draw `k` chooses from a list (R252: free choice). -/
def chooseWaiter (k : Nat) (ws : List PortId) : Option PortId := ws[Config.freeChoice k % ws.length]?

/-- The environment's own turn: ANSWER if an exchange is in flight, else GRANT if a port waits, else nothing moves. Both
choices are free values (log entry 2). -/
def environmentTurn (s : State) : Host.Outcome State Fault Refusal :=
  match s.wanted with
  | some n => answer (freeAnswer s.fresh n) s.draw
  | none =>
    match chooseWaiter s.fresh s.waiters with
    | some p => grant p s.draw
    | none => .next s

end Sys2Proof.Machine
end

