-- ==== Sys2Proof/Machine/Frames.lean ====
section
/-! DEFINITION. The three wire frames as rows of the opcode table. A frame is no command: its bytes are on the line, and
arrive in the receive buffer of the transport (R102, R257; log entry 11). The block decodes no request (R104); a reply
that completes the exchange in flight is checked by the decoder (R207). -/

namespace Sys2Proof.Machine

/-- FRAME_READ_REQUEST: its 4 bytes arrive (R100): on a healthy line, the echo of a transmitted read request. -/
def execFrameReadRequest (addr : BitVec 2) (reg : BitVec 7) (crc : Byte) (s : State) :
    Host.Outcome State Fault Refusal :=
  arrive (frameBytes (.frameReadRequest addr reg crc)) s

/-- FRAME_WRITE_REQUEST: its 8 bytes arrive (R101): on a healthy line, the echo of a transmitted write request. -/
def execFrameWriteRequest (addr : BitVec 2) (reg : BitVec 7) (p0 p1 p2 p3 crc : Byte) (s : State) :
    Host.Outcome State Fault Refusal :=
  arrive (frameBytes (.frameWriteRequest addr reg p0 p1 p2 p3 crc)) s

/-- FRAME_REPLY: its 8 bytes arrive (R102): on a healthy line, after the echo. -/
def execFrameReply (reg : BitVec 7) (p0 p1 p2 p3 crc : Byte) (s : State) : Host.Outcome State Fault Refusal :=
  arrive (frameBytes (.frameReply reg p0 p1 p2 p3 crc)) s

end Sys2Proof.Machine
end

