-- ==== Sys2Proof/Machine/Integrity.lean ====
section
/-! DEFINITION. The CRC commands: CRC8 (R230) and CRC_CHECK (R232). -/

namespace Sys2Proof.Machine

/-- CRC8 N: `DOUT[p][0] <- crc8(DIN[p][0..N-1]) ; DOUT_LEN[p] <- 1 ; STATUS[p] <- OK` (R230). -/
def execCrc8 (n : Byte) (s : State) : Host.Outcome State Fault Refusal :=
  onIdlePort s
    (.next (s.draw.updPort s.cur fun q => (q.putDout [crc8 (s.dinOperand n)]).finish .ok))

/-- CRC_CHECK N: OK if the last of the N bytes is the CRC of the others, else CrcMismatch (R232); N = 0 is refused
(R122). -/
def execCrcCheck (n : Byte) (s : State) : Host.Outcome State Fault Refusal :=
  onIdlePort s
    (if n = 0 then .refused (.undecodable .crcCheckEmpty)
     else .next (s.draw.updPort s.cur fun q => q.finish (crcStatus (s.dinOperand n))))

end Sys2Proof.Machine
end

