-- ==== Sys2Proof/Machine/Dispatch.lean ====
section
/-! DEFINITION. One arm per instruction: each calls its own meaning. -/

namespace Sys2Proof.Machine

def exec (i : Instr) (s : State) : Host.Outcome State Fault Refusal :=
  match i with
  | .crc8 n => Sys2Proof.Machine.execCrc8 n s
  | .crcCheck n => Sys2Proof.Machine.execCrcCheck n s
  | .encRd a r => Sys2Proof.Machine.execEncRd a r s
  | .encWr a r => Sys2Proof.Machine.execEncWr a r s
  | .decReply r n => Sys2Proof.Machine.execDecReply r n s
  | .unpack r => Sys2Proof.Machine.execUnpack r s
  | .pack r => Sys2Proof.Machine.execPack r s
  | .exchange a n => Sys2Proof.Machine.execExchange a n s
  | .readReg r => Sys2Proof.Machine.execReadReg r s
  | .writeReg r => Sys2Proof.Machine.execWriteReg r s
  | .verify a n => Sys2Proof.Machine.execVerify a n s
  | .rdGconf => Sys2Proof.Machine.execRdGconf s
  | .rdGstat => Sys2Proof.Machine.execRdGstat s
  | .rdIfcnt => Sys2Proof.Machine.execRdIfcnt s
  | .rdNodeconf => Sys2Proof.Machine.execRdNodeconf s
  | .rdIoin => Sys2Proof.Machine.execRdIoin s
  | .rdIholdIrun => Sys2Proof.Machine.execRdIholdIrun s
  | .rdTpowerdown => Sys2Proof.Machine.execRdTpowerdown s
  | .rdTstep => Sys2Proof.Machine.execRdTstep s
  | .rdTpwmthrs => Sys2Proof.Machine.execRdTpwmthrs s
  | .rdTcoolthrs => Sys2Proof.Machine.execRdTcoolthrs s
  | .rdVactual => Sys2Proof.Machine.execRdVactual s
  | .rdChopconf => Sys2Proof.Machine.execRdChopconf s
  | .rdPwmconf => Sys2Proof.Machine.execRdPwmconf s
  | .wrGconf => Sys2Proof.Machine.execWrGconf s
  | .wrGstat => Sys2Proof.Machine.execWrGstat s
  | .wrIfcnt => Sys2Proof.Machine.execWrIfcnt s
  | .wrNodeconf => Sys2Proof.Machine.execWrNodeconf s
  | .wrIoin => Sys2Proof.Machine.execWrIoin s
  | .wrIholdIrun => Sys2Proof.Machine.execWrIholdIrun s
  | .wrTpowerdown => Sys2Proof.Machine.execWrTpowerdown s
  | .wrTstep => Sys2Proof.Machine.execWrTstep s
  | .wrTpwmthrs => Sys2Proof.Machine.execWrTpwmthrs s
  | .wrTcoolthrs => Sys2Proof.Machine.execWrTcoolthrs s
  | .wrVactual => Sys2Proof.Machine.execWrVactual s
  | .wrChopconf => Sys2Proof.Machine.execWrChopconf s
  | .wrPwmconf => Sys2Proof.Machine.execWrPwmconf s
  | .frameReadRequest addr reg crc => Sys2Proof.Machine.execFrameReadRequest addr reg crc s
  | .frameWriteRequest addr reg p0 p1 p2 p3 crc => Sys2Proof.Machine.execFrameWriteRequest addr reg p0 p1 p2 p3 crc s
  | .frameReply reg p0 p1 p2 p3 crc => Sys2Proof.Machine.execFrameReply reg p0 p1 p2 p3 crc s

end Sys2Proof.Machine
end

