-- ==== Sys2Proof/Machine/Turn.lean ====
section
/-! DEFINITION. One move of one agent (R265): what each input does (R345), and the order in which moves are taken. -/

namespace Sys2Proof.Machine

/-- The state in which `exec` runs an issued command: the word is in CMD and the port is the issuing one (R32, R345). -/
def State.beginCommand (s : State) (p : PortId) (w : Word) : State :=
  { s.updPort p (Port.putCmd w) with cur := p }

/-- A host move that needs port `p` IDLE (R345): on a port that does not exist it is refused (R344), on a busy port the
host has no such move (D31). -/
def onHostPort (s : State) (p : PortId) (k : Host.Outcome State Fault Refusal) : Host.Outcome State Fault Refusal :=
  if s.hasPort p then (if s.isIdle p then k else .fault .noSuchMove) else .refused .noSuchPort

/-- The host writes a command word to CMD (R32): on a busy port the issue is refused (R339); a word that does not
decode is refused by its name (R120 to R122); any other is executed. -/
def issue (p : PortId) (w : Word) (s : State) : Host.Outcome State Fault Refusal :=
  if s.hasPort p then
    if s.isIdle p then
      match decodeCommand w with
      | .error e => .refused (.undecodable e)
      | .ok i => exec i (s.beginCommand p w)
    else .refused .portBusy
  else .refused .noSuchPort

/-- What a result latch holds for the host: DOUT is its first DOUT_LEN bytes (R40); `none` is ⊥. -/
def Port.latch (q : Port) : Latch → Option HostValue
  | .status => q.status.map .status
  | .dout => q.doutLen.map fun n => .bytes (q.dout.firstBytes n)
  | .result32 => q.result32.map .word
  | .rfields => q.rfields.map .record
  | .before => q.before.map .byte
  | .after => q.after.map .byte

/-- The host reads a result latch; a read of ⊥ faults, as the spec says (R338, R345, R52, I15). -/
def hostRead (p : PortId) (l : Latch) (s : State) : Host.Outcome State Fault Refusal :=
  match (s.port p).latch l with
  | some v => .next { s with readout := some v }
  | none => .fault (.unwrittenLatch l)

/-- The host writes DIN from an index on, within its 256 bytes (R33, R131). -/
def hostWriteDin (p : PortId) (off : Nat) (bs : List Byte) (s : State) : Host.Outcome State Fault Refusal :=
  if off + bs.length ≤ Config.bufMax then .next (s.updPort p (Port.putDin off bs)) else .fault .dinOutOfRange

/-- The host writes a field record; one that is not a record of its register cannot be written (R35, D12). -/
def hostWriteFields (p : PortId) (f : FieldRecord) (s : State) : Host.Outcome State Fault Refusal :=
  if f.fits f.reg then .next (s.updPort p (Port.putFields f)) else .refused .malformedFields

/-- Bytes arrive on the line: as the frame they are, or as bytes that are no frame (R102, R257). -/
def wireMove (bs : List Byte) (s : State) : Host.Outcome State Fault Refusal :=
  match decodeFrame bs with
  | .ok i => exec i s
  | .error _ => arrive bs s

/-- Make a move, which has been taken from the inputs. -/
def applyInput (i : Input) (s : State) : Host.Outcome State Fault Refusal :=
  match i with
  | .writeDin p off bs => onHostPort s p (hostWriteDin p off bs s)
  | .writePayload p v => onHostPort s p (.next (s.updPort p (Port.putPayload v)))
  | .writeFields p f => onHostPort s p (hostWriteFields p f s)
  | .issue p w => issue p w s
  | .wait p => if s.hasPort p then .next s else .refused .noSuchPort
  | .read p l => onHostPort s p (hostRead p l s)
  | .grant p => grant p s
  | .answer a => answer a s
  | .wire bs => wireMove bs s

/-- The input is a wait for a port that is still busy (R345: "wait any time"): the environment moves meanwhile. -/
def State.stillWaits (s : State) : Input → Bool
  | .wait p => s.hasPort p && !s.isIdle p
  | .writeDin .. | .writePayload .. | .writeFields .. | .issue .. | .read .. | .grant .. | .answer .. | .wire .. => false

/-- The next move: the first input; or the environment's own turn, where there is none or the host waits. -/
def turn (s : State) : Host.Outcome State Fault Refusal :=
  match s.inputs with
  | [] => environmentTurn s
  | i :: rest => if s.stillWaits i then environmentTurn s else applyInput i { s with inputs := rest }

/-- The port the host's next command goes to in `withFetchWord`: the first existing port that is IDLE, else port 0. -/
def State.freePort (s : State) : PortId :=
  (([0, 1, 2, 3] : List PortId).find? fun p => s.hasPort p && s.isIdle p).getD 0

/-- The move that makes the machine run the instruction whose table bits are `w` (see `decodeTableWord`): a command
word is issued, a wire frame arrives. -/
def tableMove (p : PortId) (nbits w : Nat) : Input :=
  if nbits ≤ 32 then
    match decodeCommand (BitVec.ofNat 32 w), decodeFrame (wireBytes4 (BitVec.ofNat 32 w)) with
    | .error _, .ok _ => .wire (wireBytes4 (BitVec.ofNat 32 w))
    | _, _ => .issue p (BitVec.ofNat 32 w)
  else .wire (wireBytes8 (BitVec.ofNat 64 w))

end Sys2Proof.Machine
end

