-- ==== Sys2Proof/Machine/Step.lean ====
section
/-! DEFINITION. One step: one move of one agent (R265). -/

namespace Sys2Proof.Machine

/-- One step of the machine. -/
def step (s : State) : Host.Outcome State Fault Refusal := turn s

/-- The state whose very next move is the instruction with these table bits: the machine has no program memory (R88),
so the command word, or the frame, is put before the other moves (log entry 1). -/
def State.withFetchWord (s : State) (nbits w : Nat) : State :=
  { s with inputs := tableMove s.freePort nbits w :: s.inputs }

end Sys2Proof.Machine
end

