-- ==== Sys2Proof/Machine/Assembly.lean ====
section
/-! DEFINITION. The statements of the spec's assembly syntax (R130 to R132) as data, and the host moves each stands
for. -/

namespace Sys2Proof.Machine

/-- A statement: a command (R130), an operand directive (R131) or a pseudo-instruction (R132). -/
inductive Statement where
  | command (i : Instr)
  /-- `.din b0, b1, ...` -/
  | din (bs : List Byte)
  /-- `.payload v` -/
  | payload (v : Word)
  /-- `.fields X f1=v1, ...` -/
  | fields (x : Reg) (given : List (FieldName × Nat))
  /-- `RD_X` -/
  | rdX (x : Reg)
  /-- `WR_X f=v, ...` -/
  | wrX (x : Reg) (given : List (FieldName × Nat))
  /-- `ENC_WRX a, X` -/
  | encWrx (a : Byte) (x : Reg)
deriving DecidableEq, Repr

/-- The host moves a statement stands for on port `p`: directives are host writes, pseudo-instructions expand (R131,
R132). -/
def Statement.expand (p : PortId) : Statement → List Input
  | .command i => [.issue p (encodeCommand i)]
  | .din bs => [.writeDin p 0 bs]
  | .payload v => [.writePayload p v]
  | .fields x given => [.writeFields p (.make x given)]
  | .rdX x => [.issue p (encodeCommand (.readReg x))]
  | .wrX x given => [.writeFields p (.make x given), .issue p (encodeCommand (.writeReg x))]
  | .encWrx a x => [.issue p (encodeCommand (.encWr a x.writeAddr))]

/-- The field list of a record statement names fields of the register, each with a value that its width holds: a wider
value is not expressible (R35, I8). A list that names a field twice is admitted (log entry 28, DESIGN CHOICE). -/
def givenFits (x : Reg) (given : List (FieldName × Nat)) : Bool :=
  given.all fun g => (layout x).any fun f => f.name == g.1 && decide (g.2 < 2 ^ f.width)

/-- The statement is one that the syntax admits (R130 to R132): a command word, not a wire frame; at most 256 bytes; a
field list that fits. -/
def Statement.wf : Statement → Bool
  | .command i => frameBytes i == []
  | .din bs => decide (bs.length ≤ Config.bufMax)
  | .payload _ => true
  | .fields x given => givenFits x given
  | .rdX _ => true
  | .wrX x given => givenFits x given
  | .encWrx _ _ => true

/-- A program for port `p` that waits for the end of each command before the next statement (R83, R345). -/
def assemble (p : PortId) (prog : List Statement) : List Input :=
  prog.flatMap fun t => t.expand p ++ [.wait p]

end Sys2Proof.Machine
end

