-- ==== Sys2Proof/Safety.lean ====
section
/-! DEFINITION. What claims call a good state: the invariant of the whole machine (`State.Inv`), the launch premises of
R375 (`State.Launch`), and the words the claims use for them. -/

namespace Sys2Proof.Machine

/-- A buffer in canonical form with every index below BUF_MAX (R9, R33, R40). -/
def Memory.ok (m : Memory) : Bool := m.wf && m.all fun c => decide (c.1 < Config.bufMax)

/-- A record latch holds ⊥ or a record that has exactly its register's fields (R35, R42). -/
def recordOk : Option FieldRecord → Bool
  | none => true
  | some f => f.fits f.reg

/-- The internal latches of a port hold what phase `ph` transmits and expects (R37, R256, R290, R296, R297), and CMD still
holds the command in progress (R332). -/
def Port.phaseOk (ph : Phase) (q : Port) : Bool :=
  match q.txb, q.rxlen, q.cmd with
  | some tx, some n, some w =>
    match ph with
    | .raw => opcOf w == 0x30 && n == aOf w && tx.length == (nOf w).toNat
    | .rd =>
      opcOf w == 0x40 && q.cmdReg.isSome && n == Config.readRxLen && (encRead q.cfgAddr (rOf w)).toOption == some tx
    | .wb =>
      opcOf w == 0x41 && q.cmdReg.isSome && q.wreg == some (rOf w) && q.wpay.isSome && n == Config.readRxLen &&
        (encRead q.cfgAddr Reg.ifcnt.addr).toOption == some tx
    | .wm =>
      opcOf w == 0x41 && q.cmdReg.isSome && q.wreg == some (rOf w) && q.before.isSome && n == Config.writeRxLen &&
        (q.wpay.bind fun v => (writeThenRead q.cfgAddr (rOf w) v).toOption) == some tx
  | _, _, _ => false

/-- The sequencer state agrees with the latches. -/
def Port.seqOk (q : Port) : Bool :=
  match q.seq with
  | .idle => true
  | .waitLock ph => q.phaseOk ph
  | .xchg ph => q.phaseOk ph

/-- A port in good order. -/
def Port.ok (q : Port) : Bool :=
  q.din.ok && q.dout.ok && recordOk q.fields && recordOk q.rfields && q.seqOk

/-- The port's exchange is in flight: `SEQ[p] = XCHG(ph)` for some ph (R36). -/
def Port.inXchg (q : Port) : Bool :=
  match q.seq with
  | .idle => false
  | .waitLock _ => false
  | .xchg _ => true

/-- `XFER = (owner, TXB[owner], RXLEN[owner])` while the lock is held, and none otherwise (R45). -/
def State.expectedXfer (s : State) : Option Xfer :=
  s.lockOwner.bind fun p =>
    match (s.port p).txb, (s.port p).rxlen with
    | some tx, some n => some ⟨p, tx, n⟩
    | _, _ => none

/-- The invariant of the machine. -/
structure State.Inv (s : State) : Prop where
  /-- There are 1 to 4 ports (R9, R344). -/
  nports : 1 ≤ s.nports ∧ s.nports ≤ 4
  /-- The issuing port exists. -/
  cur : s.hasPort s.cur = true
  /-- Every port is in good order. -/
  ports : ∀ p, (s.port p).ok = true
  /-- A port number that is not below NPORTS runs nothing. -/
  absent : ∀ p, s.hasPort p = false → s.isIdle p = true
  /-- `LOCK_OWNER = p` if and only if `SEQ[p] = XCHG(ph)` for some ph (R43). -/
  lock : ∀ p, s.lockOwner = some p ↔ (s.port p).inXchg = true
  /-- The exchange in flight is the owner's (R45). -/
  xfer : s.xfer = s.expectedXfer

/-- The launch premises (R375) that speak of the block, for the ports whose bus commands are expected to succeed: every
port IDLE, the lock free, `CFG_ADDR[p] <= 3` for each of those ports, and the addresses of different ports distinct. A
port with an address above 3 that is not among them is admitted (I21). That no fault or refusal is recorded holds of every
state, since a step that records one has no next state (log entry 8). -/
abbrev State.Launch (expected : List PortId) (s : State) : Prop :=
  (∀ p, s.isIdle p = true) ∧ s.lockOwner = none ∧
  (∀ p ∈ expected, s.hasPort p = true ∧ (s.port p).cfgAddr ≤ Config.maxDriverAddr) ∧
  (∀ p q, s.hasPort p = true → s.hasPort q = true → p ≠ q → (s.port p).cfgAddr ≠ (s.port q).cfgAddr)

/-- Every port is IDLE and the bus is free: no command is in progress. -/
abbrev State.Settled (s : State) : Prop := (∀ p, s.isIdle p = true) ∧ s.lockOwner = none ∧ s.xfer = none

/-- The port runs a WRITE_REG (R36). -/
def Port.writing (q : Port) : Bool :=
  match q.seq with
  | .waitLock .wb | .waitLock .wm | .xchg .wb | .xchg .wm => true
  | .waitLock .raw | .waitLock .rd | .xchg .raw | .xchg .rd | .idle => false

/-! ### Words of the claims about steps: whose step it is, and which answer it brings -/

/-- The port that a move is for: the port it names, and for an ANSWER or bytes on the line the owner of the lock (R252,
R254, R266). A wait and a host read are for no port's state. -/
def State.portOf (s : State) : Input → Option PortId
  | .writeDin p _ _ => some p
  | .writePayload p _ => some p
  | .writeFields p _ => some p
  | .issue p _ => some p
  | .wait _ => none
  | .read _ _ => none
  | .grant p => some p
  | .answer _ => s.lockOwner
  | .wire _ => s.lockOwner

/-- The port of the environment's own turn: the owner of an exchange in flight, else the waiter that is granted (log entry
2). -/
def State.environmentPort (s : State) : Option PortId :=
  match s.wanted with
  | some _ => s.lockOwner
  | none => chooseWaiter s.fresh s.waiters

/-- The one port whose state the next step may change (R265, R266). -/
def State.movingPort (s : State) : Option PortId :=
  match s.inputs with
  | [] => s.environmentPort
  | i :: _ => if s.stillWaits i then s.environmentPort else s.portOf i

/-- The answer that a move brings to the exchange in flight (R254): an ANSWER's own, or the first RXLEN bytes held once
the bytes that arrive complete them (log entry 12). -/
def State.answerOf (s : State) : Input → Option Answer
  | .writeDin _ _ _ => none
  | .writePayload _ _ => none
  | .writeFields _ _ => none
  | .issue _ _ => none
  | .wait _ => none
  | .read _ _ => none
  | .grant _ => none
  | .answer a => some a
  | .wire bs => s.wanted.bind fun n =>
      if n ≤ (s.line ++ bs).length then some (.bytes ((s.line ++ bs).take n)) else none

/-- The answer of the environment's own turn (log entry 2): a free one, if an exchange is in flight. -/
def State.environmentAnswer (s : State) : Option Answer := s.wanted.map (freeAnswer s.fresh)

/-- The answer that the next step brings to the exchange in flight, if it brings one (R254). -/
def State.stepAnswer (s : State) : Option Answer :=
  match s.inputs with
  | [] => s.environmentAnswer
  | i :: _ => if s.stillWaits i then s.environmentAnswer else s.answerOf i

/-- The next step is the environment's own turn: no move is given, or the host waits for a busy port (R345, log entries 2
and 19). -/
def State.environmentMoves (s : State) : Prop :=
  s.inputs = [] ∨ ∃ p rest, s.inputs = .wait p :: rest ∧ s.hasPort p = true ∧ s.isIdle p = false

/-! ### Words of the frame and result claims -/

/-- Nothing outside port `p` changed, but for the count of draws (R266). -/
structure State.OnlyPort (p : PortId) (s t : State) : Prop where
  nports : t.nports = s.nports
  others : ∀ q, q ≠ p → t.port q = s.port q
  lockOwner : t.lockOwner = s.lockOwner
  xfer : t.xfer = s.xfer
  line : t.line = s.line
  inputs : t.inputs = s.inputs
  cur : t.cur = s.cur
  readout : t.readout = s.readout

/-- The configuration, the command word and the operand buffers are the same: no command writes them (R31, R33). -/
structure Port.SameOperands (q q' : Port) : Prop where
  cfgAddr : q'.cfgAddr = q.cfgAddr
  cmd : q'.cmd = q.cmd
  din : q'.din = q.din
  payload : q'.payload = q.payload
  fields : q'.fields = q.fields

/-- The result latches are the same (R330: "output latches ... keep their previous values"). -/
structure Port.SameResults (q q' : Port) : Prop where
  dout : q'.dout = q.dout
  doutLen : q'.doutLen = q.doutLen
  result32 : q'.result32 = q.result32
  rfields : q'.rfields = q.rfields

/-- `bs` is a value of `DIN[p][0..len-1]`: it has every byte that was written; the others are open (R33, log entry 4). -/
def Port.DinReads (q : Port) (bs : List Byte) : Prop :=
  ∀ i b, i < bs.length → q.din.read i = some b → bs[i]? = some b

/-- `v` is a value of `PAYLOAD[p]`: the written one, or open (R34, log entry 4). -/
def Port.PayloadReads (q : Port) (v : Word) : Prop := ∀ u, q.payload = some u → v = u

/-- `f` is a value of `FIELDS[p]` for register `r`: a record of `r`, and the written one where that is a record of `r`
(R35, log entries 4 and 5). -/
def Port.FieldsRead (q : Port) (r : Reg) (f : FieldRecord) : Prop :=
  f.fits r = true ∧ ∀ g, q.fields = some g → g.fits r = true → f = g

end Sys2Proof.Machine
end

