-- ==== Sys2Proof/WellFormed.lean ====
section
/-! DEFINITION. Which instructions are well formed. Register operands, driver addresses and frame addresses are in
range by their types; what remains is R122 for CRC_CHECK and R233 for the frames. -/

namespace Sys2Proof

/-- CRC_CHECK has at least the CRC byte to check (R122). A frame's last byte is the CRC of every byte before it
(R233). -/
def Instr.wf (i : Instr) : Bool :=
  match i with
  | .crcCheck n => n != 0
  | .frameReadRequest _ _ c => Machine.crc8 (frameBytes i).dropLast == c
  | .frameWriteRequest _ _ _ _ _ _ c => Machine.crc8 (frameBytes i).dropLast == c
  | .frameReply _ _ _ _ _ c => Machine.crc8 (frameBytes i).dropLast == c
  | .crc8 _ | .encRd _ _ | .encWr _ _ | .decReply _ _ | .unpack _ | .pack _ | .exchange _ _ | .readReg _
  | .writeReg _ | .verify _ _
  | .rdGconf | .rdGstat | .rdIfcnt | .rdNodeconf | .rdIoin | .rdIholdIrun | .rdTpowerdown | .rdTstep | .rdTpwmthrs
  | .rdTcoolthrs | .rdVactual | .rdChopconf | .rdPwmconf
  | .wrGconf | .wrGstat | .wrIfcnt | .wrNodeconf | .wrIoin | .wrIholdIrun | .wrTpowerdown | .wrTstep | .wrTpwmthrs
  | .wrTcoolthrs | .wrVactual | .wrChopconf | .wrPwmconf => true

end Sys2Proof
end

