-- ==== Sys2Proof/Certificates/Slice0/Obligations.lean ====
section
/-! DEFINITION. The statements for the provers, from the numbered rules of spec/. -/

open Sys2Proof Sys2Proof.Machine

/-! ### Encoding and decoding -/

/-- R111, R100 to R102 with R113: no bit of an encoding is dropped. CRC_CHECK 0 is the one instruction whose word is
reserved (R122). The numeric OPC values are the spec's decision D2; the most specific spelling is log entry 10. -/
def Obligations.DecodeOfEncodeIsTheInstruction : Prop :=
  ∀ i : Instr, i ≠ .crcCheck 0 → decodeTableWord (encodeBits i) (encodeWord i) = some i.canonical

/-- R111, R112 (decision D2): every value of every ignored field decodes alike; R113: a READ_REG or WRITE_REG word is
its per-register form (log entry 10). -/
def Obligations.OpcodeMapDecodesEveryOperand : Prop :=
  ∀ (a r n : Byte) (x : Reg),
    decodeCommand (commandWord 0x01 a r n) = .ok (.crc8 n) ∧
    (n ≠ 0 → decodeCommand (commandWord 0x02 a r n) = .ok (.crcCheck n)) ∧
    decodeCommand (commandWord 0x10 a r n) = .ok (.encRd a r) ∧
    decodeCommand (commandWord 0x11 a r n) = .ok (.encWr a r) ∧
    decodeCommand (commandWord 0x12 a x.addr n) = .ok (.decReply x n) ∧
    decodeCommand (commandWord 0x20 a x.addr n) = .ok (.unpack x) ∧
    decodeCommand (commandWord 0x21 a x.addr n) = .ok (.pack x) ∧
    decodeCommand (commandWord 0x30 a r n) = .ok (.exchange a n) ∧
    decodeCommand (commandWord 0x40 a x.addr n) = .ok (Instr.readForm x) ∧
    decodeCommand (commandWord 0x41 a x.addr n) = .ok (Instr.writeForm x) ∧
    decodeCommand (commandWord 0x42 a r n) = .ok (.verify a n)

/-- R120, R121, R122 (decisions D2, D13, D33): the reserved command words are exactly these. -/
def Obligations.ReservedWordsAreExactlyTheRejected : Prop :=
  ∀ w : Word,
    (∃ e, decodeCommand w = .error e) ↔
      opcOf w ∉ ([0x01, 0x02, 0x10, 0x11, 0x12, 0x20, 0x21, 0x30, 0x40, 0x41, 0x42] : List Byte) ∨
      (opcOf w ∈ ([0x12, 0x20, 0x21, 0x40, 0x41] : List Byte) ∧
        rOf w ∉ ([0x00, 0x01, 0x02, 0x03, 0x06, 0x10, 0x11, 0x12, 0x13, 0x14, 0x22, 0x6C, 0x70] : List Byte)) ∨
      (opcOf w = 0x02 ∧ nOf w = 0)

/-- Words written out from R100 to R102, R111 and 95_test_vectors.md. That the words of READ_REG CHOPCONF and WRITE_REG
TPOWERDOWN come back as RD_CHOPCONF and WR_TPOWERDOWN is the model's choice between two rows of one word (R113; log entry
10, DESIGN CHOICE). -/
def Obligations.WrittenOutWordsDecode : Prop :=
  decodeTableWord 32 0b00000001000000000000000000000011 = some (.crc8 3) ∧
  decodeTableWord 32 0b00010000000000100110110000000000 = some (.encRd 2 0x6C) ∧
  decodeTableWord 32 0b00010010000000000000000100001000 = some (.decReply .gstat 8) ∧
  decodeTableWord 32 0b00100001000000000000011000000000 = some (.pack .ioin) ∧
  decodeTableWord 32 0b00110000000011010000000000000100 = some (.exchange 13 4) ∧
  decodeTableWord 32 0b01000000000000000110110000000000 = some .rdChopconf ∧
  decodeTableWord 32 0b01000001000000000001000100000000 = some .wrTpowerdown ∧
  decodeTableWord 32 0b01000010111111110000000000000001 = some (.verify 255 1) ∧
  decodeTableWord 32 0b00000101000000010000000011111110 = some (.frameReadRequest 1 0 0xFE) ∧
  decodeTableWord 64 0x0500800000014178 = some (.frameWriteRequest 0 0 0x00 0x00 0x01 0x41 0x78) ∧
  decodeTableWord 64 0x05FF020000002AE7 = some (.frameReply 2 0x00 0x00 0x00 0x2A 0xE7)

/-- R113, R145: "RD_X is READ_REG with R = r_X", and it runs the same. -/
def Obligations.PerRegisterFormsRunAsReadAndWrite : Prop :=
  ∀ (r : Reg) (s : State),
    exec (Instr.readForm r) s = exec (.readReg r) s ∧ exec (Instr.writeForm r) s = exec (.writeReg r) s

/-- R32, R345: the issue of a word that decodes, on an IDLE port, runs the decoded instruction on the state in which
CMD holds the word and the port is the issuing one (log entries 1 and 17). -/
def Obligations.StepRunsTheIssuedCommand : Prop :=
  ∀ (s : State) (p : PortId) (w : Word) (rest : List Input) (i : Instr),
    s.inputs = .issue p w :: rest → s.hasPort p = true → s.isIdle p = true → decodeCommand w = .ok i →
    step s = exec i (State.beginCommand { s with inputs := rest } p w)

/-- R102, R257 (log entry 11): a frame on the line runs as the instruction it decodes to. -/
def Obligations.StepRunsTheFrameOnTheLine : Prop :=
  ∀ (s : State) (bs : List Byte) (rest : List Input) (i : Instr),
    s.inputs = .wire bs :: rest → decodeFrame bs = .ok i → step s = exec i { s with inputs := rest }

/-- Log entry 1: the word that is placed runs in the very next step. -/
def Obligations.PlacedWordRunsInTheNextStep : Prop :=
  ∀ (s : State) (nbits w : Nat) (i : Instr),
    decodeTableWord nbits w = some i → s.hasPort s.freePort = true → s.isIdle s.freePort = true →
    step (s.withFetchWord nbits w) =
      if frameBytes i = [] then exec i (s.beginCommand s.freePort (BitVec.ofNat 32 w)) else exec i s

/-- R339: a word that does not decode and an issue on a busy port are refused, each by its name. That an issue on a port
number not below NPORTS is refused too is the model's (log entry 25, DEDUCED): R344 numbers the ports, and no rule speaks
of such an issue. -/
def Obligations.ReservedOrBusyIssueIsRefused : Prop :=
  ∀ (s : State) (p : PortId) (w : Word) (rest : List Input), s.inputs = .issue p w :: rest →
    (s.hasPort p = false → step s = .refused .noSuchPort) ∧
    (s.hasPort p = true → s.isIdle p = false → step s = .refused .portBusy) ∧
    (∀ e, s.hasPort p = true → s.isIdle p = true → decodeCommand w = .error e → step s = .refused (.undecodable e))

/-! ### The integrity checker -/

/-- R230: the loop, its corner values, and the command. Bytes of DIN that hold ⊥ are open (log entry 4). -/
def Obligations.Crc8CommandWritesTheBitSerialCrc : Prop :=
  (crc8 [] = 0x00 ∧
    ∀ (bs : List Byte) (b : Byte),
      crc8 (bs ++ [b]) =
        (List.range 8).foldl
          (fun (crc : Byte) (i : Nat) => if ((crc >>> 7) ^^^ ((b >>> i) &&& 1)) ≠ 0 then (crc <<< 1) ^^^ 0x07 else crc <<< 1)
          (crc8 bs)) ∧
  (crc8 [0x00] = 0x00 ∧ (∀ k, crc8 (List.replicate k 0x00) = 0x00) ∧ crc8 [0x01] = 0x89 ∧ crc8 [0x80] = 0x07 ∧
    crc8 [0xFF] = 0xF3 ∧ crc8 [0x05, 0x00, 0x00] = 0x48) ∧
  (∀ a r n : Byte, decodeCommand (commandWord 0x01 a r n) = .ok (.crc8 n)) ∧
  (∀ (n : Byte) (s : State), s.isIdle s.cur = true →
    ∃ t bs, exec (.crc8 n) s = .next t ∧ bs.length = n.toNat ∧ (s.port s.cur).DinReads bs ∧
      (t.port s.cur).dout.read 0 = some (crc8 bs) ∧ (t.port s.cur).doutLen = some 1 ∧
      (t.port s.cur).status = some .ok ∧ (t.port s.cur).seq = .idle)

/-- R232: the trailing byte is checked against the CRC of the others; N = 0 is refused (R122). -/
def Obligations.CrcCheckCommandTestsTheTrailingByte : Prop :=
  (∀ (n : Byte) (s : State), n ≠ 0 → s.isIdle s.cur = true →
    ∃ t q c, exec (.crcCheck n) s = .next t ∧ (q ++ [c]).length = n.toNat ∧ (s.port s.cur).DinReads (q ++ [c]) ∧
      (t.port s.cur).status = some (if crc8 q = c then .ok else .crcMismatch) ∧ (t.port s.cur).seq = .idle) ∧
  (∀ s : State, s.isIdle s.cur = true → exec (.crcCheck 0) s = .refused (.undecodable .crcCheckEmpty))

/-- R234 (derived there): the CRC is linear over GF(2) with initial value 0. -/
def Obligations.CrcIsLinear : Prop :=
  ∀ f e : List Byte, f.length = e.length → crc8 (List.zipWith (· ^^^ ·) f e) = crc8 f ^^^ crc8 e

/-- R234 (derived there): flipping exactly one bit anywhere in a frame that passes the check makes it fail, at every
frame length. -/
def Obligations.SingleBitFlipFailsTheCheck : Prop :=
  ∀ (f : List Byte) (i k : Nat) (b : Byte), crcAccepts f = true → f[i]? = some b → k < 8 →
    crcAccepts (f.set i (b ^^^ (1 <<< k))) = false

/-- R235 (derived there): a closed prefix passes the check, and a closed reply for register `r` decodes to the payload
and fields it carries, unless a reserved-check bit is set. -/
def Obligations.ClosedFramesRoundTrip : Prop :=
  (∀ q : List Byte, crcAccepts (q ++ [crc8 q]) = true) ∧
  (∀ (r : Reg) (p0 p1 p2 p3 : Byte) (f : FieldRecord), unpack r (payloadOf p0 p1 p2 p3) = .ok f →
    decReply ([0x05, 0xFF, r.addr, p0, p1, p2, p3] ++ [crc8 [0x05, 0xFF, r.addr, p0, p1, p2, p3]]) r =
      .ok (payloadOf p0 p1 p2 p3, f))

/-! ### The datagram codec -/

/-- R200: ENC_RD, for every A and every R. -/
def Obligations.EncRdCommandBuildsTheReadRequest : Prop :=
  (∀ a r n : Byte, decodeCommand (commandWord 0x10 a r n) = .ok (.encRd a r)) ∧
  (∀ (a r : Byte) (s : State), s.isIdle s.cur = true → a ≤ 3 →
    ∃ t, exec (.encRd a r) s = .next t ∧
      (∀ k, k < 4 → (t.port s.cur).dout.read k = [0x05, a, r, crc8 [0x05, a, r]][k]?) ∧
      (t.port s.cur).doutLen = some 4 ∧ (t.port s.cur).status = some .ok ∧ (t.port s.cur).seq = .idle) ∧
  (∀ (a r : Byte) (s : State), s.isIdle s.cur = true → a > 3 →
    ∃ t, exec (.encRd a r) s = .next t ∧ (t.port s.cur).dout = (s.port s.cur).dout ∧
      (t.port s.cur).doutLen = (s.port s.cur).doutLen ∧ (t.port s.cur).status = some .invalidDriverAddress ∧
      (t.port s.cur).seq = .idle) ∧
  crc8 [0x05, 0x01, 0x00] = 0xFE

/-- R203: ENC_WR, for every A, R and payload; the encoder adds no offset to R. The byte order of the payload is
PAYLOAD_ORDER (R71, log entry 13): `bytesOf`. -/
def Obligations.EncWrCommandBuildsTheWriteRequest : Prop :=
  (∀ a r n : Byte, decodeCommand (commandWord 0x11 a r n) = .ok (.encWr a r)) ∧
  (∀ (a r : Byte) (s : State), s.isIdle s.cur = true → a ≤ 3 →
    ∃ t v, exec (.encWr a r) s = .next t ∧ (s.port s.cur).PayloadReads v ∧
      (∀ k, k < 8 → (t.port s.cur).dout.read k =
        ([0x05, a, r] ++ bytesOf v ++ [crc8 ([0x05, a, r] ++ bytesOf v)])[k]?) ∧
      (t.port s.cur).doutLen = some 8 ∧ (t.port s.cur).status = some .ok ∧ (t.port s.cur).seq = .idle) ∧
  (∀ (a r : Byte) (s : State), s.isIdle s.cur = true → a > 3 →
    ∃ t, exec (.encWr a r) s = .next t ∧ (t.port s.cur).dout = (s.port s.cur).dout ∧
      (t.port s.cur).doutLen = (s.port s.cur).doutLen ∧ (t.port s.cur).status = some .invalidDriverAddress ∧
      (t.port s.cur).seq = .idle) ∧
  [0x05, 0x00, 0x80] ++ bytesOf 0x00000141 ++ [crc8 ([0x05, 0x00, 0x80] ++ bytesOf 0x00000141)] =
    [0x05, 0x00, 0x80, 0x00, 0x00, 0x01, 0x41, 0x78]

/-- R201: the driver-address check is the same in both encoders. -/
def Obligations.BothEncodersCheckTheDriverAddress : Prop :=
  ∀ (a r : Byte) (v : Word),
    (a ∈ ([0, 1, 2, 3] : List Byte) → (∃ f, encRead a r = .ok f) ∧ (∃ f, encWrite a r v = .ok f)) ∧
    (a ∉ ([0, 1, 2, 3] : List Byte) →
      encRead a r = .error .invalidDriverAddress ∧ encWrite a r v = .error .invalidDriverAddress)

/-- R207: the checks of the reply decoder in their fixed order, for every byte sequence. -/
def Obligations.ReplyDecoderReportsTheFirstFailedCheck : Prop :=
  ∀ (b : List Byte) (r : Reg),
    decReply b r =
      if b.length ≠ 8 then .error .datagramLength
      else if crc8 (b.take 7) ≠ b.getD 7 0 then .error .crcMismatch
      else if b.getD 0 0 ≠ 0x05 then .error .invalidSyncByte
      else if b.getD 1 0 ≠ 0xFF then .error .invalidMasterAddress
      else if b.getD 2 0 ≠ r.addr then .error .registerAddressMismatch
      else
        match unpack r (payloadOf (b.getD 3 0) (b.getD 4 0) (b.getD 5 0) (b.getD 6 0)) with
        | .error _ => .error .unpackingError
        | .ok f => .ok (payloadOf (b.getD 3 0) (b.getD 4 0) (b.getD 5 0) (b.getD 6 0), f)

/-- R208 (derived there): a change of one byte under the old CRC is reported as CrcMismatch. -/
def Obligations.ChangedByteUnderTheOldCrcIsCrcMismatch : Prop :=
  ∀ (b : List Byte) (r r' : Reg) (v : Word) (f : FieldRecord) (i : Nat) (x : Byte),
    decReply b r = .ok (v, f) → i < 7 → b[i]? ≠ some x → decReply (b.set i x) r' = .error .crcMismatch

/-- R209, R210: DEC_REPLY writes RESULT32 and RFIELDS only when every check passed. -/
def Obligations.DecReplyCommandTrustsOnlyCheckedReplies : Prop :=
  ∀ (r : Reg) (n : Byte) (s : State), s.isIdle s.cur = true →
    ∃ t bs, exec (.decReply r n) s = .next t ∧ bs.length = n.toNat ∧ (s.port s.cur).DinReads bs ∧
      (t.port s.cur).seq = .idle ∧
      match decReply bs r with
      | .ok (v, f) => (t.port s.cur).result32 = some v ∧ (t.port s.cur).rfields = some f ∧
          (t.port s.cur).status = some .ok
      | .error e => (t.port s.cur).result32 = (s.port s.cur).result32 ∧
          (t.port s.cur).rfields = (s.port s.cur).rfields ∧ (t.port s.cur).status = some e

/-! ### The register catalog -/

/-- R142 (derived there): packing what was unpacked keeps exactly the field bits. LAYOUT is log entry 14. -/
def Obligations.PackOfUnpackKeepsTheFieldBits : Prop :=
  ∀ (r : Reg) (v : Word) (f : FieldRecord), unpack r v = .ok f → pack r f = v &&& fieldMask r

/-- R142 (derived there): unpacking what was packed gives the record back. LAYOUT is log entry 14. -/
def Obligations.UnpackOfPackIsTheRecord : Prop :=
  ∀ (r : Reg) (f : FieldRecord), f.fits r = true → unpack r (pack r f) = .ok f

/-- R143 (bits from general knowledge, log entry 15): only IOIN is checked, on bits 1 and 5. -/
def Obligations.OnlyIoinHasCheckedReservedBits : Prop :=
  ∀ (r : Reg) (v : Word),
    unpack r v = .error .unpackingError ↔ r = .ioin ∧ (v.getLsbD 1 = true ∨ v.getLsbD 5 = true)

/-- R144 (derived there; LAYOUT is log entry 14): the table of field masks. -/
def Obligations.FieldMasksAreTheTable : Prop :=
  Reg.catalog.map fieldMask =
    [0x000003FF, 0x00000007, 0x000000FF, 0x00000F00, 0xFF0003DD, 0x000F1F1F, 0x000000FF, 0x000FFFFF, 0x000FFFFF,
      0x000FFFFF, 0x00FFFFFF, 0xFF0387FF, 0xFF3FFFFF]

/-- R152, R160, R299 (positions from general knowledge, log entry 14): IFCNT's count is the low byte; VACTUAL is the low
24 bits in two's complement. -/
def Obligations.CountAndVelocityFieldsReadAsStated : Prop :=
  ∀ v : Word,
    (fieldsOf .ifcnt v).get? .cnt = some (v.toNat % 256) ∧
    (ifcntOf v).toNat = v.toNat % 256 ∧
    (fieldsOf .vactual v).getSigned? .vactual =
      some (if v.toNat % 2 ^ 24 < 2 ^ 23 then ((v.toNat % 2 ^ 24 : Nat) : Int) else ((v.toNat % 2 ^ 24 : Nat) : Int) - 2 ^ 24)

/-- R141: UNPACK. RESULT32 is not written (log entry 26). -/
def Obligations.UnpackCommandWritesTheRecord : Prop :=
  ∀ (r : Reg) (s : State), s.isIdle s.cur = true →
    ∃ t v, exec (.unpack r) s = .next t ∧ (s.port s.cur).PayloadReads v ∧ (t.port s.cur).seq = .idle ∧
      (t.port s.cur).result32 = (s.port s.cur).result32 ∧
      match unpack r v with
      | .ok f => (t.port s.cur).rfields = some f ∧ (t.port s.cur).status = some .ok
      | .error _ => (t.port s.cur).rfields = (s.port s.cur).rfields ∧
          (t.port s.cur).status = some .unpackingError

/-- R142: PACK, always OK. -/
def Obligations.PackCommandWritesThePayload : Prop :=
  ∀ (r : Reg) (s : State), s.isIdle s.cur = true →
    ∃ t f, exec (.pack r) s = .next t ∧ (s.port s.cur).FieldsRead r f ∧
      (t.port s.cur).result32 = some (pack r f) ∧ (t.port s.cur).status = some .ok ∧ (t.port s.cur).seq = .idle

/-- R81: the write address of every catalog register; it never wraps, and is no catalog read address (R140). -/
def Obligations.WriteAddressIsReadAddressPlusOffset : Prop :=
  ∀ r : Reg, r.addr < 0x80 ∧ r.writeAddr = r.addr + 0x80 ∧ r.writeAddr = r.addr ||| 0x80 ∧
    r.writeAddr.toNat = r.addr.toNat + 0x80 ∧ Reg.ofByte? r.addr = some r ∧ Reg.ofByte? r.writeAddr = none

/-- R71 (the order is decision D4, log entry 13): big-endian, and the two functions are inverse. -/
def Obligations.PayloadBytesAreBigEndian : Prop :=
  (∀ p0 p1 p2 p3 : Byte, payloadOf p0 p1 p2 p3 = p0 ++ p1 ++ p2 ++ p3 ∧ bytesOf (payloadOf p0 p1 p2 p3) = [p0, p1, p2, p3]) ∧
  (∀ v : Word, ∃ p0 p1 p2 p3, bytesOf v = [p0, p1, p2, p3] ∧ payloadOf p0 p1 p2 p3 = v)

/-! ### The bus commands' issue steps -/

/-- R251, R256: EXCHANGE latches its bytes and asks for the bus; no lock is taken yet. -/
def Obligations.ExchangeIssueAsksForTheBus : Prop :=
  ∀ (a n : Byte) (s : State), s.isIdle s.cur = true →
    ∃ t bs, exec (.exchange a n) s = .next t ∧ bs.length = n.toNat ∧ (s.port s.cur).DinReads bs ∧
      (t.port s.cur).txb = some bs ∧ (t.port s.cur).rxlen = some a ∧ (t.port s.cur).seq = .waitLock .raw ∧
      (t.port s.cur).status = (s.port s.cur).status

/-- R290, R292, R145: READ_REG and every RD_X. -/
def Obligations.ReadIssueAsksForTheBus : Prop :=
  ∀ (r : Reg) (i : Instr) (s : State), i = .readReg r ∨ i = Instr.readForm r → s.isIdle s.cur = true →
    ((s.port s.cur).cfgAddr ≤ 3 →
      ∃ t, exec i s = .next t ∧
        (t.port s.cur).txb = some [0x05, (s.port s.cur).cfgAddr, r.addr, crc8 [0x05, (s.port s.cur).cfgAddr, r.addr]] ∧
        (t.port s.cur).rxlen = some 12 ∧ (t.port s.cur).seq = .waitLock .rd ∧
        (t.port s.cur).status = (s.port s.cur).status) ∧
    ((s.port s.cur).cfgAddr > 3 →
      ∃ t, exec i s = .next t ∧ (t.port s.cur).status = some .invalidDriverAddress ∧ (t.port s.cur).seq = .idle ∧
        (t.port s.cur).txb = (s.port s.cur).txb ∧ (t.port s.cur).rxlen = (s.port s.cur).rxlen)

/-- R296, R292, R145: WRITE_REG and every WR_X. -/
def Obligations.WriteIssueReadsTheCounterFirst : Prop :=
  ∀ (r : Reg) (i : Instr) (s : State), i = .writeReg r ∨ i = Instr.writeForm r → s.isIdle s.cur = true →
    ∃ t f, exec i s = .next t ∧ (s.port s.cur).FieldsRead r f ∧
      (t.port s.cur).wreg = some r.addr ∧ (t.port s.cur).wpay = some (pack r f) ∧
      ((s.port s.cur).cfgAddr ≤ 3 →
        (t.port s.cur).txb = some [0x05, (s.port s.cur).cfgAddr, 0x02, crc8 [0x05, (s.port s.cur).cfgAddr, 0x02]] ∧
        (t.port s.cur).rxlen = some 12 ∧ (t.port s.cur).seq = .waitLock .wb ∧
        (t.port s.cur).status = (s.port s.cur).status) ∧
      ((s.port s.cur).cfgAddr > 3 →
        (t.port s.cur).status = some .invalidDriverAddress ∧ (t.port s.cur).seq = .idle ∧
        (t.port s.cur).txb = (s.port s.cur).txb ∧ (t.port s.cur).rxlen = (s.port s.cur).rxlen)

/-- R302: VERIFY, for every before and after. -/
def Obligations.VerifyCommandComparesTheCounts : Prop :=
  (∀ a r n : Byte, decodeCommand (commandWord 0x42 a r n) = .ok (.verify a n)) ∧
  (∀ (a n : Byte) (s : State), s.isIdle s.cur = true →
    ∃ t, exec (.verify a n) s = .next t ∧ (t.port s.cur).before = some a ∧ (t.port s.cur).after = some n ∧
      (t.port s.cur).status =
        some (if n.toNat > a.toNat ∨ (a = 255 ∧ n = 0) then .ok else .writeVerificationFailed) ∧
      (t.port s.cur).seq = .idle)

/-! ### The bus -/

/-- R252: GRANT, for any waiter while the lock is free, and for no other port; nothing else changes. A step whose next
move is a GRANT is that GRANT; in the environment's own turn with no exchange in flight, one of the waiters is granted, and
nothing moves where none waits (the turns are the model's, log entries 1, 2 and 19). -/
def Obligations.GrantTakesTheFreeLockForAnyWaiter : Prop :=
  (∀ (s : State) (p : PortId) (ph : Phase), s.Inv → s.lockOwner = none → (s.port p).seq = .waitLock ph →
    ∃ t tx n, grant p s = .next t ∧ (s.port p).txb = some tx ∧ (s.port p).rxlen = some n ∧
      t.lockOwner = some p ∧ t.xfer = some ⟨p, tx, n⟩ ∧ t.port p = { s.port p with seq := .xchg ph } ∧
      (∀ q, q ≠ p → t.port q = s.port q) ∧ t.line = s.line ∧ t.inputs = s.inputs ∧ t.nports = s.nports ∧
      t.cur = s.cur ∧ t.fresh = s.fresh ∧ t.readout = s.readout) ∧
  (∀ (s t : State) (p : PortId), grant p s = .next t → s.lockOwner = none ∧ ∃ ph, (s.port p).seq = .waitLock ph) ∧
  (∀ (s : State) (p : PortId) (rest : List Input), s.inputs = .grant p :: rest →
    step s = grant p { s with inputs := rest }) ∧
  (∀ s : State, s.environmentMoves → s.wanted = none → s.waiters ≠ [] →
    ∃ p ph, s.environmentPort = some p ∧ (s.port p).seq = .waitLock ph ∧ step s = grant p s.draw) ∧
  (∀ s : State, s.environmentMoves → s.wanted = none → s.waiters = [] → step s = .next s)

/-- R254, R257, R259, R260: in every good state with an exchange in flight, the transport may answer any bytes of the
expected length, Timeout or IoError; it has no answer of another length, which is a stuck state (log entry 9). -/
def Obligations.TransportMayGiveAnyAnswer : Prop :=
  ∀ (s : State) (p : PortId) (n : Byte), s.Inv → s.lockOwner = some p → (s.port p).rxlen = some n →
    (∀ rx : List Byte, rx.length = n.toNat → ∃ t, answer (.bytes rx) s = .next t) ∧
    (∀ rx : List Byte, rx.length ≠ n.toNat → answer (.bytes rx) s = .fault .noSuchMove) ∧
    (∃ t, answer .timeout s = .next t) ∧ (∃ t, answer .ioError s = .next t)

/-- R254, R255, R266, R267: an answer goes to the owner of the lock, releases the lock and changes no other port; bytes have
the length RXLEN; the owner is back in IDLE with its outcome, or, only in the WB phase, waits for the WM exchange. In the
owner's port the latches that its phase's rule does not write stay (R256, R291, R297, R298). A step whose next move is an
ANSWER is that ANSWER, and so is the environment's own turn with an exchange in flight (log entries 1, 2 and 19). The held
bytes are the model's (log entry 12). -/
def Obligations.AnswerReleasesTheLockAndReachesTheOwner : Prop :=
  (∀ (a : Answer) (s t : State), answer a s = .next t →
    ∃ p ph, s.lockOwner = some p ∧ (s.port p).seq = .xchg ph ∧ t.lockOwner = none ∧ t.xfer = none ∧
      (∀ q, q ≠ p → t.port q = s.port q) ∧ (s.port p).SameOperands (t.port p) ∧
      t.nports = s.nports ∧ t.inputs = s.inputs ∧ t.cur = s.cur ∧ t.fresh = s.fresh ∧ t.readout = s.readout ∧
      (∀ rx, a = .bytes rx →
        (∃ n, (s.port p).rxlen = some n ∧ rx.length = n.toNat) ∧ t.line = s.line.drop rx.length) ∧
      (a = .timeout ∨ a = .ioError → t.line = []) ∧
      (((t.port p).seq = .idle ∧ (t.port p).status.isSome = true) ∨
        (ph = .wb ∧ (t.port p).seq = .waitLock .wm ∧ (t.port p).status = (s.port p).status)) ∧
      (t.port p).wreg = (s.port p).wreg ∧ (t.port p).wpay = (s.port p).wpay ∧
      (ph ≠ .raw → (t.port p).dout = (s.port p).dout ∧ (t.port p).doutLen = (s.port p).doutLen) ∧
      (ph ≠ .rd → (t.port p).result32 = (s.port p).result32 ∧ (t.port p).rfields = (s.port p).rfields) ∧
      (ph ≠ .wb → (t.port p).before = (s.port p).before ∧ (t.port p).txb = (s.port p).txb ∧
        (t.port p).rxlen = (s.port p).rxlen) ∧
      (ph ≠ .wm → (t.port p).after = (s.port p).after)) ∧
  (∀ (s : State) (a : Answer) (rest : List Input), s.inputs = .answer a :: rest →
    step s = answer a { s with inputs := rest }) ∧
  (∀ (s : State) (n : Nat), s.environmentMoves → s.wanted = some n → step s = answer (freeAnswer s.fresh n) s.draw)

/-- R259, R260, R330: Timeout and IoError in every phase: the outcome is raised, nothing received is kept, no other
latch changes. -/
def Obligations.TimeoutAndIoErrorKeepNothing : Prop :=
  ∀ (s : State) (p : PortId) (ph : Phase) (a : Answer) (e : Status),
    s.lockOwner = some p → (s.port p).seq = .xchg ph → (a = .timeout ∧ e = .timeout) ∨ (a = .ioError ∧ e = .ioError) →
    ∃ t, answer a s = .next t ∧ t.port p = { s.port p with status := some e, seq := .idle } ∧
      t.lockOwner = none ∧ t.xfer = none ∧ t.line = [] ∧ (∀ q, q ≠ p → t.port q = s.port q)

/-- R256: EXCHANGE answered with bytes gives them unchecked, and writes DOUT, DOUT_LEN, STATUS and SEQ of its port only.
Bytes of DOUT beyond the new DOUT_LEN stay (log entry 22). -/
def Obligations.ExchangeReturnsTheReceivedBytes : Prop :=
  ∀ (s : State) (p : PortId) (n : Byte) (rx : List Byte), s.lockOwner = some p → (s.port p).seq = .xchg .raw →
    (s.port p).rxlen = some n → rx.length = n.toNat →
    ∃ t d, answer (.bytes rx) s = .next t ∧
      t.port p = { s.port p with dout := d, doutLen := some rx.length, status := some .ok, seq := .idle } ∧
      (∀ k, k < rx.length → (t.port p).dout.read k = rx[k]?) ∧
      (∀ k, rx.length ≤ k → (t.port p).dout.read k = (s.port p).dout.read k)

/-- R291: READ_REG's continuation, for every outcome of its exchange, with the whole port after it. -/
def Obligations.ReadAnswerDecodesTheTrailingBytes : Prop :=
  (∀ (s : State) (p : PortId) (a : Answer) (e : Status), s.lockOwner = some p → (s.port p).seq = .xchg .rd →
    (a = .timeout ∧ e = .timeout) ∨ (a = .ioError ∧ e = .ioError) →
    ∃ t, answer a s = .next t ∧ t.port p = { s.port p with status := some e, seq := .idle }) ∧
  (∀ (s : State) (p : PortId) (r : Reg) (echo reply : List Byte), s.lockOwner = some p →
    (s.port p).seq = .xchg .rd → (s.port p).rxlen = some 12 → (s.port p).cmdReg = some r →
    echo.length = 4 → reply.length = 8 →
    ∃ t, answer (.bytes (echo ++ reply)) s = .next t ∧ t.lockOwner = none ∧
      match decReply reply r with
      | .ok (v, f) =>
        t.port p = { s.port p with result32 := some v, rfields := some f, status := some .ok, seq := .idle }
      | .error e => t.port p = { s.port p with status := some e, seq := .idle })

/-- R297: WRITE_REG's WB continuation, for every outcome of its exchange, with the whole port after it. -/
def Obligations.WriteIsSentOnlyAfterTheCounterWasRead : Prop :=
  (∀ (s : State) (p : PortId) (a : Answer) (e : Status), s.lockOwner = some p → (s.port p).seq = .xchg .wb →
    (a = .timeout ∧ e = .timeout) ∨ (a = .ioError ∧ e = .ioError) →
    ∃ t, answer a s = .next t ∧ t.port p = { s.port p with status := some e, seq := .idle }) ∧
  (∀ (s : State) (p : PortId) (w : Byte) (pay : Word) (echo reply : List Byte), s.lockOwner = some p →
    (s.port p).seq = .xchg .wb → (s.port p).rxlen = some 12 → (s.port p).cfgAddr ≤ 3 →
    (s.port p).wreg = some w → (s.port p).wpay = some pay → echo.length = 4 → reply.length = 8 →
    ∃ t, answer (.bytes (echo ++ reply)) s = .next t ∧
      match decReply reply .ifcnt with
      | .ok (v, _) =>
        t.port p =
          { s.port p with
            before := some (v.extractLsb' 0 8), rxlen := some 20, seq := .waitLock .wm
            txb := some
              ([0x05, (s.port p).cfgAddr, w + 0x80] ++ bytesOf pay ++
                [crc8 ([0x05, (s.port p).cfgAddr, w + 0x80] ++ bytesOf pay)] ++
                [0x05, (s.port p).cfgAddr, 0x02, crc8 [0x05, (s.port p).cfgAddr, 0x02]]) }
      | .error e => t.port p = { s.port p with status := some e, seq := .idle })

/-- R298: WRITE_REG's WM continuation, for every outcome of its exchange, with the whole port after it. -/
def Obligations.WriteAnswerComparesTheCounts : Prop :=
  (∀ (s : State) (p : PortId) (a : Answer) (e : Status), s.lockOwner = some p → (s.port p).seq = .xchg .wm →
    (a = .timeout ∧ e = .timeout) ∨ (a = .ioError ∧ e = .ioError) →
    ∃ t, answer a s = .next t ∧ t.port p = { s.port p with status := some e, seq := .idle }) ∧
  (∀ (s : State) (p : PortId) (b : Byte) (echo reply : List Byte), s.lockOwner = some p →
    (s.port p).seq = .xchg .wm → (s.port p).rxlen = some 20 → (s.port p).before = some b →
    echo.length = 12 → reply.length = 8 →
    ∃ t, answer (.bytes (echo ++ reply)) s = .next t ∧
      match decReply reply .ifcnt with
      | .ok (v, _) =>
        t.port p =
          { s.port p with
            after := some (v.extractLsb' 0 8), seq := .idle
            status := some
              (if b.toNat < (v.extractLsb' 0 8).toNat ∨ (b = 255 ∧ v.extractLsb' 0 8 = 0) then .ok
               else .writeVerificationFailed) }
      | .error e => t.port p = { s.port p with status := some e, seq := .idle })

/-! ### The wire frames -/

/-- R100 to R102, R254, R257 (log entries 11 and 12): a frame that does not complete an exchange is held on the line, and
nothing else changes; a frame, of any of the three forms, that completes the exchange in flight, of any phase, ends it: the
owner's command continues with the first RXLEN bytes held, and the rest stay held. -/
def Obligations.FramesArriveOnTheLine : Prop :=
  ∀ s : State,
    (∀ (a : BitVec 2) (r : BitVec 7) (c : Byte), (∀ n, s.wanted = some n → s.line.length + 4 < n) →
      exec (.frameReadRequest a r c) s =
        .next { s with line := s.line ++ [0x05, a.setWidth 8, r.setWidth 8, c] }) ∧
    (∀ (a : BitVec 2) (r : BitVec 7) (p0 p1 p2 p3 c : Byte), (∀ n, s.wanted = some n → s.line.length + 8 < n) →
      exec (.frameWriteRequest a r p0 p1 p2 p3 c) s =
        .next { s with line := s.line ++ [0x05, a.setWidth 8, 0x80 ||| r.setWidth 8, p0, p1, p2, p3, c] }) ∧
    (∀ (r : BitVec 7) (p0 p1 p2 p3 c : Byte), (∀ n, s.wanted = some n → s.line.length + 8 < n) →
      exec (.frameReply r p0 p1 p2 p3 c) s =
        .next { s with line := s.line ++ [0x05, 0xFF, r.setWidth 8, p0, p1, p2, p3, c] }) ∧
    (∀ (i : Instr) (bs : List Byte) (p : PortId) (ph : Phase) (n : Byte),
      (∃ (a : BitVec 2) (r : BitVec 7) (c : Byte),
        i = .frameReadRequest a r c ∧ bs = [0x05, a.setWidth 8, r.setWidth 8, c]) ∨
      (∃ (a : BitVec 2) (r : BitVec 7) (p0 p1 p2 p3 c : Byte),
        i = .frameWriteRequest a r p0 p1 p2 p3 c ∧
          bs = [0x05, a.setWidth 8, 0x80 ||| r.setWidth 8, p0, p1, p2, p3, c]) ∨
      (∃ (r : BitVec 7) (p0 p1 p2 p3 c : Byte),
        i = .frameReply r p0 p1 p2 p3 c ∧ bs = [0x05, 0xFF, r.setWidth 8, p0, p1, p2, p3, c]) →
      s.Inv → s.lockOwner = some p → (s.port p).seq = .xchg ph → (s.port p).rxlen = some n →
      n.toNat ≤ s.line.length + bs.length →
      ∃ t, exec i s = .next t ∧ t.lockOwner = none ∧ t.xfer = none ∧ t.line = (s.line ++ bs).drop n.toNat ∧
        (∀ q, q ≠ p → t.port q = s.port q) ∧
        continueCommand ph (.bytes ((s.line ++ bs).take n.toNat)) (s.port p) = .ok (t.port p))

/-- R102, R207, R254, R256, R291, R297, R298 (log entries 11 and 12): a reply frame that completes the bytes of a READ_REG,
of one of the two IFCNT reads of a WRITE_REG, or of an EXCHANGE ends that exchange; but for EXCHANGE, the decoder checks the
frame. The whole port is given; bytes of DOUT beyond the new DOUT_LEN stay (log entry 22). A frame that brings more bytes
than the exchange still lacks is in FramesArriveOnTheLine. -/
def Obligations.ReplyFrameEndsTheRead : Prop :=
  ∀ (s : State) (p : PortId) (r : BitVec 7) (p0 p1 p2 p3 c : Byte), s.lockOwner = some p →
    (∀ x : Reg, (s.port p).seq = .xchg .rd → (s.port p).rxlen = some 12 → (s.port p).cmdReg = some x →
      s.line.length = 4 →
      ∃ t, exec (.frameReply r p0 p1 p2 p3 c) s = .next t ∧ t.lockOwner = none ∧ t.line = [] ∧
        (∀ q, q ≠ p → t.port q = s.port q) ∧
        match decReply [0x05, 0xFF, r.setWidth 8, p0, p1, p2, p3, c] x with
        | .ok (v, f) =>
          t.port p = { s.port p with result32 := some v, rfields := some f, status := some .ok, seq := .idle }
        | .error e => t.port p = { s.port p with status := some e, seq := .idle }) ∧
    (∀ (w : Byte) (pay : Word), (s.port p).seq = .xchg .wb → (s.port p).rxlen = some 12 → (s.port p).cfgAddr ≤ 3 →
      (s.port p).wreg = some w → (s.port p).wpay = some pay → s.line.length = 4 →
      ∃ t, exec (.frameReply r p0 p1 p2 p3 c) s = .next t ∧ t.lockOwner = none ∧ t.line = [] ∧
        (∀ q, q ≠ p → t.port q = s.port q) ∧
        match decReply [0x05, 0xFF, r.setWidth 8, p0, p1, p2, p3, c] .ifcnt with
        | .ok (v, _) =>
          t.port p =
            { s.port p with
              before := some (v.extractLsb' 0 8), rxlen := some 20, seq := .waitLock .wm
              txb := some
                ([0x05, (s.port p).cfgAddr, w + 0x80] ++ bytesOf pay ++
                  [crc8 ([0x05, (s.port p).cfgAddr, w + 0x80] ++ bytesOf pay)] ++
                  [0x05, (s.port p).cfgAddr, 0x02, crc8 [0x05, (s.port p).cfgAddr, 0x02]]) }
        | .error e => t.port p = { s.port p with status := some e, seq := .idle }) ∧
    (∀ b : Byte, (s.port p).seq = .xchg .wm → (s.port p).rxlen = some 20 → (s.port p).before = some b →
      s.line.length = 12 →
      ∃ t, exec (.frameReply r p0 p1 p2 p3 c) s = .next t ∧ t.lockOwner = none ∧ t.line = [] ∧
        (∀ q, q ≠ p → t.port q = s.port q) ∧
        match decReply [0x05, 0xFF, r.setWidth 8, p0, p1, p2, p3, c] .ifcnt with
        | .ok (v, _) =>
          t.port p =
            { s.port p with
              after := some (v.extractLsb' 0 8), seq := .idle
              status := some
                (if b.toNat < (v.extractLsb' 0 8).toNat ∨ (b = 255 ∧ v.extractLsb' 0 8 = 0) then .ok
                 else .writeVerificationFailed) }
        | .error e => t.port p = { s.port p with status := some e, seq := .idle }) ∧
    (∀ n : Byte, (s.port p).seq = .xchg .raw → (s.port p).rxlen = some n → s.line.length + 8 = n.toNat →
      ∃ t d, exec (.frameReply r p0 p1 p2 p3 c) s = .next t ∧ t.lockOwner = none ∧ t.line = [] ∧
        (∀ q, q ≠ p → t.port q = s.port q) ∧
        t.port p = { s.port p with dout := d, doutLen := some n.toNat, status := some .ok, seq := .idle } ∧
        (∀ k, k < n.toNat →
          (t.port p).dout.read k = (s.line ++ [0x05, 0xFF, r.setWidth 8, p0, p1, p2, p3, c])[k]?) ∧
        ∀ k, n.toNat ≤ k → (t.port p).dout.read k = (s.port p).dout.read k)

/-! ### Frames of the commands -/

/-- R266, R330, and the "writes" of R141, R142, R200, R203, R210, R230, R232, R256, R290, R296, R302: what a command leaves
unchanged, for every command. Bytes of DOUT are stored at 0 to DOUT_LEN-1. Two clauses are the model's: UNPACK leaves
RESULT32 (log entry 26, DEDUCED), and bytes of DOUT at or beyond a new DOUT_LEN stay (log entry 22, DEDUCED). -/
def Obligations.CommandsLeaveTheRestUnchanged : Prop :=
  ∀ (i : Instr) (s t : State), frameBytes i = [] → exec i s = .next t →
    s.OnlyPort s.cur t ∧ (s.port s.cur).SameOperands (t.port s.cur) ∧
    ((∀ n, i ≠ .crc8 n) → (∀ a r, i ≠ .encRd a r) → (∀ a r, i ≠ .encWr a r) →
      (t.port s.cur).doutLen = (s.port s.cur).doutLen ∧
      ∀ k, (t.port s.cur).dout.read k = (s.port s.cur).dout.read k) ∧
    (∀ k m, (t.port s.cur).doutLen = some m → m ≤ k → (t.port s.cur).dout.read k = (s.port s.cur).dout.read k) ∧
    ((∀ r n, i ≠ .decReply r n) → (∀ r, i ≠ .pack r) → (t.port s.cur).result32 = (s.port s.cur).result32) ∧
    ((∀ r n, i ≠ .decReply r n) → (∀ r, i ≠ .unpack r) → (t.port s.cur).rfields = (s.port s.cur).rfields) ∧
    ((∀ a n, i ≠ .verify a n) →
      (t.port s.cur).before = (s.port s.cur).before ∧ (t.port s.cur).after = (s.port s.cur).after) ∧
    ((∀ r, i.canonical ≠ Instr.writeForm r) →
      (t.port s.cur).wreg = (s.port s.cur).wreg ∧ (t.port s.cur).wpay = (s.port s.cur).wpay) ∧
    ((∀ a n, i ≠ .exchange a n) → (∀ r, i.canonical ≠ Instr.readForm r) → (∀ r, i.canonical ≠ Instr.writeForm r) →
      (t.port s.cur).txb = (s.port s.cur).txb ∧ (t.port s.cur).rxlen = (s.port s.cur).rxlen ∧
      (t.port s.cur).seq = .idle ∧ (t.port s.cur).status.isSome = true)

/-! ### Outcomes and the host -/

/-- R330: what raise writes, and that it writes nothing else; the port takes the next command. -/
def Obligations.RaiseWritesStatusAndSeqOnly : Prop :=
  ∀ (p : PortId) (e : Status) (s : State),
    (raise p e s).port p = { s.port p with status := some e, seq := .idle } ∧ s.OnlyPort p (raise p e s) ∧
      (raise p e s).isIdle p = true

/-- R331, R332 (numeric codes are decision D3): the codes, and the info recorded with each outcome, which the host recovers
from CMD, and from BEFORE and AFTER. That it is CFG_ADDR for READ_REG and WRITE_REG, and IFCNT's address for WRITE_REG's
replies, is read from R331, R297 and R298 (log entry 20, DEDUCED); the model stores no info apart. -/
def Obligations.OutcomeCodesAreTheTable : Prop :=
  [Status.ok, .invalidDriverAddress, .invalidSyncByte, .invalidMasterAddress, .crcMismatch, .registerAddressMismatch,
    .datagramLength, .packingError, .unpackingError, .ioError, .timeout, .writeVerificationFailed].map Status.code =
    [0x00, 0x01, 0x02, 0x03, 0x04, 0x05, 0x06, 0x07, 0x08, 0x09, 0x0A, 0x0B] ∧
  (∀ a b : Status, a.code = b.code → a = b) ∧
  (∀ (q : Port) (o a r n : Byte), q.cmd = some (commandWord o a r n) →
    (q.status = some .invalidDriverAddress →
      (o = 0x10 ∨ o = 0x11 → q.info = some (.address a)) ∧
      (o = 0x40 ∨ o = 0x41 → q.info = some (.address q.cfgAddr))) ∧
    (q.status ∈ ([some .invalidSyncByte, some .invalidMasterAddress, some .crcMismatch,
        some .registerAddressMismatch] : List (Option Status)) →
      (o = 0x12 ∨ o = 0x40 → q.info = some (.register r)) ∧ (o = 0x41 → q.info = some (.register 0x02))) ∧
    (q.status = some .crcMismatch → o = 0x02 → q.info = some (.length n)) ∧
    (q.status = some .datagramLength → o = 0x12 → q.info = some (.register r)) ∧
    (q.status = some .unpackingError → o = 0x20 ∨ o = 0x12 ∨ o = 0x40 → q.info = some (.register r)) ∧
    (∀ b c, q.status = some .writeVerificationFailed → q.before = some b → q.after = some c →
      q.info = some (.counts b c)) ∧
    (q.status ∈ ([some .ok, some .packingError, some .ioError, some .timeout] : List (Option Status)) → q.info = none))

/-- R142, R204, R331: no step writes PackingError. -/
def Obligations.PackingErrorIsNeverRaised : Prop :=
  ∀ (s t : State) (p : PortId), step s = .next t → (t.port p).status = some .packingError →
    (s.port p).status = some .packingError

/-- R338, R345: the host's read of each result latch on an IDLE port: the value, or a fault where it holds ⊥. -/
def Obligations.HostReadGivesTheLatchOrFaults : Prop :=
  ∀ (s : State) (p : PortId) (l : Latch) (rest : List Input), s.inputs = .read p l :: rest → s.hasPort p = true →
    s.isIdle p = true →
    match l with
    | .status => (∀ x, (s.port p).status = some x →
          step s = .next { s with inputs := rest, readout := some (.status x) }) ∧
        ((s.port p).status = none → step s = .fault (.unwrittenLatch .status))
    | .dout => (∀ n, (s.port p).doutLen = some n →
          step s = .next { s with inputs := rest, readout := some (.bytes ((s.port p).dout.firstBytes n)) }) ∧
        ((s.port p).doutLen = none → step s = .fault (.unwrittenLatch .dout))
    | .result32 => (∀ x, (s.port p).result32 = some x →
          step s = .next { s with inputs := rest, readout := some (.word x) }) ∧
        ((s.port p).result32 = none → step s = .fault (.unwrittenLatch .result32))
    | .rfields => (∀ x, (s.port p).rfields = some x →
          step s = .next { s with inputs := rest, readout := some (.record x) }) ∧
        ((s.port p).rfields = none → step s = .fault (.unwrittenLatch .rfields))
    | .before => (∀ x, (s.port p).before = some x →
          step s = .next { s with inputs := rest, readout := some (.byte x) }) ∧
        ((s.port p).before = none → step s = .fault (.unwrittenLatch .before))
    | .after => (∀ x, (s.port p).after = some x →
          step s = .next { s with inputs := rest, readout := some (.byte x) }) ∧
        ((s.port p).after = none → step s = .fault (.unwrittenLatch .after))

/-- R33 to R35, R345: the host's operand writes on an IDLE port; on a busy port the host has no such move (D31, log entry
9). That a write of DIN has a start index and keeps the bytes outside it is the model's choice (log entry 23, DESIGN
CHOICE). -/
def Obligations.HostWritesItsOperandsWhileIdle : Prop :=
  (∀ (s : State) (p : PortId) (off : Nat) (bs : List Byte) (rest : List Input),
    s.inputs = .writeDin p off bs :: rest → s.hasPort p = true →
    (s.isIdle p = true → off + bs.length ≤ 256 →
      ∃ t d, step s = .next t ∧ t.port p = { s.port p with din := d } ∧
        (∀ k, k < bs.length → (t.port p).din.read (off + k) = bs[k]?) ∧
        (∀ k, k < off ∨ off + bs.length ≤ k → (t.port p).din.read k = (s.port p).din.read k)) ∧
    (s.isIdle p = false → step s = .fault .noSuchMove)) ∧
  (∀ (s : State) (p : PortId) (v : Word) (rest : List Input),
    s.inputs = .writePayload p v :: rest → s.hasPort p = true →
    (s.isIdle p = true → ∃ t, step s = .next t ∧ t.port p = { s.port p with payload := some v }) ∧
    (s.isIdle p = false → step s = .fault .noSuchMove)) ∧
  (∀ (s : State) (p : PortId) (f : FieldRecord) (rest : List Input),
    s.inputs = .writeFields p f :: rest → s.hasPort p = true →
    (s.isIdle p = true → f.fits f.reg = true → ∃ t, step s = .next t ∧ t.port p = { s.port p with fields := some f }) ∧
    (s.isIdle p = true → f.fits f.reg = false → step s = .refused .malformedFields) ∧
    (s.isIdle p = false → step s = .fault .noSuchMove))

/-! ### The whole machine -/

/-- R370 with R52, for every number of ports and every construction argument. -/
def Obligations.ConstructionLeavesTheTableOfResetValues : Prop :=
  ∀ (n : Nat) (a0 a1 a2 a3 : Byte) (p : PortId),
    let s := State.construct n a0 a1 a2 a3
    (s.port p).seq = .idle ∧ s.lockOwner = none ∧ s.xfer = none ∧
    (s.port p).cfgAddr = [a0, a1, a2, a3].getD p.val 0 ∧
    (s.port p).cmd = none ∧ (∀ k, (s.port p).din.read k = none) ∧ (s.port p).payload = none ∧
    (s.port p).fields = none ∧ (s.port p).txb = none ∧ (s.port p).rxlen = none ∧ (s.port p).wreg = none ∧
    (s.port p).wpay = none ∧ (s.port p).status = none ∧ (s.port p).before = none ∧ (s.port p).after = none ∧
    (∀ k, (s.port p).dout.read k = none) ∧ (s.port p).doutLen = none ∧ (s.port p).result32 = none ∧
    (s.port p).rfields = none

/-- The invariant holds after construction with 1 to 4 ports (R370, R344). Construction with distinct addresses meets the
launch premises of R375 for the ports whose address is at most 3, whatever the addresses of the others (I21); `State.reset`
(four ports at addresses 0 to 3, log entry 6) meets them for all its ports. -/
def Obligations.ConstructionMeetsTheInvariant : Prop :=
  (∀ (n : Nat) (a0 a1 a2 a3 : Byte), 1 ≤ n → n ≤ 4 → (State.construct n a0 a1 a2 a3).Inv) ∧
  (∀ (n : Nat) (a0 a1 a2 a3 : Byte) (expected : List PortId),
    (∀ p q : PortId, p.val < n → q.val < n → p ≠ q → [a0, a1, a2, a3].getD p.val 0 ≠ [a0, a1, a2, a3].getD q.val 0) →
    (∀ p ∈ expected, p.val < n ∧ [a0, a1, a2, a3].getD p.val 0 ≤ 3) →
    (State.construct n a0 a1 a2 a3).Launch expected) ∧
  State.reset.Inv ∧ State.reset.Launch [0, 1, 2, 3]

/-- R35, R37, R43, R45: every step, of any agent and any instruction, keeps the invariant: among others, the lock is
held by exactly the port in XCHG. -/
def Obligations.EveryStepKeepsTheInvariant : Prop :=
  ∀ s t : State, s.Inv → step s = .next t → t.Inv

/-- R43: in every good state, and after every step from one, the lock is held by exactly the port in XCHG, so at most
one port is in XCHG. -/
def Obligations.LockIsHeldByTheOnePortInXchg : Prop :=
  ∀ (s t : State), s.Inv → t = s ∨ step s = .next t →
    (∀ p, t.lockOwner = some p ↔ ∃ ph, (t.port p).seq = .xchg ph) ∧
    (∀ p q ph ph', (t.port p).seq = .xchg ph → (t.port q).seq = .xchg ph' → p = q)

/-- Log entry 16: in a good state no step stops on an internal latch that holds ⊥. -/
def Obligations.InternalLatchesAreWrittenWhenRead : Prop :=
  ∀ s : State, s.Inv → step s ≠ .fault .internalLatchUnwritten

/-- R251, R252, R254, R255, R263, R264, with R36 and R345: the only ways a sequencer moves, whatever agent steps. An IDLE port
leaves IDLE by the issue of a command; a waiting port is not disturbed and leaves WAIT_LOCK by taking the free lock; a port
in XCHG leaves it by the step's answer, which fits its exchange and with which its command continues, giving its lock back in
that step and in no other. Whose step it is and which answer it brings (`State.movingPort`, `State.stepAnswer`) are coded by
the model: the environment's turn by log entries 2 (DESIGN CHOICE) and 19 (DEDUCED), bytes that complete an exchange by log
entry 12 (DEDUCED), and the list of moves by log entry 1 (DESIGN CHOICE). -/
def Obligations.SequencersMoveOnlyByIssueGrantAndAnswer : Prop :=
  ∀ (s t : State) (p : PortId), step s = .next t →
    match (s.port p).seq with
    | .idle => (t.port p).seq = .idle ∨
        ((∃ w rest, s.inputs = .issue p w :: rest) ∧
          ((t.port p).seq = .waitLock .raw ∨ (t.port p).seq = .waitLock .rd ∨ (t.port p).seq = .waitLock .wb))
    | .waitLock ph => t.port p = s.port p ∨
        (s.movingPort = some p ∧ s.lockOwner = none ∧ t.lockOwner = some p ∧
          t.port p = { s.port p with seq := .xchg ph })
    | .xchg ph => (t.port p = s.port p ∧ (s.lockOwner = some p → t.lockOwner = some p)) ∨
        (s.lockOwner = some p ∧ t.lockOwner = none ∧
          ((t.port p).seq = .idle ∨ (ph = .wb ∧ (t.port p).seq = .waitLock .wm)) ∧
          ∃ a, s.stepAnswer = some a ∧ answerFits a (s.port p) = true ∧
            continueCommand ph a (s.port p) = .ok (t.port p))

/-- R31, R341, R373: no step changes NPORTS or a CFG_ADDR. -/
def Obligations.ConfigurationNeverChanges : Prop :=
  ∀ s t : State, step s = .next t → t.nports = s.nports ∧ ∀ p, (t.port p).cfgAddr = (s.port p).cfgAddr

/-- R265, R266: one step changes the state of no port but the one whose move it is: the port of the host's or the
arbiter's move, the lock's owner for an ANSWER and for bytes on the line, and in the environment's own turn the owner of the
exchange in flight or the waiter it grants (log entries 1, 2 and 19). A host read and a wait change no port. -/
def Obligations.OneStepChangesOnePort : Prop :=
  ∀ s t : State, step s = .next t → ∀ q, s.movingPort ≠ some q → t.port q = s.port q

/-- R304 (derived there): no false success. A port that runs a WRITE_REG ends it with OK only in the WM phase, when the
trailing 8 bytes of the received bytes passed the decoder and gave AFTER, and the counts pass the comparison; and it enters
the WM phase only from WB, when the trailing 8 bytes of the received bytes passed the decoder and gave BEFORE. The received
bytes are those of the step's answer, as the model codes it (`State.stepAnswer`): a move's own (log entry 1, DESIGN CHOICE),
free bytes in the environment's turn (log entries 2, DESIGN CHOICE, and 19, DEDUCED), and the first RXLEN held bytes when
bytes arrive (log entry 12, DEDUCED). -/
def Obligations.WriteReportsNoFalseSuccess : Prop :=
  ∀ (s t : State) (p : PortId), step s = .next t → (s.port p).writing = true →
    ((t.port p).seq = .idle → (t.port p).status = some .ok →
      (s.port p).seq = .xchg .wm ∧
      ∃ rx b v f, s.stepAnswer = some (.bytes rx) ∧ decReply (replyOfWrite rx) .ifcnt = .ok (v, f) ∧
        (s.port p).before = some b ∧ (t.port p).before = some b ∧
        (t.port p).after = some (v.extractLsb' 0 8) ∧
        (b.toNat < (v.extractLsb' 0 8).toNat ∨ (b = 255 ∧ v.extractLsb' 0 8 = 0))) ∧
    ((t.port p).seq = .waitLock .wm → (s.port p).seq ≠ .waitLock .wm →
      (s.port p).seq = .xchg .wb ∧
      ∃ rx v f, s.stepAnswer = some (.bytes rx) ∧ decReply (replyOfRead rx) .ifcnt = .ok (v, f) ∧
        (t.port p).before = some (v.extractLsb' 0 8))

/-- R87, R252, R262 (the environment's turns are log entry 2): with a silent host, whatever the arbiter chooses and the
transport answers, every command in progress ends: after 16 steps every port is IDLE and the bus is free. -/
def Obligations.SilentMachineSettles : Prop :=
  ∀ s : State, s.Inv → s.inputs = [] → ∃ t, Sys2Proof.core.run 16 s = .next t ∧ t.Settled

/-- R131, R132 (syntax is decision D20): what the pseudo-instructions expand to decodes to the instruction they stand for,
and the record that `.fields` and WR_X write has each listed field's value, and 0 for a field that is not listed. That
statements are data with an expansion, which keeps the low bits of a value too wide for its field, a value no admitted list
has (log entry 27, DESIGN CHOICE), that of a field listed twice the first value counts (log entry 28, DESIGN CHOICE), and
that the issued READ_REG and WRITE_REG words decode to the per-register forms (log entry 10, DESIGN CHOICE), are the model's
choices. -/
def Obligations.PseudoInstructionsExpand : Prop :=
  ∀ (p : PortId) (x : Reg) (a : Byte) (given : List (FieldName × Nat)),
    (FieldRecord.make x given).fits x = true ∧
    (∀ f ∈ layout x,
      (∀ pre v post, given = pre ++ (f.name, v) :: post → (∀ g ∈ pre, g.1 ≠ f.name) →
        (FieldRecord.make x given).get? f.name = some (v % 2 ^ f.width)) ∧
      ((∀ g ∈ given, g.1 ≠ f.name) → (FieldRecord.make x given).get? f.name = some 0)) ∧
    Statement.expand p (.fields x given) = [.writeFields p (FieldRecord.make x given)] ∧
    Statement.expand p (.wrX x given) =
      [.writeFields p (FieldRecord.make x given), .issue p (encodeCommand (.writeReg x))] ∧
    decodeCommand (encodeCommand (.writeReg x)) = .ok (Instr.writeForm x) ∧
    Statement.expand p (.rdX x) = [.issue p (encodeCommand (.readReg x))] ∧
    decodeCommand (encodeCommand (.readReg x)) = .ok (Instr.readForm x) ∧
    Statement.expand p (.encWrx a x) = [.issue p (encodeCommand (.encWr a (x.addr + 0x80)))] ∧
    decodeCommand (encodeCommand (.encWr a (x.addr + 0x80))) = .ok (.encWr a (x.addr + 0x80))
end

