-- ==== Sys2Proof/Laws/State.lean ====
section
/-! SUPPORT. What each named operation does to each field of a port and of the state: one lemma per field per update,
true by rfl, so that no later proof unfolds a record update. -/

namespace Sys2Proof.Machine

/-! ### Ports of the bank -/

@[simp] theorem PortBank.get_set_self (b : PortBank) (p : PortId) (q : Port) : (b.set p q).get p = q := by
  fin_cases p <;> rfl

theorem PortBank.get_set_other (b : PortBank) (p p' : PortId) (q : Port) (h : p' ≠ p) :
    (b.set p q).get p' = b.get p' := by
  fin_cases p <;> fin_cases p' <;> first | rfl | exact absurd rfl h

theorem PortBank.set_get (b : PortBank) (p : PortId) : b.set p (b.get p) = b := by
  fin_cases p <;> rfl

theorem PortBank.set_set (b : PortBank) (p : PortId) (q q' : Port) : (b.set p q).set p q' = b.set p q' := by
  fin_cases p <;> rfl

@[simp] theorem State.port_updPort_self (s : State) (p : PortId) (f : Port → Port) :
    (s.updPort p f).port p = f (s.port p) := PortBank.get_set_self _ _ _

@[simp] theorem State.port_updPort_other (s : State) (p p' : PortId) (f : Port → Port) (h : p' ≠ p) :
    (s.updPort p f).port p' = s.port p' := PortBank.get_set_other _ _ _ _ h

theorem State.port_updPort (s : State) (p p' : PortId) (f : Port → Port) :
    (s.updPort p f).port p' = if p' = p then f (s.port p) else s.port p' := by
  split
  · subst p'; simp
  · simp [*]

/-! ### Fields of a port -/

@[simp] theorem Port.putDout_cfgAddr (bs : List Byte) (q : Port) : (q.putDout bs).cfgAddr = q.cfgAddr := rfl
@[simp] theorem Port.putDout_cmd (bs : List Byte) (q : Port) : (q.putDout bs).cmd = q.cmd := rfl
@[simp] theorem Port.putDout_din (bs : List Byte) (q : Port) : (q.putDout bs).din = q.din := rfl
@[simp] theorem Port.putDout_payload (bs : List Byte) (q : Port) : (q.putDout bs).payload = q.payload := rfl
@[simp] theorem Port.putDout_fields (bs : List Byte) (q : Port) : (q.putDout bs).fields = q.fields := rfl
@[simp] theorem Port.putDout_seq (bs : List Byte) (q : Port) : (q.putDout bs).seq = q.seq := rfl
@[simp] theorem Port.putDout_txb (bs : List Byte) (q : Port) : (q.putDout bs).txb = q.txb := rfl
@[simp] theorem Port.putDout_rxlen (bs : List Byte) (q : Port) : (q.putDout bs).rxlen = q.rxlen := rfl
@[simp] theorem Port.putDout_wreg (bs : List Byte) (q : Port) : (q.putDout bs).wreg = q.wreg := rfl
@[simp] theorem Port.putDout_wpay (bs : List Byte) (q : Port) : (q.putDout bs).wpay = q.wpay := rfl
@[simp] theorem Port.putDout_status (bs : List Byte) (q : Port) : (q.putDout bs).status = q.status := rfl
@[simp] theorem Port.putDout_before (bs : List Byte) (q : Port) : (q.putDout bs).before = q.before := rfl
@[simp] theorem Port.putDout_after (bs : List Byte) (q : Port) : (q.putDout bs).after = q.after := rfl
@[simp] theorem Port.putDout_dout (bs : List Byte) (q : Port) : (q.putDout bs).dout = q.dout.writeBytes 0 bs := rfl
@[simp] theorem Port.putDout_doutLen (bs : List Byte) (q : Port) : (q.putDout bs).doutLen = some bs.length := rfl
@[simp] theorem Port.putDout_result32 (bs : List Byte) (q : Port) : (q.putDout bs).result32 = q.result32 := rfl
@[simp] theorem Port.putDout_rfields (bs : List Byte) (q : Port) : (q.putDout bs).rfields = q.rfields := rfl

@[simp] theorem Port.putResult_cfgAddr (v : Word) (q : Port) : (q.putResult v).cfgAddr = q.cfgAddr := rfl
@[simp] theorem Port.putResult_cmd (v : Word) (q : Port) : (q.putResult v).cmd = q.cmd := rfl
@[simp] theorem Port.putResult_din (v : Word) (q : Port) : (q.putResult v).din = q.din := rfl
@[simp] theorem Port.putResult_payload (v : Word) (q : Port) : (q.putResult v).payload = q.payload := rfl
@[simp] theorem Port.putResult_fields (v : Word) (q : Port) : (q.putResult v).fields = q.fields := rfl
@[simp] theorem Port.putResult_seq (v : Word) (q : Port) : (q.putResult v).seq = q.seq := rfl
@[simp] theorem Port.putResult_txb (v : Word) (q : Port) : (q.putResult v).txb = q.txb := rfl
@[simp] theorem Port.putResult_rxlen (v : Word) (q : Port) : (q.putResult v).rxlen = q.rxlen := rfl
@[simp] theorem Port.putResult_wreg (v : Word) (q : Port) : (q.putResult v).wreg = q.wreg := rfl
@[simp] theorem Port.putResult_wpay (v : Word) (q : Port) : (q.putResult v).wpay = q.wpay := rfl
@[simp] theorem Port.putResult_status (v : Word) (q : Port) : (q.putResult v).status = q.status := rfl
@[simp] theorem Port.putResult_before (v : Word) (q : Port) : (q.putResult v).before = q.before := rfl
@[simp] theorem Port.putResult_after (v : Word) (q : Port) : (q.putResult v).after = q.after := rfl
@[simp] theorem Port.putResult_dout (v : Word) (q : Port) : (q.putResult v).dout = q.dout := rfl
@[simp] theorem Port.putResult_doutLen (v : Word) (q : Port) : (q.putResult v).doutLen = q.doutLen := rfl
@[simp] theorem Port.putResult_result32 (v : Word) (q : Port) : (q.putResult v).result32 = some v := rfl
@[simp] theorem Port.putResult_rfields (v : Word) (q : Port) : (q.putResult v).rfields = q.rfields := rfl

@[simp] theorem Port.putRfields_cfgAddr (f : FieldRecord) (q : Port) : (q.putRfields f).cfgAddr = q.cfgAddr := rfl
@[simp] theorem Port.putRfields_cmd (f : FieldRecord) (q : Port) : (q.putRfields f).cmd = q.cmd := rfl
@[simp] theorem Port.putRfields_din (f : FieldRecord) (q : Port) : (q.putRfields f).din = q.din := rfl
@[simp] theorem Port.putRfields_payload (f : FieldRecord) (q : Port) : (q.putRfields f).payload = q.payload := rfl
@[simp] theorem Port.putRfields_fields (f : FieldRecord) (q : Port) : (q.putRfields f).fields = q.fields := rfl
@[simp] theorem Port.putRfields_seq (f : FieldRecord) (q : Port) : (q.putRfields f).seq = q.seq := rfl
@[simp] theorem Port.putRfields_txb (f : FieldRecord) (q : Port) : (q.putRfields f).txb = q.txb := rfl
@[simp] theorem Port.putRfields_rxlen (f : FieldRecord) (q : Port) : (q.putRfields f).rxlen = q.rxlen := rfl
@[simp] theorem Port.putRfields_wreg (f : FieldRecord) (q : Port) : (q.putRfields f).wreg = q.wreg := rfl
@[simp] theorem Port.putRfields_wpay (f : FieldRecord) (q : Port) : (q.putRfields f).wpay = q.wpay := rfl
@[simp] theorem Port.putRfields_status (f : FieldRecord) (q : Port) : (q.putRfields f).status = q.status := rfl
@[simp] theorem Port.putRfields_before (f : FieldRecord) (q : Port) : (q.putRfields f).before = q.before := rfl
@[simp] theorem Port.putRfields_after (f : FieldRecord) (q : Port) : (q.putRfields f).after = q.after := rfl
@[simp] theorem Port.putRfields_dout (f : FieldRecord) (q : Port) : (q.putRfields f).dout = q.dout := rfl
@[simp] theorem Port.putRfields_doutLen (f : FieldRecord) (q : Port) : (q.putRfields f).doutLen = q.doutLen := rfl
@[simp] theorem Port.putRfields_result32 (f : FieldRecord) (q : Port) : (q.putRfields f).result32 = q.result32 := rfl
@[simp] theorem Port.putRfields_rfields (f : FieldRecord) (q : Port) : (q.putRfields f).rfields = some f := rfl

@[simp] theorem Port.putBefore_cfgAddr (b : Byte) (q : Port) : (q.putBefore b).cfgAddr = q.cfgAddr := rfl
@[simp] theorem Port.putBefore_cmd (b : Byte) (q : Port) : (q.putBefore b).cmd = q.cmd := rfl
@[simp] theorem Port.putBefore_din (b : Byte) (q : Port) : (q.putBefore b).din = q.din := rfl
@[simp] theorem Port.putBefore_payload (b : Byte) (q : Port) : (q.putBefore b).payload = q.payload := rfl
@[simp] theorem Port.putBefore_fields (b : Byte) (q : Port) : (q.putBefore b).fields = q.fields := rfl
@[simp] theorem Port.putBefore_seq (b : Byte) (q : Port) : (q.putBefore b).seq = q.seq := rfl
@[simp] theorem Port.putBefore_txb (b : Byte) (q : Port) : (q.putBefore b).txb = q.txb := rfl
@[simp] theorem Port.putBefore_rxlen (b : Byte) (q : Port) : (q.putBefore b).rxlen = q.rxlen := rfl
@[simp] theorem Port.putBefore_wreg (b : Byte) (q : Port) : (q.putBefore b).wreg = q.wreg := rfl
@[simp] theorem Port.putBefore_wpay (b : Byte) (q : Port) : (q.putBefore b).wpay = q.wpay := rfl
@[simp] theorem Port.putBefore_status (b : Byte) (q : Port) : (q.putBefore b).status = q.status := rfl
@[simp] theorem Port.putBefore_before (b : Byte) (q : Port) : (q.putBefore b).before = some b := rfl
@[simp] theorem Port.putBefore_after (b : Byte) (q : Port) : (q.putBefore b).after = q.after := rfl
@[simp] theorem Port.putBefore_dout (b : Byte) (q : Port) : (q.putBefore b).dout = q.dout := rfl
@[simp] theorem Port.putBefore_doutLen (b : Byte) (q : Port) : (q.putBefore b).doutLen = q.doutLen := rfl
@[simp] theorem Port.putBefore_result32 (b : Byte) (q : Port) : (q.putBefore b).result32 = q.result32 := rfl
@[simp] theorem Port.putBefore_rfields (b : Byte) (q : Port) : (q.putBefore b).rfields = q.rfields := rfl

@[simp] theorem Port.putAfter_cfgAddr (b : Byte) (q : Port) : (q.putAfter b).cfgAddr = q.cfgAddr := rfl
@[simp] theorem Port.putAfter_cmd (b : Byte) (q : Port) : (q.putAfter b).cmd = q.cmd := rfl
@[simp] theorem Port.putAfter_din (b : Byte) (q : Port) : (q.putAfter b).din = q.din := rfl
@[simp] theorem Port.putAfter_payload (b : Byte) (q : Port) : (q.putAfter b).payload = q.payload := rfl
@[simp] theorem Port.putAfter_fields (b : Byte) (q : Port) : (q.putAfter b).fields = q.fields := rfl
@[simp] theorem Port.putAfter_seq (b : Byte) (q : Port) : (q.putAfter b).seq = q.seq := rfl
@[simp] theorem Port.putAfter_txb (b : Byte) (q : Port) : (q.putAfter b).txb = q.txb := rfl
@[simp] theorem Port.putAfter_rxlen (b : Byte) (q : Port) : (q.putAfter b).rxlen = q.rxlen := rfl
@[simp] theorem Port.putAfter_wreg (b : Byte) (q : Port) : (q.putAfter b).wreg = q.wreg := rfl
@[simp] theorem Port.putAfter_wpay (b : Byte) (q : Port) : (q.putAfter b).wpay = q.wpay := rfl
@[simp] theorem Port.putAfter_status (b : Byte) (q : Port) : (q.putAfter b).status = q.status := rfl
@[simp] theorem Port.putAfter_before (b : Byte) (q : Port) : (q.putAfter b).before = q.before := rfl
@[simp] theorem Port.putAfter_after (b : Byte) (q : Port) : (q.putAfter b).after = some b := rfl
@[simp] theorem Port.putAfter_dout (b : Byte) (q : Port) : (q.putAfter b).dout = q.dout := rfl
@[simp] theorem Port.putAfter_doutLen (b : Byte) (q : Port) : (q.putAfter b).doutLen = q.doutLen := rfl
@[simp] theorem Port.putAfter_result32 (b : Byte) (q : Port) : (q.putAfter b).result32 = q.result32 := rfl
@[simp] theorem Port.putAfter_rfields (b : Byte) (q : Port) : (q.putAfter b).rfields = q.rfields := rfl

@[simp] theorem Port.finish_cfgAddr (st : Status) (q : Port) : (q.finish st).cfgAddr = q.cfgAddr := rfl
@[simp] theorem Port.finish_cmd (st : Status) (q : Port) : (q.finish st).cmd = q.cmd := rfl
@[simp] theorem Port.finish_din (st : Status) (q : Port) : (q.finish st).din = q.din := rfl
@[simp] theorem Port.finish_payload (st : Status) (q : Port) : (q.finish st).payload = q.payload := rfl
@[simp] theorem Port.finish_fields (st : Status) (q : Port) : (q.finish st).fields = q.fields := rfl
@[simp] theorem Port.finish_seq (st : Status) (q : Port) : (q.finish st).seq = .idle := rfl
@[simp] theorem Port.finish_txb (st : Status) (q : Port) : (q.finish st).txb = q.txb := rfl
@[simp] theorem Port.finish_rxlen (st : Status) (q : Port) : (q.finish st).rxlen = q.rxlen := rfl
@[simp] theorem Port.finish_wreg (st : Status) (q : Port) : (q.finish st).wreg = q.wreg := rfl
@[simp] theorem Port.finish_wpay (st : Status) (q : Port) : (q.finish st).wpay = q.wpay := rfl
@[simp] theorem Port.finish_status (st : Status) (q : Port) : (q.finish st).status = some st := rfl
@[simp] theorem Port.finish_before (st : Status) (q : Port) : (q.finish st).before = q.before := rfl
@[simp] theorem Port.finish_after (st : Status) (q : Port) : (q.finish st).after = q.after := rfl
@[simp] theorem Port.finish_dout (st : Status) (q : Port) : (q.finish st).dout = q.dout := rfl
@[simp] theorem Port.finish_doutLen (st : Status) (q : Port) : (q.finish st).doutLen = q.doutLen := rfl
@[simp] theorem Port.finish_result32 (st : Status) (q : Port) : (q.finish st).result32 = q.result32 := rfl
@[simp] theorem Port.finish_rfields (st : Status) (q : Port) : (q.finish st).rfields = q.rfields := rfl

@[simp] theorem Port.raise_cfgAddr (e : Status) (q : Port) : (q.raise e).cfgAddr = q.cfgAddr := rfl
@[simp] theorem Port.raise_cmd (e : Status) (q : Port) : (q.raise e).cmd = q.cmd := rfl
@[simp] theorem Port.raise_din (e : Status) (q : Port) : (q.raise e).din = q.din := rfl
@[simp] theorem Port.raise_payload (e : Status) (q : Port) : (q.raise e).payload = q.payload := rfl
@[simp] theorem Port.raise_fields (e : Status) (q : Port) : (q.raise e).fields = q.fields := rfl
@[simp] theorem Port.raise_seq (e : Status) (q : Port) : (q.raise e).seq = .idle := rfl
@[simp] theorem Port.raise_txb (e : Status) (q : Port) : (q.raise e).txb = q.txb := rfl
@[simp] theorem Port.raise_rxlen (e : Status) (q : Port) : (q.raise e).rxlen = q.rxlen := rfl
@[simp] theorem Port.raise_wreg (e : Status) (q : Port) : (q.raise e).wreg = q.wreg := rfl
@[simp] theorem Port.raise_wpay (e : Status) (q : Port) : (q.raise e).wpay = q.wpay := rfl
@[simp] theorem Port.raise_status (e : Status) (q : Port) : (q.raise e).status = some e := rfl
@[simp] theorem Port.raise_before (e : Status) (q : Port) : (q.raise e).before = q.before := rfl
@[simp] theorem Port.raise_after (e : Status) (q : Port) : (q.raise e).after = q.after := rfl
@[simp] theorem Port.raise_dout (e : Status) (q : Port) : (q.raise e).dout = q.dout := rfl
@[simp] theorem Port.raise_doutLen (e : Status) (q : Port) : (q.raise e).doutLen = q.doutLen := rfl
@[simp] theorem Port.raise_result32 (e : Status) (q : Port) : (q.raise e).result32 = q.result32 := rfl
@[simp] theorem Port.raise_rfields (e : Status) (q : Port) : (q.raise e).rfields = q.rfields := rfl

@[simp] theorem Port.busExchange_cfgAddr (ph : Phase) (tx : List Byte) (n : Byte) (q : Port) : (q.busExchange ph tx n).cfgAddr = q.cfgAddr := rfl
@[simp] theorem Port.busExchange_cmd (ph : Phase) (tx : List Byte) (n : Byte) (q : Port) : (q.busExchange ph tx n).cmd = q.cmd := rfl
@[simp] theorem Port.busExchange_din (ph : Phase) (tx : List Byte) (n : Byte) (q : Port) : (q.busExchange ph tx n).din = q.din := rfl
@[simp] theorem Port.busExchange_payload (ph : Phase) (tx : List Byte) (n : Byte) (q : Port) : (q.busExchange ph tx n).payload = q.payload := rfl
@[simp] theorem Port.busExchange_fields (ph : Phase) (tx : List Byte) (n : Byte) (q : Port) : (q.busExchange ph tx n).fields = q.fields := rfl
@[simp] theorem Port.busExchange_seq (ph : Phase) (tx : List Byte) (n : Byte) (q : Port) : (q.busExchange ph tx n).seq = .waitLock ph := rfl
@[simp] theorem Port.busExchange_txb (ph : Phase) (tx : List Byte) (n : Byte) (q : Port) : (q.busExchange ph tx n).txb = some tx := rfl
@[simp] theorem Port.busExchange_rxlen (ph : Phase) (tx : List Byte) (n : Byte) (q : Port) : (q.busExchange ph tx n).rxlen = some n := rfl
@[simp] theorem Port.busExchange_wreg (ph : Phase) (tx : List Byte) (n : Byte) (q : Port) : (q.busExchange ph tx n).wreg = q.wreg := rfl
@[simp] theorem Port.busExchange_wpay (ph : Phase) (tx : List Byte) (n : Byte) (q : Port) : (q.busExchange ph tx n).wpay = q.wpay := rfl
@[simp] theorem Port.busExchange_status (ph : Phase) (tx : List Byte) (n : Byte) (q : Port) : (q.busExchange ph tx n).status = q.status := rfl
@[simp] theorem Port.busExchange_before (ph : Phase) (tx : List Byte) (n : Byte) (q : Port) : (q.busExchange ph tx n).before = q.before := rfl
@[simp] theorem Port.busExchange_after (ph : Phase) (tx : List Byte) (n : Byte) (q : Port) : (q.busExchange ph tx n).after = q.after := rfl
@[simp] theorem Port.busExchange_dout (ph : Phase) (tx : List Byte) (n : Byte) (q : Port) : (q.busExchange ph tx n).dout = q.dout := rfl
@[simp] theorem Port.busExchange_doutLen (ph : Phase) (tx : List Byte) (n : Byte) (q : Port) : (q.busExchange ph tx n).doutLen = q.doutLen := rfl
@[simp] theorem Port.busExchange_result32 (ph : Phase) (tx : List Byte) (n : Byte) (q : Port) : (q.busExchange ph tx n).result32 = q.result32 := rfl
@[simp] theorem Port.busExchange_rfields (ph : Phase) (tx : List Byte) (n : Byte) (q : Port) : (q.busExchange ph tx n).rfields = q.rfields := rfl

@[simp] theorem Port.latchWrite_cfgAddr (r : Byte) (v : Word) (q : Port) : (q.latchWrite r v).cfgAddr = q.cfgAddr := rfl
@[simp] theorem Port.latchWrite_cmd (r : Byte) (v : Word) (q : Port) : (q.latchWrite r v).cmd = q.cmd := rfl
@[simp] theorem Port.latchWrite_din (r : Byte) (v : Word) (q : Port) : (q.latchWrite r v).din = q.din := rfl
@[simp] theorem Port.latchWrite_payload (r : Byte) (v : Word) (q : Port) : (q.latchWrite r v).payload = q.payload := rfl
@[simp] theorem Port.latchWrite_fields (r : Byte) (v : Word) (q : Port) : (q.latchWrite r v).fields = q.fields := rfl
@[simp] theorem Port.latchWrite_seq (r : Byte) (v : Word) (q : Port) : (q.latchWrite r v).seq = q.seq := rfl
@[simp] theorem Port.latchWrite_txb (r : Byte) (v : Word) (q : Port) : (q.latchWrite r v).txb = q.txb := rfl
@[simp] theorem Port.latchWrite_rxlen (r : Byte) (v : Word) (q : Port) : (q.latchWrite r v).rxlen = q.rxlen := rfl
@[simp] theorem Port.latchWrite_wreg (r : Byte) (v : Word) (q : Port) : (q.latchWrite r v).wreg = some r := rfl
@[simp] theorem Port.latchWrite_wpay (r : Byte) (v : Word) (q : Port) : (q.latchWrite r v).wpay = some v := rfl
@[simp] theorem Port.latchWrite_status (r : Byte) (v : Word) (q : Port) : (q.latchWrite r v).status = q.status := rfl
@[simp] theorem Port.latchWrite_before (r : Byte) (v : Word) (q : Port) : (q.latchWrite r v).before = q.before := rfl
@[simp] theorem Port.latchWrite_after (r : Byte) (v : Word) (q : Port) : (q.latchWrite r v).after = q.after := rfl
@[simp] theorem Port.latchWrite_dout (r : Byte) (v : Word) (q : Port) : (q.latchWrite r v).dout = q.dout := rfl
@[simp] theorem Port.latchWrite_doutLen (r : Byte) (v : Word) (q : Port) : (q.latchWrite r v).doutLen = q.doutLen := rfl
@[simp] theorem Port.latchWrite_result32 (r : Byte) (v : Word) (q : Port) : (q.latchWrite r v).result32 = q.result32 := rfl
@[simp] theorem Port.latchWrite_rfields (r : Byte) (v : Word) (q : Port) : (q.latchWrite r v).rfields = q.rfields := rfl

@[simp] theorem Port.putCmd_cfgAddr (w : Word) (q : Port) : (q.putCmd w).cfgAddr = q.cfgAddr := rfl
@[simp] theorem Port.putCmd_cmd (w : Word) (q : Port) : (q.putCmd w).cmd = some w := rfl
@[simp] theorem Port.putCmd_din (w : Word) (q : Port) : (q.putCmd w).din = q.din := rfl
@[simp] theorem Port.putCmd_payload (w : Word) (q : Port) : (q.putCmd w).payload = q.payload := rfl
@[simp] theorem Port.putCmd_fields (w : Word) (q : Port) : (q.putCmd w).fields = q.fields := rfl
@[simp] theorem Port.putCmd_seq (w : Word) (q : Port) : (q.putCmd w).seq = q.seq := rfl
@[simp] theorem Port.putCmd_txb (w : Word) (q : Port) : (q.putCmd w).txb = q.txb := rfl
@[simp] theorem Port.putCmd_rxlen (w : Word) (q : Port) : (q.putCmd w).rxlen = q.rxlen := rfl
@[simp] theorem Port.putCmd_wreg (w : Word) (q : Port) : (q.putCmd w).wreg = q.wreg := rfl
@[simp] theorem Port.putCmd_wpay (w : Word) (q : Port) : (q.putCmd w).wpay = q.wpay := rfl
@[simp] theorem Port.putCmd_status (w : Word) (q : Port) : (q.putCmd w).status = q.status := rfl
@[simp] theorem Port.putCmd_before (w : Word) (q : Port) : (q.putCmd w).before = q.before := rfl
@[simp] theorem Port.putCmd_after (w : Word) (q : Port) : (q.putCmd w).after = q.after := rfl
@[simp] theorem Port.putCmd_dout (w : Word) (q : Port) : (q.putCmd w).dout = q.dout := rfl
@[simp] theorem Port.putCmd_doutLen (w : Word) (q : Port) : (q.putCmd w).doutLen = q.doutLen := rfl
@[simp] theorem Port.putCmd_result32 (w : Word) (q : Port) : (q.putCmd w).result32 = q.result32 := rfl
@[simp] theorem Port.putCmd_rfields (w : Word) (q : Port) : (q.putCmd w).rfields = q.rfields := rfl

@[simp] theorem Port.putDin_cfgAddr (off : Nat) (bs : List Byte) (q : Port) : (q.putDin off bs).cfgAddr = q.cfgAddr := rfl
@[simp] theorem Port.putDin_cmd (off : Nat) (bs : List Byte) (q : Port) : (q.putDin off bs).cmd = q.cmd := rfl
@[simp] theorem Port.putDin_din (off : Nat) (bs : List Byte) (q : Port) : (q.putDin off bs).din = q.din.writeBytes off bs := rfl
@[simp] theorem Port.putDin_payload (off : Nat) (bs : List Byte) (q : Port) : (q.putDin off bs).payload = q.payload := rfl
@[simp] theorem Port.putDin_fields (off : Nat) (bs : List Byte) (q : Port) : (q.putDin off bs).fields = q.fields := rfl
@[simp] theorem Port.putDin_seq (off : Nat) (bs : List Byte) (q : Port) : (q.putDin off bs).seq = q.seq := rfl
@[simp] theorem Port.putDin_txb (off : Nat) (bs : List Byte) (q : Port) : (q.putDin off bs).txb = q.txb := rfl
@[simp] theorem Port.putDin_rxlen (off : Nat) (bs : List Byte) (q : Port) : (q.putDin off bs).rxlen = q.rxlen := rfl
@[simp] theorem Port.putDin_wreg (off : Nat) (bs : List Byte) (q : Port) : (q.putDin off bs).wreg = q.wreg := rfl
@[simp] theorem Port.putDin_wpay (off : Nat) (bs : List Byte) (q : Port) : (q.putDin off bs).wpay = q.wpay := rfl
@[simp] theorem Port.putDin_status (off : Nat) (bs : List Byte) (q : Port) : (q.putDin off bs).status = q.status := rfl
@[simp] theorem Port.putDin_before (off : Nat) (bs : List Byte) (q : Port) : (q.putDin off bs).before = q.before := rfl
@[simp] theorem Port.putDin_after (off : Nat) (bs : List Byte) (q : Port) : (q.putDin off bs).after = q.after := rfl
@[simp] theorem Port.putDin_dout (off : Nat) (bs : List Byte) (q : Port) : (q.putDin off bs).dout = q.dout := rfl
@[simp] theorem Port.putDin_doutLen (off : Nat) (bs : List Byte) (q : Port) : (q.putDin off bs).doutLen = q.doutLen := rfl
@[simp] theorem Port.putDin_result32 (off : Nat) (bs : List Byte) (q : Port) : (q.putDin off bs).result32 = q.result32 := rfl
@[simp] theorem Port.putDin_rfields (off : Nat) (bs : List Byte) (q : Port) : (q.putDin off bs).rfields = q.rfields := rfl

@[simp] theorem Port.putPayload_cfgAddr (v : Word) (q : Port) : (q.putPayload v).cfgAddr = q.cfgAddr := rfl
@[simp] theorem Port.putPayload_cmd (v : Word) (q : Port) : (q.putPayload v).cmd = q.cmd := rfl
@[simp] theorem Port.putPayload_din (v : Word) (q : Port) : (q.putPayload v).din = q.din := rfl
@[simp] theorem Port.putPayload_payload (v : Word) (q : Port) : (q.putPayload v).payload = some v := rfl
@[simp] theorem Port.putPayload_fields (v : Word) (q : Port) : (q.putPayload v).fields = q.fields := rfl
@[simp] theorem Port.putPayload_seq (v : Word) (q : Port) : (q.putPayload v).seq = q.seq := rfl
@[simp] theorem Port.putPayload_txb (v : Word) (q : Port) : (q.putPayload v).txb = q.txb := rfl
@[simp] theorem Port.putPayload_rxlen (v : Word) (q : Port) : (q.putPayload v).rxlen = q.rxlen := rfl
@[simp] theorem Port.putPayload_wreg (v : Word) (q : Port) : (q.putPayload v).wreg = q.wreg := rfl
@[simp] theorem Port.putPayload_wpay (v : Word) (q : Port) : (q.putPayload v).wpay = q.wpay := rfl
@[simp] theorem Port.putPayload_status (v : Word) (q : Port) : (q.putPayload v).status = q.status := rfl
@[simp] theorem Port.putPayload_before (v : Word) (q : Port) : (q.putPayload v).before = q.before := rfl
@[simp] theorem Port.putPayload_after (v : Word) (q : Port) : (q.putPayload v).after = q.after := rfl
@[simp] theorem Port.putPayload_dout (v : Word) (q : Port) : (q.putPayload v).dout = q.dout := rfl
@[simp] theorem Port.putPayload_doutLen (v : Word) (q : Port) : (q.putPayload v).doutLen = q.doutLen := rfl
@[simp] theorem Port.putPayload_result32 (v : Word) (q : Port) : (q.putPayload v).result32 = q.result32 := rfl
@[simp] theorem Port.putPayload_rfields (v : Word) (q : Port) : (q.putPayload v).rfields = q.rfields := rfl

@[simp] theorem Port.putFields_cfgAddr (f : FieldRecord) (q : Port) : (q.putFields f).cfgAddr = q.cfgAddr := rfl
@[simp] theorem Port.putFields_cmd (f : FieldRecord) (q : Port) : (q.putFields f).cmd = q.cmd := rfl
@[simp] theorem Port.putFields_din (f : FieldRecord) (q : Port) : (q.putFields f).din = q.din := rfl
@[simp] theorem Port.putFields_payload (f : FieldRecord) (q : Port) : (q.putFields f).payload = q.payload := rfl
@[simp] theorem Port.putFields_fields (f : FieldRecord) (q : Port) : (q.putFields f).fields = some f := rfl
@[simp] theorem Port.putFields_seq (f : FieldRecord) (q : Port) : (q.putFields f).seq = q.seq := rfl
@[simp] theorem Port.putFields_txb (f : FieldRecord) (q : Port) : (q.putFields f).txb = q.txb := rfl
@[simp] theorem Port.putFields_rxlen (f : FieldRecord) (q : Port) : (q.putFields f).rxlen = q.rxlen := rfl
@[simp] theorem Port.putFields_wreg (f : FieldRecord) (q : Port) : (q.putFields f).wreg = q.wreg := rfl
@[simp] theorem Port.putFields_wpay (f : FieldRecord) (q : Port) : (q.putFields f).wpay = q.wpay := rfl
@[simp] theorem Port.putFields_status (f : FieldRecord) (q : Port) : (q.putFields f).status = q.status := rfl
@[simp] theorem Port.putFields_before (f : FieldRecord) (q : Port) : (q.putFields f).before = q.before := rfl
@[simp] theorem Port.putFields_after (f : FieldRecord) (q : Port) : (q.putFields f).after = q.after := rfl
@[simp] theorem Port.putFields_dout (f : FieldRecord) (q : Port) : (q.putFields f).dout = q.dout := rfl
@[simp] theorem Port.putFields_doutLen (f : FieldRecord) (q : Port) : (q.putFields f).doutLen = q.doutLen := rfl
@[simp] theorem Port.putFields_result32 (f : FieldRecord) (q : Port) : (q.putFields f).result32 = q.result32 := rfl
@[simp] theorem Port.putFields_rfields (f : FieldRecord) (q : Port) : (q.putFields f).rfields = q.rfields := rfl

/-! ### Fields of the state -/

@[simp] theorem State.updPort_nports (s : State) (p : PortId) (f : Port → Port) : (s.updPort p f).nports = s.nports := rfl
@[simp] theorem State.updPort_ports (s : State) (p : PortId) (f : Port → Port) : (s.updPort p f).ports = s.ports.set p (f (s.port p)) := rfl
@[simp] theorem State.updPort_lockOwner (s : State) (p : PortId) (f : Port → Port) : (s.updPort p f).lockOwner = s.lockOwner := rfl
@[simp] theorem State.updPort_xfer (s : State) (p : PortId) (f : Port → Port) : (s.updPort p f).xfer = s.xfer := rfl
@[simp] theorem State.updPort_line (s : State) (p : PortId) (f : Port → Port) : (s.updPort p f).line = s.line := rfl
@[simp] theorem State.updPort_inputs (s : State) (p : PortId) (f : Port → Port) : (s.updPort p f).inputs = s.inputs := rfl
@[simp] theorem State.updPort_cur (s : State) (p : PortId) (f : Port → Port) : (s.updPort p f).cur = s.cur := rfl
@[simp] theorem State.updPort_fresh (s : State) (p : PortId) (f : Port → Port) : (s.updPort p f).fresh = s.fresh := rfl
@[simp] theorem State.updPort_readout (s : State) (p : PortId) (f : Port → Port) : (s.updPort p f).readout = s.readout := rfl

@[simp] theorem State.draw_nports (s : State) : (s.draw).nports = s.nports := rfl
@[simp] theorem State.draw_ports (s : State) : (s.draw).ports = s.ports := rfl
@[simp] theorem State.draw_lockOwner (s : State) : (s.draw).lockOwner = s.lockOwner := rfl
@[simp] theorem State.draw_xfer (s : State) : (s.draw).xfer = s.xfer := rfl
@[simp] theorem State.draw_line (s : State) : (s.draw).line = s.line := rfl
@[simp] theorem State.draw_inputs (s : State) : (s.draw).inputs = s.inputs := rfl
@[simp] theorem State.draw_cur (s : State) : (s.draw).cur = s.cur := rfl
@[simp] theorem State.draw_fresh (s : State) : (s.draw).fresh = s.fresh + 1 := rfl
@[simp] theorem State.draw_readout (s : State) : (s.draw).readout = s.readout := rfl

@[simp] theorem State.release_nports (s : State) : (s.release).nports = s.nports := rfl
@[simp] theorem State.release_ports (s : State) : (s.release).ports = s.ports := rfl
@[simp] theorem State.release_lockOwner (s : State) : (s.release).lockOwner = none := rfl
@[simp] theorem State.release_xfer (s : State) : (s.release).xfer = none := rfl
@[simp] theorem State.release_line (s : State) : (s.release).line = s.line := rfl
@[simp] theorem State.release_inputs (s : State) : (s.release).inputs = s.inputs := rfl
@[simp] theorem State.release_cur (s : State) : (s.release).cur = s.cur := rfl
@[simp] theorem State.release_fresh (s : State) : (s.release).fresh = s.fresh := rfl
@[simp] theorem State.release_readout (s : State) : (s.release).readout = s.readout := rfl

@[simp] theorem State.takeLock_nports (s : State) (p : PortId) (ph : Phase) (tx : List Byte) (n : Byte) : (s.takeLock p ph tx n).nports = s.nports := rfl
@[simp] theorem State.takeLock_lockOwner (s : State) (p : PortId) (ph : Phase) (tx : List Byte) (n : Byte) : (s.takeLock p ph tx n).lockOwner = some p := rfl
@[simp] theorem State.takeLock_xfer (s : State) (p : PortId) (ph : Phase) (tx : List Byte) (n : Byte) : (s.takeLock p ph tx n).xfer = some ⟨p, tx, n⟩ := rfl
@[simp] theorem State.takeLock_line (s : State) (p : PortId) (ph : Phase) (tx : List Byte) (n : Byte) : (s.takeLock p ph tx n).line = s.line := rfl
@[simp] theorem State.takeLock_inputs (s : State) (p : PortId) (ph : Phase) (tx : List Byte) (n : Byte) : (s.takeLock p ph tx n).inputs = s.inputs := rfl
@[simp] theorem State.takeLock_cur (s : State) (p : PortId) (ph : Phase) (tx : List Byte) (n : Byte) : (s.takeLock p ph tx n).cur = s.cur := rfl
@[simp] theorem State.takeLock_fresh (s : State) (p : PortId) (ph : Phase) (tx : List Byte) (n : Byte) : (s.takeLock p ph tx n).fresh = s.fresh := rfl
@[simp] theorem State.takeLock_readout (s : State) (p : PortId) (ph : Phase) (tx : List Byte) (n : Byte) : (s.takeLock p ph tx n).readout = s.readout := rfl

@[simp] theorem State.endExchange_nports (s : State) (p : PortId) (a : Answer) (q : Port) : (s.endExchange p a q).nports = s.nports := rfl
@[simp] theorem State.endExchange_lockOwner (s : State) (p : PortId) (a : Answer) (q : Port) : (s.endExchange p a q).lockOwner = none := rfl
@[simp] theorem State.endExchange_xfer (s : State) (p : PortId) (a : Answer) (q : Port) : (s.endExchange p a q).xfer = none := rfl
@[simp] theorem State.endExchange_line (s : State) (p : PortId) (a : Answer) (q : Port) : (s.endExchange p a q).line = lineAfter a s.line := rfl
@[simp] theorem State.endExchange_inputs (s : State) (p : PortId) (a : Answer) (q : Port) : (s.endExchange p a q).inputs = s.inputs := rfl
@[simp] theorem State.endExchange_cur (s : State) (p : PortId) (a : Answer) (q : Port) : (s.endExchange p a q).cur = s.cur := rfl
@[simp] theorem State.endExchange_fresh (s : State) (p : PortId) (a : Answer) (q : Port) : (s.endExchange p a q).fresh = s.fresh := rfl
@[simp] theorem State.endExchange_readout (s : State) (p : PortId) (a : Answer) (q : Port) : (s.endExchange p a q).readout = s.readout := rfl

@[simp] theorem State.port_endExchange_self (s : State) (p : PortId) (a : Answer) (q : Port) :
    (s.endExchange p a q).port p = q := State.port_updPort_self s p fun _ => q
@[simp] theorem State.port_endExchange_other (s : State) (p p' : PortId) (a : Answer) (q : Port) (h : p' ≠ p) :
    (s.endExchange p a q).port p' = s.port p' := State.port_updPort_other s p p' (fun _ => q) h

@[simp] theorem State.beginCommand_nports (s : State) (p : PortId) (w : Word) : (s.beginCommand p w).nports = s.nports := rfl
@[simp] theorem State.beginCommand_lockOwner (s : State) (p : PortId) (w : Word) : (s.beginCommand p w).lockOwner = s.lockOwner := rfl
@[simp] theorem State.beginCommand_xfer (s : State) (p : PortId) (w : Word) : (s.beginCommand p w).xfer = s.xfer := rfl
@[simp] theorem State.beginCommand_line (s : State) (p : PortId) (w : Word) : (s.beginCommand p w).line = s.line := rfl
@[simp] theorem State.beginCommand_inputs (s : State) (p : PortId) (w : Word) : (s.beginCommand p w).inputs = s.inputs := rfl
@[simp] theorem State.beginCommand_cur (s : State) (p : PortId) (w : Word) : (s.beginCommand p w).cur = p := rfl
@[simp] theorem State.beginCommand_fresh (s : State) (p : PortId) (w : Word) : (s.beginCommand p w).fresh = s.fresh := rfl
@[simp] theorem State.beginCommand_readout (s : State) (p : PortId) (w : Word) : (s.beginCommand p w).readout = s.readout := rfl

/-! ### Ports of the state -/

@[simp] theorem State.port_draw (s : State) (p : PortId) : s.draw.port p = s.port p := rfl
@[simp] theorem State.port_release (s : State) (p : PortId) : s.release.port p = s.port p := rfl
@[simp] theorem State.port_with_inputs (s : State) (l : List Input) (p : PortId) :
    State.port { s with inputs := l } p = s.port p := rfl
@[simp] theorem State.port_with_line (s : State) (l : List Byte) (p : PortId) :
    State.port { s with line := l } p = s.port p := rfl
@[simp] theorem State.port_with_readout (s : State) (v : Option HostValue) (p : PortId) :
    State.port { s with readout := v } p = s.port p := rfl
@[simp] theorem State.port_with_cur (s : State) (c p : PortId) : State.port { s with cur := c } p = s.port p := rfl

@[simp] theorem State.port_takeLock_self (s : State) (p : PortId) (ph : Phase) (tx : List Byte) (n : Byte) :
    (s.takeLock p ph tx n).port p = { s.port p with seq := .xchg ph } := PortBank.get_set_self _ _ _

@[simp] theorem State.port_takeLock_other (s : State) (p p' : PortId) (ph : Phase) (tx : List Byte) (n : Byte)
    (h : p' ≠ p) : (s.takeLock p ph tx n).port p' = s.port p' := PortBank.get_set_other _ _ _ _ h

@[simp] theorem State.port_beginCommand_self (s : State) (p : PortId) (w : Word) :
    (s.beginCommand p w).port p = (s.port p).putCmd w := State.port_updPort_self _ _ _

@[simp] theorem State.port_beginCommand_other (s : State) (p p' : PortId) (w : Word) (h : p' ≠ p) :
    (s.beginCommand p w).port p' = s.port p' := State.port_updPort_other _ _ _ _ h

@[simp] theorem State.hasPort_updPort (s : State) (p p' : PortId) (f : Port → Port) :
    (s.updPort p f).hasPort p' = s.hasPort p' := rfl
@[simp] theorem State.hasPort_beginCommand (s : State) (p p' : PortId) (w : Word) :
    (s.beginCommand p w).hasPort p' = s.hasPort p' := rfl

theorem State.isIdle_iff (s : State) (p : PortId) : s.isIdle p = true ↔ (s.port p).seq = .idle := by
  simp [State.isIdle]

@[simp] theorem State.isIdle_beginCommand (s : State) (p : PortId) (w : Word) :
    (s.beginCommand p w).isIdle p = s.isIdle p := by
  simp [State.isIdle]

end Sys2Proof.Machine
end

