-- ==== Sys2Proof/Laws/Bus.lean ====
section
/-! SUPPORT. Once for each shared operation: everything it can do when it answers a next state. -/

namespace Sys2Proof.Machine

theorem onIdlePort_next (s t : State) (k : Host.Outcome State Fault Refusal) :
    onIdlePort s k = .next t ↔ s.isIdle s.cur = true ∧ k = .next t := by
  unfold onIdlePort
  split <;> simp [*]

theorem onIdlePort_idle (s : State) (k : Host.Outcome State Fault Refusal) (h : s.isIdle s.cur = true) :
    onIdlePort s k = k := by
  simp [onIdlePort, h]

/-- GRANT answers a next state exactly when it is enabled, and then takes the lock (R252). -/
theorem grant_next (p : PortId) (s t : State) :
    grant p s = .next t ↔
      ∃ ph tx n, s.lockOwner = none ∧ (s.port p).seq = .waitLock ph ∧ (s.port p).txb = some tx ∧
        (s.port p).rxlen = some n ∧ t = s.takeLock p ph tx n := by
  unfold grant
  constructor
  · intro h
    split at h
    · next ph h1 h2 =>
      split at h
      · next tx n h3 h4 =>
        exact ⟨ph, tx, n, h1, h2, h3, h4, by simpa using h.symm⟩
      · cases h
    · cases h
  · rintro ⟨ph, tx, n, h1, h2, h3, h4, rfl⟩
    simp [h1, h2, h3, h4]

/-- ANSWER answers a next state exactly when an exchange is in flight, the answer fits it and the command can go on; it
releases the lock and changes the owner's port only (R254, R255). -/
theorem answer_next (a : Answer) (s t : State) :
    answer a s = .next t ↔
      ∃ p ph q, s.lockOwner = some p ∧ (s.port p).seq = .xchg ph ∧ answerFits a (s.port p) = true ∧
        continueCommand ph a (s.port p) = .ok q ∧
        t = s.endExchange p a q := by
  unfold answer
  constructor
  · intro h
    split at h
    · cases h
    · next p h1 =>
      split at h
      · next ph h2 =>
        split at h
        · next h3 =>
          split at h
          · cases h
          · next q h4 => exact ⟨p, ph, q, h1, h2, h3, h4, by simpa using h.symm⟩
        · cases h
      · cases h
      · cases h
  · rintro ⟨p, ph, q, h1, h2, h3, h4, rfl⟩
    simp [h1, h2, h3, h4]

/-- Bytes that arrive are held, or complete the exchange in flight and end it (R257, R254). -/
theorem arrive_next (bs : List Byte) (s t : State) (h : arrive bs s = .next t) :
    t = { s with line := s.line ++ bs } ∨
      ∃ n, s.wanted = some n ∧ n ≤ (s.line ++ bs).length ∧
        answer (.bytes ((s.line ++ bs).take n)) { s with line := s.line ++ bs } = .next t := by
  have hw : State.wanted { s with line := s.line ++ bs } = s.wanted := rfl
  simp only [arrive, hw] at h
  split at h
  · next n hn =>
    split at h
    · next hle => exact .inr ⟨n, hn, hle, h⟩
    · exact .inl (by simpa using h.symm)
  · exact .inl (by simpa using h.symm)

/-- The number of bytes wanted is the RXLEN of the port in XCHG that holds the lock (R45). -/
theorem wanted_eq_some (s : State) (n : Nat) :
    s.wanted = some n ↔
      ∃ p ph b, s.lockOwner = some p ∧ (s.port p).seq = .xchg ph ∧ (s.port p).rxlen = some b ∧ b.toNat = n := by
  unfold State.wanted
  constructor
  · intro h
    split at h
    · cases h
    · next p h1 =>
      split at h
      · next ph h2 =>
        obtain ⟨b, hb, hn⟩ := Option.map_eq_some_iff.1 h
        exact ⟨p, ph, b, h1, h2, hb, hn⟩
      · cases h
      · cases h
  · rintro ⟨p, ph, b, h1, h2, h3, h4⟩
    simp [h1, h2, h3, h4]

/-- The environment's turn: an ANSWER, a GRANT to a waiter, or nothing. -/
theorem environmentTurn_next (s t : State) (h : environmentTurn s = .next t) :
    (∃ n, s.wanted = some n ∧ answer (freeAnswer s.fresh n) s.draw = .next t) ∨
      (∃ p, s.wanted = none ∧ chooseWaiter s.fresh s.waiters = some p ∧ grant p s.draw = .next t) ∨
      (s.wanted = none ∧ s.waiters = [] ∧ t = s) := by
  unfold environmentTurn at h
  split at h
  · next n hn => exact .inl ⟨n, hn, h⟩
  · next hn =>
    split at h
    · next p hp => exact .inr (.inl ⟨p, hn, hp, h⟩)
    · next hp =>
      refine .inr (.inr ⟨hn, ?_, by simpa using h.symm⟩)
      by_contra hne
      have hlt : Config.freeChoice s.fresh % s.waiters.length < s.waiters.length :=
        Nat.mod_lt _ (List.length_pos_iff.2 hne)
      simp [chooseWaiter, hlt] at hp

theorem mem_waiters (s : State) (p : PortId) : p ∈ s.waiters ↔ ∃ ph, (s.port p).seq = .waitLock ph := by
  have hp : p ∈ ([0, 1, 2, 3] : List PortId) := by fin_cases p <;> decide
  simp only [State.waiters, List.mem_filter, hp, true_and]
  cases (s.port p).seq <;> simp

/-- What the end of an exchange does to its port, whatever the outcome: the operands and the configuration stay, and the
port is IDLE with an outcome, or, only in the WB phase, waits for its WM exchange (R255). -/
theorem continueCommand_ok (ph : Phase) (a : Answer) (q q' : Port) (h : continueCommand ph a q = .ok q') :
    q'.cfgAddr = q.cfgAddr ∧ q'.cmd = q.cmd ∧ q'.din = q.din ∧ q'.payload = q.payload ∧ q'.fields = q.fields ∧
      q'.wreg = q.wreg ∧ q'.wpay = q.wpay ∧
      ((q'.seq = .idle ∧ q'.status.isSome = true ∧ q'.txb = q.txb ∧ q'.rxlen = q.rxlen) ∨
        (ph = .wb ∧ q'.seq = .waitLock .wm ∧ q'.status = q.status)) := by
  cases a with
  | timeout => simp only [continueCommand, Except.ok.injEq] at h; subst h; simp
  | ioError => simp only [continueCommand, Except.ok.injEq] at h; subst h; simp
  | bytes rx =>
    cases ph with
    | raw => simp only [continueCommand, continueRaw, Except.ok.injEq] at h; subst h; simp
    | rd =>
      simp only [continueCommand, continueRd] at h
      split at h
      · cases h
      · simp only [Except.ok.injEq] at h
        subst h
        unfold Port.putReply
        split <;> simp
    | wb =>
      simp only [continueCommand, continueWb] at h
      split at h
      · simp only [Except.ok.injEq] at h; subst h; simp
      · split at h
        · split at h
          · simp only [Except.ok.injEq] at h; subst h; simp
          · simp only [Except.ok.injEq] at h; subst h; simp
        · cases h
    | wm =>
      simp only [continueCommand, continueWm] at h
      split at h
      · simp only [Except.ok.injEq] at h; subst h; simp
      · split at h
        · cases h
        · simp only [Except.ok.injEq] at h; subst h; simp

end Sys2Proof.Machine
end

