-- ==== Sys2Proof/Laws/Decode.lean ====
section
/-! SUPPORT. The command word's fields, the catalog's addresses, and what each decoder can answer. -/

namespace Sys2Proof

@[simp] theorem opcOf_commandWord (o a r n : Byte) : opcOf (commandWord o a r n) = o := by
  unfold opcOf commandWord joinBytes
  apply BitVec.eq_of_getLsbD_eq
  intro i hi
  simp only [BitVec.getLsbD_extractLsb', BitVec.getLsbD_append, hi, decide_true, Bool.true_and]
  simp [show ¬ 24 + i < 8 by omega, show ¬ 24 + i - 8 < 8 by omega, show ¬ 24 + i - 8 - 8 < 8 by omega,
    show 24 + i - 8 - 8 - 8 = i by omega]

@[simp] theorem aOf_commandWord (o a r n : Byte) : aOf (commandWord o a r n) = a := by
  unfold aOf commandWord joinBytes
  apply BitVec.eq_of_getLsbD_eq
  intro i hi
  simp only [BitVec.getLsbD_extractLsb', BitVec.getLsbD_append, hi, decide_true, Bool.true_and]
  simp [show ¬ 16 + i < 8 by omega, show ¬ 16 + i - 8 < 8 by omega, show 16 + i - 8 - 8 = i by omega, hi]

@[simp] theorem rOf_commandWord (o a r n : Byte) : rOf (commandWord o a r n) = r := by
  unfold rOf commandWord joinBytes
  apply BitVec.eq_of_getLsbD_eq
  intro i hi
  simp only [BitVec.getLsbD_extractLsb', BitVec.getLsbD_append, hi, decide_true, Bool.true_and]
  simp [show ¬ 8 + i < 8 by omega, show 8 + i - 8 = i by omega, hi]

@[simp] theorem nOf_commandWord (o a r n : Byte) : nOf (commandWord o a r n) = n := by
  unfold nOf commandWord joinBytes
  apply BitVec.eq_of_getLsbD_eq
  intro i hi
  simp only [BitVec.getLsbD_extractLsb', BitVec.getLsbD_append, hi, decide_true, Bool.true_and]
  simp only [Nat.zero_add, hi, if_true]

/-- The catalog has no two registers at one address (R140). -/
@[simp] theorem Reg.ofByte?_addr (r : Reg) : Reg.ofByte? r.addr = some r := by cases r <;> decide

theorem Reg.ofByte?_eq_some (b : Byte) (r : Reg) : Reg.ofByte? b = some r ↔ r.addr = b := by
  constructor
  · intro h
    simpa using List.find?_some h
  · rintro rfl
    simp

theorem Reg.mem_catalog (r : Reg) : r ∈ Reg.catalog := by cases r <;> decide

theorem withRegister_ok (r : Byte) (k : Reg → Instr) (i : Instr) :
    withRegister r k = .ok i ↔ ∃ x : Reg, x.addr = r ∧ i = k x := by
  unfold withRegister
  constructor
  · intro h
    split at h
    · next x hx => exact ⟨x, (Reg.ofByte?_eq_some _ _).1 hx, by simpa using h.symm⟩
    · cases h
  · rintro ⟨x, rfl, rfl⟩
    simp

@[simp] theorem withRegister_addr (x : Reg) (k : Reg → Instr) : withRegister x.addr k = .ok (k x) := by
  simp [withRegister]

/-- Everything the command decoder can answer (R111), with the opcode and the operands' fields. -/
theorem decodeCommand_ok (w : Word) (i : Instr) (h : decodeCommand w = .ok i) :
    (opcOf w = 0x01 ∧ i = .crc8 (nOf w)) ∨
    (opcOf w = 0x02 ∧ nOf w ≠ 0 ∧ i = .crcCheck (nOf w)) ∨
    (opcOf w = 0x10 ∧ i = .encRd (aOf w) (rOf w)) ∨
    (opcOf w = 0x11 ∧ i = .encWr (aOf w) (rOf w)) ∨
    (opcOf w = 0x12 ∧ ∃ x : Reg, x.addr = rOf w ∧ i = .decReply x (nOf w)) ∨
    (opcOf w = 0x20 ∧ ∃ x : Reg, x.addr = rOf w ∧ i = .unpack x) ∨
    (opcOf w = 0x21 ∧ ∃ x : Reg, x.addr = rOf w ∧ i = .pack x) ∨
    (opcOf w = 0x30 ∧ i = .exchange (aOf w) (nOf w)) ∨
    (opcOf w = 0x40 ∧ ∃ x : Reg, x.addr = rOf w ∧ i = Instr.readForm x) ∨
    (opcOf w = 0x41 ∧ ∃ x : Reg, x.addr = rOf w ∧ i = Instr.writeForm x) ∨
    (opcOf w = 0x42 ∧ i = .verify (aOf w) (nOf w)) := by
  have op : ∀ {k : Nat} {b : Byte}, (opcOf w).toNat = k → b.toNat = k → opcOf w = b :=
    fun h1 h2 => BitVec.eq_of_toNat_eq (h1.trans h2.symm)
  unfold decodeCommand at h
  split at h
  · next ho => exact .inl ⟨op ho rfl, by simpa using h.symm⟩
  · next ho =>
    split at h
    · cases h
    · next hn => exact .inr (.inl ⟨op ho rfl, hn, by simpa using h.symm⟩)
  · next ho => exact .inr (.inr (.inl ⟨op ho rfl, by simpa using h.symm⟩))
  · next ho => exact .inr (.inr (.inr (.inl ⟨op ho rfl, by simpa using h.symm⟩)))
  · next ho => exact .inr (.inr (.inr (.inr (.inl ⟨op ho rfl, (withRegister_ok _ _ _).1 h⟩))))
  · next ho => exact .inr (.inr (.inr (.inr (.inr (.inl ⟨op ho rfl, (withRegister_ok _ _ _).1 h⟩)))))
  · next ho => exact .inr (.inr (.inr (.inr (.inr (.inr (.inl ⟨op ho rfl, (withRegister_ok _ _ _).1 h⟩))))))
  · next ho => exact .inr (.inr (.inr (.inr (.inr (.inr (.inr (.inl ⟨op ho rfl, by simpa using h.symm⟩)))))))
  · next ho =>
    exact .inr (.inr (.inr (.inr (.inr (.inr (.inr (.inr (.inl ⟨op ho rfl, (withRegister_ok _ _ _).1 h⟩))))))))
  · next ho =>
    exact .inr (.inr (.inr (.inr (.inr (.inr (.inr (.inr (.inr (.inl ⟨op ho rfl, (withRegister_ok _ _ _).1 h⟩)))))))))
  · next ho =>
    exact .inr (.inr (.inr (.inr (.inr (.inr (.inr (.inr (.inr (.inr ⟨op ho rfl, by simpa using h.symm⟩)))))))))
  · cases h

@[simp] theorem frameBytes_readForm (r : Reg) : frameBytes (Instr.readForm r) = [] := by cases r <;> rfl
@[simp] theorem frameBytes_writeForm (r : Reg) : frameBytes (Instr.writeForm r) = [] := by cases r <;> rfl

/-- A command word never decodes to a frame. -/
theorem frameBytes_of_decodeCommand (w : Word) (i : Instr) (h : decodeCommand w = .ok i) : frameBytes i = [] := by
  rcases decodeCommand_ok w i h with ⟨_, rfl⟩ | ⟨_, _, rfl⟩ | ⟨_, rfl⟩ | ⟨_, rfl⟩ | ⟨_, _, _, rfl⟩ | ⟨_, _, _, rfl⟩ |
    ⟨_, _, _, rfl⟩ | ⟨_, rfl⟩ | ⟨_, _, _, rfl⟩ | ⟨_, _, _, rfl⟩ | ⟨_, rfl⟩ <;> first | rfl | simp

/-- The frame decoder reads back exactly the bytes it was given (R103, R104). -/
theorem frameBytes_of_decodeFrame (bs : List Byte) (i : Instr) (h : decodeFrame bs = .ok i) : frameBytes i = bs := by
  have addr3 : ∀ a : Byte, a ≤ Config.maxDriverAddr → addrByte (a.setWidth 2) = a := by decide
  have low : ∀ r : Byte, r.msb = false → readAddrByte (r.setWidth 7) = r := by decide
  have high : ∀ r : Byte, r.msb = true → writeAddrByte (r.setWidth 7) = r := by decide
  unfold decodeFrame at h
  split at h
  · split at h
    · next hc =>
      simp only [Except.ok.injEq] at h
      subst h
      simp [frameBytes, addr3 _ hc.2.1, low _ hc.2.2, hc.1]
    · cases h
  · split at h
    · next hc =>
      simp only [Except.ok.injEq] at h
      subst h
      simp [frameBytes, addr3 _ hc.2.1, high _ hc.2.2, hc.1]
    · split at h
      · next hc =>
        simp only [Except.ok.injEq] at h
        subst h
        simp [frameBytes, low _ hc.2.2, hc.1, hc.2.1]
      · cases h
  · cases h

end Sys2Proof
end

