-- ==== Sys2Proof/Laws/Memory.lean ====
section
/-! SUPPORT. The buffers: a write is read back, leaves every other byte alone, and keeps the canonical form and the
bound. -/

namespace Sys2Proof.Machine

@[simp] theorem Memory.read_nil (a : Nat) : Memory.read [] a = none := rfl

theorem Memory.read_write_self (m : Memory) (a : Nat) (b : Byte) : (Memory.write m a b).read a = some b := by
  induction m with
  | nil => simp [Memory.write, Memory.read]
  | cons c m ih =>
    unfold Memory.write
    split
    · simp [Memory.read]
    · split
      · simp [Memory.read]
      · have h : ¬ c.1 = a := fun h => by simp_all
        simp [Memory.read, h, ih]

theorem Memory.read_write_other (m : Memory) (a a' : Nat) (b : Byte) (h : a' ≠ a) :
    (Memory.write m a b).read a' = m.read a' := by
  induction m with
  | nil => simp [Memory.write, Memory.read, h.symm]
  | cons c m ih =>
    unfold Memory.write
    split
    · simp [Memory.read, h.symm]
    · split
      · next _ hc => simp [Memory.read, ← hc, h.symm]
      · simp [Memory.read, ih]

/-- Reading after a run of writes: the new byte inside the run, the old one outside. -/
theorem Memory.read_writeBytes (m : Memory) (a : Nat) (bs : List Byte) (i : Nat) :
    (Memory.writeBytes m a bs).read i = if a ≤ i ∧ i < a + bs.length then bs[i - a]? else m.read i := by
  induction bs generalizing m a with
  | nil =>
    have h : ¬ (a ≤ i ∧ i < a + ([] : List Byte).length) := by simp
    rw [if_neg h, Memory.writeBytes]
  | cons b bs ih =>
    rw [Memory.writeBytes, ih]
    by_cases h1 : a + 1 ≤ i ∧ i < a + 1 + bs.length
    · have h2 : a ≤ i ∧ i < a + (b :: bs).length := by simp; omega
      have h3 : i - a = (i - (a + 1)) + 1 := by omega
      rw [if_pos h1, if_pos h2, h3, List.getElem?_cons_succ]
    · rw [if_neg h1]
      by_cases h2 : i = a
      · subst h2
        simp [Memory.read_write_self]
      · have h3 : ¬ (a ≤ i ∧ i < a + (b :: bs).length) := by simp; omega
        rw [if_neg h3, Memory.read_write_other _ _ _ _ h2]

/-- A list is canonical if its tail is and its head's index is below the next one's. -/
theorem Memory.wf_cons (c : Host.Cell) (m : Memory) :
    Memory.wf (c :: m) = true ↔ (∀ d ∈ m.head?, c.1 < d.1) ∧ Memory.wf m = true := by
  cases m with
  | nil => simp [Memory.wf]
  | cons d m => simp [Memory.wf]

theorem Memory.head_write (m : Memory) (a : Nat) (b : Byte) :
    ∀ d ∈ (Memory.write m a b).head?, d.1 = a ∨ d ∈ m.head? := by
  cases m with
  | nil => simp [Memory.write]
  | cons c m =>
    unfold Memory.write
    split
    · simp
    · split
      · simp
      · simp

theorem Memory.write_wf (m : Memory) (a : Nat) (b : Byte) (h : m.wf = true) : (Memory.write m a b).wf = true := by
  induction m with
  | nil => rfl
  | cons c m ih =>
    have ⟨hc, hm⟩ := (Memory.wf_cons c m).1 h
    unfold Memory.write
    split
    · next ha => exact (Memory.wf_cons _ _).2 ⟨by simpa using ha, h⟩
    · split
      · next _ ha => exact (Memory.wf_cons _ _).2 ⟨by simpa [ha] using hc, hm⟩
      · next h1 h2 =>
        refine (Memory.wf_cons _ _).2 ⟨fun d hd => ?_, ih hm⟩
        rcases Memory.head_write m a b d hd with hda | hdm
        · omega
        · exact hc d hdm

theorem Memory.writeBytes_wf (m : Memory) (a : Nat) (bs : List Byte) (h : m.wf = true) :
    (Memory.writeBytes m a bs).wf = true := by
  induction bs generalizing m a with
  | nil => exact h
  | cons b bs ih => exact ih _ _ (Memory.write_wf _ _ _ h)

theorem Memory.mem_write (m : Memory) (a : Nat) (b : Byte) (c : Host.Cell) (h : c ∈ Memory.write m a b) :
    c = (a, b) ∨ c ∈ m := by
  induction m with
  | nil => simpa [Memory.write] using h
  | cons d m ih =>
    unfold Memory.write at h
    split at h
    · simpa using h
    · split at h
      · simp at h ⊢; tauto
      · simp at h ⊢; tauto

theorem Memory.write_ok (m : Memory) (a : Nat) (b : Byte) (h : m.ok = true) (ha : a < Config.bufMax) :
    (Memory.write m a b).ok = true := by
  simp only [Memory.ok, Bool.and_eq_true, List.all_eq_true, decide_eq_true_eq] at h ⊢
  refine ⟨Memory.write_wf _ _ _ h.1, fun c hc => ?_⟩
  rcases Memory.mem_write m a b c hc with rfl | hc
  · exact ha
  · exact h.2 c hc

/-- A run of writes within the buffer keeps it in order. -/
theorem Memory.writeBytes_ok (m : Memory) (a : Nat) (bs : List Byte) (h : m.ok = true)
    (ha : a + bs.length ≤ Config.bufMax) : (Memory.writeBytes m a bs).ok = true := by
  induction bs generalizing m a with
  | nil => exact h
  | cons b bs ih =>
    simp only [List.length_cons] at ha
    exact ih _ _ (Memory.write_ok _ _ _ h (by omega)) (by omega)

/-- The memories of the reset state are canonical. -/
theorem reset_memory_wf (p : PortId) : (State.reset.port p).din.wf = true ∧ (State.reset.port p).dout.wf = true := by
  fin_cases p <;> decide

end Sys2Proof.Machine
end

