-- ==== Sys2Proof/Laws/Exec.lean ====
section
/-! SUPPORT. What executing a command can do: one lemma over all commands, and the port that each shared operation
leaves. -/

namespace Sys2Proof.Machine

/-! ### The operands -/

@[simp] theorem State.dinOperand_length (s : State) (n : Byte) : (s.dinOperand n).length = n.toNat := by
  simp [State.dinOperand]

theorem State.dinOperand_reads (s : State) (n : Byte) : (s.port s.cur).DinReads (s.dinOperand n) := by
  intro i b hi hb
  have h : i < n.toNat := by simpa using hi
  simp [State.dinOperand, h, dinByte, hb]

theorem State.payloadOperand_reads (s : State) : (s.port s.cur).PayloadReads s.payloadOperand := by
  intro u hu
  simp [State.payloadOperand, hu]

theorem fieldsOf_fits (r : Reg) (v : Word) : (fieldsOf r v).fits r = true := by
  simp [FieldRecord.fits, fieldsOf, Function.comp_def]

/-- The values a field list gives: 0 from the empty list, else the first value listed for the name (R131, log entry 28). -/
@[simp] theorem listedValue_nil (n : FieldName) : listedValue [] n = 0 := rfl
@[simp] theorem listedValue_cons_self (v : Nat) (n : FieldName) (given : List (FieldName × Nat)) :
    listedValue ((n, v) :: given) n = v := by simp [listedValue]
theorem listedValue_cons_other (g : FieldName × Nat) (n : FieldName) (given : List (FieldName × Nat)) (h : g.1 ≠ n) :
    listedValue (g :: given) n = listedValue given n := by
  simp [listedValue, List.lookup, beq_false_of_ne h.symm]

/-- The field of a record that a list makes: the value the list gives it, within the field's width (R131). -/
theorem FieldRecord.get?_make (x : Reg) (given : List (FieldName × Nat)) (f : FieldSpec) (hf : f ∈ layout x) :
    (FieldRecord.make x given).get? f.name = some (listedValue given f.name % 2 ^ f.width) := by
  cases x <;> simp only [layout, List.mem_cons, List.not_mem_nil, or_false] at hf <;>
    (repeat' (rcases hf with hf | hf)) <;> exact congrArg some (BitVec.toNat_ofNat _ _)

theorem State.fieldsOperand_reads (s : State) (r : Reg) : (s.port s.cur).FieldsRead r (s.fieldsOperand r) := by
  unfold State.fieldsOperand
  constructor
  · split
    · split
      · assumption
      · exact fieldsOf_fits _ _
    · exact fieldsOf_fits _ _
  · intro g hg hf
    simp [hg, hf]

/-! ### The codec -/

theorem encRead_ok (a r : Byte) (h : a ≤ Config.maxDriverAddr) :
    encRead a r = .ok (closeFrame [Config.sync, a, r]) := by
  have h' : ¬ a > Config.maxDriverAddr := by simpa using h
  rw [encRead, if_neg h']

theorem encRead_error (a r : Byte) (h : a > Config.maxDriverAddr) : encRead a r = .error .invalidDriverAddress := by
  rw [encRead, if_pos h]

theorem encWrite_ok (a w : Byte) (v : Word) (h : a ≤ Config.maxDriverAddr) :
    encWrite a w v = .ok (closeFrame ([Config.sync, a, w] ++ bytesOf v)) := by
  have h' : ¬ a > Config.maxDriverAddr := by simpa using h
  rw [encWrite, if_neg h']

theorem encWrite_error (a w : Byte) (v : Word) (h : a > Config.maxDriverAddr) :
    encWrite a w v = .error .invalidDriverAddress := by
  rw [encWrite, if_pos h]

theorem bytesOf_length (v : Word) : (bytesOf v).length = 4 := by simp [bytesOf, payloadOrder]

theorem encRead_length (a r : Byte) (f : List Byte) (h : encRead a r = .ok f) : f.length = 4 := by
  unfold encRead at h
  split at h
  · cases h
  · simp only [Except.ok.injEq] at h
    subst h
    simp [closeFrame]

theorem encWrite_length (a w : Byte) (v : Word) (f : List Byte) (h : encWrite a w v = .ok f) : f.length = 8 := by
  unfold encWrite at h
  split at h
  · cases h
  · simp only [Except.ok.injEq] at h
    subst h
    simp [closeFrame, bytesOf_length]

/-- A record the decoder gives is a record of the register it was asked for. -/
theorem unpack_ok (r : Reg) (v : Word) (f : FieldRecord) (h : unpack r v = .ok f) : f = fieldsOf r v := by
  unfold unpack at h
  split at h
  · simpa using h.symm
  · cases h

theorem decReply_ok_fits (b : List Byte) (r : Reg) (v : Word) (f : FieldRecord) (h : decReply b r = .ok (v, f)) :
    f = fieldsOf r v := by
  unfold decReply at h
  split at h
  · split at h
    · cases h
    · split at h
      · cases h
      · split at h
        · cases h
        · split at h
          · cases h
          · split at h
            · cases h
            · next f' hf =>
              simp only [Except.ok.injEq, Prod.mk.injEq] at h
              obtain ⟨rfl, rfl⟩ := h
              exact unpack_ok _ _ _ hf
  · cases h

/-- A check that fails never reports OK or PackingError (R207, R331). -/
theorem decReply_error (b : List Byte) (r : Reg) (e : Status) (h : decReply b r = .error e) :
    e ≠ .ok ∧ e ≠ .packingError := by
  have hu : ∀ (v : Word) (e : Status), unpack r v = .error e → e = .unpackingError := by
    intro v e h
    unfold unpack at h
    split at h
    · cases h
    · simpa using h.symm
  unfold decReply at h
  split at h
  · split at h
    · injection h with h; subst h; simp
    · split at h
      · injection h with h; subst h; simp
      · split at h
        · injection h with h; subst h; simp
        · split at h
          · injection h with h; subst h; simp
          · split at h
            · next e' he =>
              injection h with h
              rw [← h, hu _ _ he]
              simp
            · cases h
  · injection h with h; subst h; simp

/-- The encoders' only error (R201). -/
theorem writeThenRead_error (a w : Byte) (v : Word) (e : Status) (h : writeThenRead a w v = .error e) :
    e = .invalidDriverAddress := by
  by_cases ha : a ≤ Config.maxDriverAddr
  · simp [writeThenRead, encWrite_ok _ _ _ ha, encRead_ok _ _ ha] at h
  · simp only [writeThenRead, encWrite_error _ _ _ (by simpa using ha)] at h
    simpa using h.symm

/-! ### Commands -/

/-- What a command leaves on its port: the operands stay; the port is IDLE with an outcome, or waits for the bus in the
first phase of a bus command. -/
structure CommandLeaves (q q' : Port) : Prop where
  operands : q.SameOperands q'
  ends : (q'.seq = .idle ∧ q'.status.isSome = true ∧ q'.txb = q.txb ∧ q'.rxlen = q.rxlen) ∨
    (q'.status = q.status ∧ ∃ ph, q'.seq = .waitLock ph ∧ (ph = .raw ∨ ph = .rd ∨ ph = .wb))

theorem putFrame_leaves (result : Except Status (List Byte)) (q : Port) : CommandLeaves q (q.putFrame result) := by
  unfold Port.putFrame
  split <;> exact ⟨⟨rfl, rfl, rfl, rfl, rfl⟩, .inl ⟨rfl, rfl, rfl, rfl⟩⟩

theorem putReply_leaves (result : Except Status (Word × FieldRecord)) (q : Port) :
    CommandLeaves q (q.putReply result) := by
  unfold Port.putReply
  split <;> exact ⟨⟨rfl, rfl, rfl, rfl, rfl⟩, .inl ⟨rfl, rfl, rfl, rfl⟩⟩

theorem putUnpacked_leaves (result : Except Status FieldRecord) (q : Port) :
    CommandLeaves q (q.putUnpacked result) := by
  unfold Port.putUnpacked
  split <;> exact ⟨⟨rfl, rfl, rfl, rfl, rfl⟩, .inl ⟨rfl, rfl, rfl, rfl⟩⟩

/-- READ_REG's issue on its port, by the two cases of the address check (R290, R292). -/
theorem readRegister_port (r : Reg) (s : State) :
    (readRegister r s).port s.cur =
      if (s.port s.cur).cfgAddr ≤ Config.maxDriverAddr then
        (s.port s.cur).busExchange .rd (closeFrame [Config.sync, (s.port s.cur).cfgAddr, r.addr]) Config.readRxLen
      else (s.port s.cur).raise .invalidDriverAddress := by
  simp only [readRegister, State.port_updPort_self]
  by_cases h : (s.port s.cur).cfgAddr ≤ Config.maxDriverAddr
  · rw [if_pos h, encRead_ok _ _ h]
  · rw [if_neg h, encRead_error _ _ (by simpa using h)]

/-- WRITE_REG's issue on its port, by the two cases of the address check (R296, R292). -/
theorem writeRegister_port (r : Reg) (s : State) :
    (writeRegister r s).port s.cur =
      if (s.port s.cur).cfgAddr ≤ Config.maxDriverAddr then
        ((s.port s.cur).latchWrite r.addr (pack r (s.fieldsOperand r))).busExchange .wb
          (closeFrame [Config.sync, (s.port s.cur).cfgAddr, Reg.ifcnt.addr]) Config.readRxLen
      else ((s.port s.cur).latchWrite r.addr (pack r (s.fieldsOperand r))).raise .invalidDriverAddress := by
  simp only [writeRegister, State.port_updPort_self, State.port_draw, Port.latchWrite_cfgAddr]
  by_cases h : (s.port s.cur).cfgAddr ≤ Config.maxDriverAddr
  · rw [if_pos h, encRead_ok _ _ h]
  · rw [if_neg h, encRead_error _ _ (by simpa using h)]

theorem readRegister_only (r : Reg) (s : State) : s.OnlyPort s.cur (readRegister r s) :=
  ⟨rfl, fun _ h => State.port_updPort_other _ _ _ _ h, rfl, rfl, rfl, rfl, rfl, rfl⟩

theorem writeRegister_only (r : Reg) (s : State) : s.OnlyPort s.cur (writeRegister r s) :=
  ⟨rfl, fun _ h => State.port_updPort_other _ _ _ _ h, rfl, rfl, rfl, rfl, rfl, rfl⟩

theorem readRegister_leaves (r : Reg) (s : State) :
    CommandLeaves (s.port s.cur) ((readRegister r s).port s.cur) := by
  rw [readRegister_port]
  split
  · exact ⟨⟨rfl, rfl, rfl, rfl, rfl⟩, .inr ⟨rfl, .rd, rfl, by simp⟩⟩
  · exact ⟨⟨rfl, rfl, rfl, rfl, rfl⟩, .inl ⟨rfl, rfl, rfl, rfl⟩⟩

theorem writeRegister_leaves (r : Reg) (s : State) :
    CommandLeaves (s.port s.cur) ((writeRegister r s).port s.cur) := by
  rw [writeRegister_port]
  split
  · exact ⟨⟨rfl, rfl, rfl, rfl, rfl⟩, .inr ⟨rfl, .wb, rfl, by simp⟩⟩
  · exact ⟨⟨rfl, rfl, rfl, rfl, rfl⟩, .inl ⟨rfl, rfl, rfl, rfl⟩⟩

/-- RD_X is READ_REG with R fixed, and WR_X is WRITE_REG with R fixed: their arms of `exec` (R145). -/
theorem exec_readForm (r : Reg) (s : State) : exec (Instr.readForm r) s = onIdlePort s (.next (readRegister r s)) := by
  cases r <;> rfl

theorem exec_writeForm (r : Reg) (s : State) :
    exec (Instr.writeForm r) s = onIdlePort s (.next (writeRegister r s)) := by
  cases r <;> rfl

/-- An instruction is a read, a write, a frame or one of the nine other commands. -/
theorem instr_kinds (i : Instr) :
    (∃ r, i = .readReg r ∨ i = Instr.readForm r) ∨ (∃ r, i = .writeReg r ∨ i = Instr.writeForm r) ∨
    frameBytes i ≠ [] ∨ (∃ n, i = .crc8 n) ∨ (∃ n, i = .crcCheck n) ∨ (∃ a r, i = .encRd a r) ∨
    (∃ a r, i = .encWr a r) ∨ (∃ r n, i = .decReply r n) ∨ (∃ r, i = .unpack r) ∨ (∃ r, i = .pack r) ∨
    (∃ a n, i = .exchange a n) ∨ (∃ a n, i = .verify a n) := by
  cases i
  case readReg r => exact .inl ⟨r, .inl rfl⟩
  case writeReg r => exact .inr (.inl ⟨r, .inl rfl⟩)
  case rdGconf => exact .inl ⟨.gconf, .inr rfl⟩
  case rdGstat => exact .inl ⟨.gstat, .inr rfl⟩
  case rdIfcnt => exact .inl ⟨.ifcnt, .inr rfl⟩
  case rdNodeconf => exact .inl ⟨.nodeconf, .inr rfl⟩
  case rdIoin => exact .inl ⟨.ioin, .inr rfl⟩
  case rdIholdIrun => exact .inl ⟨.iholdIrun, .inr rfl⟩
  case rdTpowerdown => exact .inl ⟨.tpowerdown, .inr rfl⟩
  case rdTstep => exact .inl ⟨.tstep, .inr rfl⟩
  case rdTpwmthrs => exact .inl ⟨.tpwmthrs, .inr rfl⟩
  case rdTcoolthrs => exact .inl ⟨.tcoolthrs, .inr rfl⟩
  case rdVactual => exact .inl ⟨.vactual, .inr rfl⟩
  case rdChopconf => exact .inl ⟨.chopconf, .inr rfl⟩
  case rdPwmconf => exact .inl ⟨.pwmconf, .inr rfl⟩
  case wrGconf => exact .inr (.inl ⟨.gconf, .inr rfl⟩)
  case wrGstat => exact .inr (.inl ⟨.gstat, .inr rfl⟩)
  case wrIfcnt => exact .inr (.inl ⟨.ifcnt, .inr rfl⟩)
  case wrNodeconf => exact .inr (.inl ⟨.nodeconf, .inr rfl⟩)
  case wrIoin => exact .inr (.inl ⟨.ioin, .inr rfl⟩)
  case wrIholdIrun => exact .inr (.inl ⟨.iholdIrun, .inr rfl⟩)
  case wrTpowerdown => exact .inr (.inl ⟨.tpowerdown, .inr rfl⟩)
  case wrTstep => exact .inr (.inl ⟨.tstep, .inr rfl⟩)
  case wrTpwmthrs => exact .inr (.inl ⟨.tpwmthrs, .inr rfl⟩)
  case wrTcoolthrs => exact .inr (.inl ⟨.tcoolthrs, .inr rfl⟩)
  case wrVactual => exact .inr (.inl ⟨.vactual, .inr rfl⟩)
  case wrChopconf => exact .inr (.inl ⟨.chopconf, .inr rfl⟩)
  case wrPwmconf => exact .inr (.inl ⟨.pwmconf, .inr rfl⟩)
  all_goals simp [frameBytes]

theorem onlyPort_of (s : State) (f : Port → Port) :
    s.OnlyPort s.cur (s.updPort s.cur f) ∧ s.OnlyPort s.cur (s.draw.updPort s.cur f) :=
  ⟨⟨rfl, fun _ h => State.port_updPort_other _ _ _ _ h, rfl, rfl, rfl, rfl, rfl, rfl⟩,
   ⟨rfl, fun _ h => State.port_updPort_other _ _ _ _ h, rfl, rfl, rfl, rfl, rfl, rfl⟩⟩

/-- Everything a command does in general: it runs on an IDLE port, changes that port only, and leaves it as
`CommandLeaves` says. -/
theorem exec_command_next (i : Instr) (s t : State) (hi : frameBytes i = []) (h : exec i s = .next t) :
    s.isIdle s.cur = true ∧ s.OnlyPort s.cur t ∧ CommandLeaves (s.port s.cur) (t.port s.cur) := by
  rcases instr_kinds i with ⟨r, hr⟩ | ⟨r, hr⟩ | hf | ⟨n, rfl⟩ | ⟨n, rfl⟩ | ⟨a, r, rfl⟩ | ⟨a, r, rfl⟩ | ⟨r, n, rfl⟩ |
    ⟨r, rfl⟩ | ⟨r, rfl⟩ | ⟨a, n, rfl⟩ | ⟨a, n, rfl⟩
  · have h' : onIdlePort s (.next (readRegister r s)) = .next t := by
      rcases hr with rfl | rfl
      · exact h
      · rw [← exec_readForm]; exact h
    obtain ⟨hid, hk⟩ := (onIdlePort_next _ _ _).1 h'
    injection hk with hk; subst hk
    exact ⟨hid, readRegister_only _ _, readRegister_leaves _ _⟩
  · have h' : onIdlePort s (.next (writeRegister r s)) = .next t := by
      rcases hr with rfl | rfl
      · exact h
      · rw [← exec_writeForm]; exact h
    obtain ⟨hid, hk⟩ := (onIdlePort_next _ _ _).1 h'
    injection hk with hk; subst hk
    exact ⟨hid, writeRegister_only _ _, writeRegister_leaves _ _⟩
  · exact absurd hi hf
  · obtain ⟨hid, hk⟩ := (onIdlePort_next _ _ _).1 h
    injection hk with hk; subst hk
    exact ⟨hid, (onlyPort_of _ _).2, by
      rw [State.port_updPort_self]; exact ⟨⟨rfl, rfl, rfl, rfl, rfl⟩, .inl ⟨rfl, rfl, rfl, rfl⟩⟩⟩
  · obtain ⟨hid, hk⟩ := (onIdlePort_next _ _ _).1 h
    split at hk
    · cases hk
    · injection hk with hk; subst hk
      exact ⟨hid, (onlyPort_of _ _).2, by
        rw [State.port_updPort_self]; exact ⟨⟨rfl, rfl, rfl, rfl, rfl⟩, .inl ⟨rfl, rfl, rfl, rfl⟩⟩⟩
  · obtain ⟨hid, hk⟩ := (onIdlePort_next _ _ _).1 h
    injection hk with hk; subst hk
    exact ⟨hid, (onlyPort_of _ _).1, by rw [State.port_updPort_self]; exact putFrame_leaves _ _⟩
  · obtain ⟨hid, hk⟩ := (onIdlePort_next _ _ _).1 h
    injection hk with hk; subst hk
    exact ⟨hid, (onlyPort_of _ _).2, by rw [State.port_updPort_self]; exact putFrame_leaves _ _⟩
  · obtain ⟨hid, hk⟩ := (onIdlePort_next _ _ _).1 h
    injection hk with hk; subst hk
    exact ⟨hid, (onlyPort_of _ _).2, by rw [State.port_updPort_self]; exact putReply_leaves _ _⟩
  · obtain ⟨hid, hk⟩ := (onIdlePort_next _ _ _).1 h
    injection hk with hk; subst hk
    exact ⟨hid, (onlyPort_of _ _).2, by rw [State.port_updPort_self]; exact putUnpacked_leaves _ _⟩
  · obtain ⟨hid, hk⟩ := (onIdlePort_next _ _ _).1 h
    injection hk with hk; subst hk
    exact ⟨hid, (onlyPort_of _ _).2, by
      rw [State.port_updPort_self]; exact ⟨⟨rfl, rfl, rfl, rfl, rfl⟩, .inl ⟨rfl, rfl, rfl, rfl⟩⟩⟩
  · obtain ⟨hid, hk⟩ := (onIdlePort_next _ _ _).1 h
    injection hk with hk; subst hk
    exact ⟨hid, (onlyPort_of _ _).2, by
      rw [State.port_updPort_self]; exact ⟨⟨rfl, rfl, rfl, rfl, rfl⟩, .inr ⟨rfl, .raw, rfl, by simp⟩⟩⟩
  · obtain ⟨hid, hk⟩ := (onIdlePort_next _ _ _).1 h
    injection hk with hk; subst hk
    exact ⟨hid, (onlyPort_of _ _).1, by
      rw [State.port_updPort_self]; exact ⟨⟨rfl, rfl, rfl, rfl, rfl⟩, .inl ⟨rfl, rfl, rfl, rfl⟩⟩⟩

/-- A frame does what the arrival of its bytes does (R102, R257). -/
theorem exec_frame (i : Instr) (s : State) (hi : frameBytes i ≠ []) : exec i s = arrive (frameBytes i) s := by
  cases i <;> first | rfl | exact absurd rfl hi

end Sys2Proof.Machine
end

