-- ==== Sys2Proof/Laws/Step.lean ====
section
/-! SUPPORT. What one step can do: every move of every agent, once. -/

namespace Sys2Proof.Machine

theorem onHostPort_next (s t : State) (p : PortId) (k : Host.Outcome State Fault Refusal) :
    onHostPort s p k = .next t ↔ s.hasPort p = true ∧ s.isIdle p = true ∧ k = .next t := by
  unfold onHostPort
  split
  · split <;> simp [*]
  · simp [*]

/-- Bytes on the line do the same whether they are a frame or not (R257). -/
theorem wireMove_eq_arrive (bs : List Byte) (s : State) : wireMove bs s = arrive bs s := by
  unfold wireMove
  split
  · next i hi =>
    have hb := frameBytes_of_decodeFrame bs i hi
    have hne : frameBytes i ≠ [] := by
      rw [hb]
      rintro rfl
      cases hi
    rw [exec_frame i s hne, hb]
  · rfl

/-- The host's operand writes, as updates of one port (R33 to R35, R345). -/
inductive OperandWrite : (Port → Port) → Prop where
  | din (off : Nat) (bs : List Byte) (h : off + bs.length ≤ Config.bufMax) : OperandWrite (Port.putDin off bs)
  | payload (v : Word) : OperandWrite (Port.putPayload v)
  | fields (f : FieldRecord) (h : f.fits f.reg = true) : OperandWrite (Port.putFields f)

/-- Everything a move can do when it answers a next state. -/
theorem applyInput_next (i : Input) (s t : State) (h : applyInput i s = .next t) :
    (∃ p f, OperandWrite f ∧ s.portOf i = some p ∧ s.hasPort p = true ∧ s.isIdle p = true ∧ t = s.updPort p f) ∨
    (∃ p w c, i = .issue p w ∧ s.hasPort p = true ∧ s.isIdle p = true ∧ decodeCommand w = .ok c ∧
      exec c (s.beginCommand p w) = .next t) ∨
    (∃ v, t = { s with readout := v }) ∨
    (∃ p, i = .grant p ∧ grant p s = .next t) ∨
    (∃ a, i = .answer a ∧ answer a s = .next t) ∨
    (∃ bs, i = .wire bs ∧ arrive bs s = .next t) := by
  cases i with
  | writeDin p off bs =>
    obtain ⟨hp, hi, hk⟩ := (onHostPort_next _ _ _ _).1 h
    unfold hostWriteDin at hk
    split at hk
    · next hb => exact .inl ⟨p, _, .din off bs hb, rfl, hp, hi, by simpa using hk.symm⟩
    · cases hk
  | writePayload p v =>
    obtain ⟨hp, hi, hk⟩ := (onHostPort_next _ _ _ _).1 h
    exact .inl ⟨p, _, .payload v, rfl, hp, hi, by simpa using hk.symm⟩
  | writeFields p f =>
    obtain ⟨hp, hi, hk⟩ := (onHostPort_next _ _ _ _).1 h
    unfold hostWriteFields at hk
    split at hk
    · next hb => exact .inl ⟨p, _, .fields f hb, rfl, hp, hi, by simpa using hk.symm⟩
    · cases hk
  | issue p w =>
    simp only [applyInput, issue] at h
    split at h
    · next hp =>
      split at h
      · next hi =>
        split at h
        · cases h
        · next c hc => exact .inr (.inl ⟨p, w, c, rfl, hp, hi, hc, h⟩)
      · cases h
    · cases h
  | wait p =>
    simp only [applyInput] at h
    split at h
    · exact .inr (.inr (.inl ⟨s.readout, by simpa using h.symm⟩))
    · cases h
  | read p l =>
    obtain ⟨_, _, hk⟩ := (onHostPort_next _ _ _ _).1 h
    unfold hostRead at hk
    split at hk
    · next v _ => exact .inr (.inr (.inl ⟨some v, by simpa using hk.symm⟩))
    · cases hk
  | grant p => exact .inr (.inr (.inr (.inl ⟨p, rfl, h⟩)))
  | answer a => exact .inr (.inr (.inr (.inr (.inl ⟨a, rfl, h⟩))))
  | wire bs =>
    exact .inr (.inr (.inr (.inr (.inr ⟨bs, rfl, by rw [← wireMove_eq_arrive]; exact h⟩))))

/-- Whose step it is, and which answer it brings, where no move is given. -/
theorem State.environment_of_nil (s : State) (h : s.inputs = []) :
    s.movingPort = s.environmentPort ∧ s.stepAnswer = s.environmentAnswer := by
  simp [State.movingPort, State.stepAnswer, h]

/-- The same while the host waits for a busy port. -/
theorem State.environment_of_wait (s : State) (i : Input) (rest : List Input) (h : s.inputs = i :: rest)
    (hw : s.stillWaits i = true) : s.movingPort = s.environmentPort ∧ s.stepAnswer = s.environmentAnswer := by
  simp [State.movingPort, State.stepAnswer, h, hw]

/-- The same for a move that is taken. -/
theorem State.move_of_input (s : State) (i : Input) (rest : List Input) (h : s.inputs = i :: rest)
    (hw : ¬ s.stillWaits i = true) : s.movingPort = s.portOf i ∧ s.stepAnswer = s.answerOf i := by
  simp [State.movingPort, State.stepAnswer, h, hw]

/-- A step is the environment's own turn, for the environment's port and with its answer; or it takes the first move from
the inputs, for that move's port and with that move's answer. -/
theorem step_next (s t : State) (h : step s = .next t) :
    (environmentTurn s = .next t ∧ s.movingPort = s.environmentPort ∧ s.stepAnswer = s.environmentAnswer) ∨
      ∃ i rest, s.inputs = i :: rest ∧ s.movingPort = s.portOf i ∧ s.stepAnswer = s.answerOf i ∧
        applyInput i { s with inputs := rest } = .next t := by
  unfold step turn at h
  split at h
  · next hi => exact .inl ⟨h, s.environment_of_nil hi⟩
  · next i rest hi =>
    split at h
    · next hw => exact .inl ⟨h, s.environment_of_wait i rest hi hw⟩
    · next hw =>
      obtain ⟨hm, ha⟩ := s.move_of_input i rest hi hw
      exact .inr ⟨i, rest, hi, hm, ha, h⟩

/-- What a step can be for one port. -/
inductive PortMove (s t : State) (p : PortId) : Prop where
  /-- The step was not this port's; a lock that the port holds stays held. -/
  | stays (h : t.port p = s.port p) (hl : s.lockOwner = some p → t.lockOwner = some p)
  /-- The host wrote an operand (R345). -/
  | operandWrite (f : Port → Port) (hm : s.movingPort = some p) (hf : OperandWrite f) (hi : s.isIdle p = true)
      (h : t.port p = f (s.port p))
  /-- The host issued a command, which ran in `s'` (R32). -/
  | command (w : Word) (c : Instr) (s' : State) (hm : s.movingPort = some p)
      (hin : ∃ rest, s.inputs = .issue p w :: rest) (hi : s.isIdle p = true) (hc : decodeCommand w = .ok c)
      (hp : s'.cur = p) (hs : s'.port p = (s.port p).putCmd w) (h : exec c s' = .next t)
  /-- The arbiter granted the bus to it (R252). -/
  | granted (ph : Phase) (hm : s.movingPort = some p) (hl : s.lockOwner = none) (hs : (s.port p).seq = .waitLock ph)
      (ht : t.lockOwner = some p) (h : t.port p = { s.port p with seq := .xchg ph })
  /-- The transport ended its exchange (R254). -/
  | answered (a : Answer) (ph : Phase) (hm : s.movingPort = some p) (ha : s.stepAnswer = some a)
      (hf : answerFits a (s.port p) = true) (hl : s.lockOwner = some p) (hs : (s.port p).seq = .xchg ph)
      (h : continueCommand ph a (s.port p) = .ok (t.port p)) (ht : t.lockOwner = none)

/-- Every step, seen from one port. -/
theorem step_portMove (s t : State) (p : PortId) (h : step s = .next t) : t.nports = s.nports ∧ PortMove s t p := by
  have hg : ∀ (s0 : State) (p0 : PortId), grant p0 s0 = .next t → s.movingPort = some p0 → s0.nports = s.nports →
      s0.ports = s.ports → s0.lockOwner = s.lockOwner → t.nports = s.nports ∧ PortMove s t p := by
    intro s0 p0 h hm e1 e2 e3
    have hport : ∀ p, s0.port p = s.port p := by intro p; simp [State.port, e2]
    obtain ⟨ph, tx, n, h1, h2, h3, h4, rfl⟩ := (grant_next _ _ _).1 h
    by_cases hp : p = p0
    · subst hp
      exact ⟨e1, .granted ph hm (e3 ▸ h1) (hport p ▸ h2) rfl (by rw [State.port_takeLock_self, hport])⟩
    · exact ⟨e1, .stays (by rw [State.port_takeLock_other _ _ _ _ _ _ hp, hport])
        (fun hl => by rw [← e3, h1] at hl; cases hl)⟩
  have ha : ∀ (s0 : State) (a0 : Answer), answer a0 s0 = .next t → s.movingPort = s.lockOwner →
      s.stepAnswer = some a0 → s0.nports = s.nports → s0.ports = s.ports → s0.lockOwner = s.lockOwner →
      t.nports = s.nports ∧ PortMove s t p := by
    intro s0 a0 h hm hb e1 e2 e3
    have hport : ∀ p, s0.port p = s.port p := by intro p; simp [State.port, e2]
    obtain ⟨p0, ph, q, h1, h2, h3, h4, rfl⟩ := (answer_next _ _ _).1 h
    by_cases hp : p = p0
    · subst hp
      exact ⟨e1, .answered a0 ph (hm.trans (e3 ▸ h1)) hb (hport p ▸ h3) (e3 ▸ h1) (hport p ▸ h2)
        (by rw [← hport p, h4, State.port_endExchange_self]) rfl⟩
    · exact ⟨e1, .stays (by rw [State.port_endExchange_other _ _ _ _ _ hp, hport])
        (fun hl => by rw [← e3, h1] at hl; injection hl with hl; exact absurd hl.symm hp)⟩
  rcases step_next s t h with ⟨h, hm, hb⟩ | ⟨i, rest, hin, hm, hb, hmv⟩
  · rcases environmentTurn_next _ _ h with ⟨n, hn, h⟩ | ⟨p0, hn, hc, h⟩ | ⟨_, _, rfl⟩
    · exact ha _ _ h (by rw [hm, State.environmentPort, hn]) (by rw [hb, State.environmentAnswer, hn]; rfl) rfl rfl rfl
    · exact hg _ _ h (by rw [hm, State.environmentPort, hn]; exact hc) rfl rfl rfl
    · exact ⟨rfl, .stays rfl id⟩
  · rcases applyInput_next _ _ _ hmv with ⟨p0, f, hf, hpo, hp, hi, rfl⟩ | ⟨p0, w, c, rfl, hp, hi, hc, h⟩ | ⟨v, rfl⟩ |
      ⟨p0, rfl, hk⟩ | ⟨a, rfl, hk⟩ | ⟨bs, rfl, hk⟩
    · by_cases hp : p = p0
      · subst hp; exact ⟨rfl, .operandWrite f (hm.trans hpo) hf hi (State.port_updPort_self _ _ _)⟩
      · exact ⟨rfl, .stays (State.port_updPort_other _ _ _ _ hp) id⟩
    · have honly := (exec_command_next _ _ _ (frameBytes_of_decodeCommand _ _ hc) h).2.1
      by_cases hp : p = p0
      · subst hp
        exact ⟨honly.nports, .command w c (State.beginCommand { s with inputs := rest } p w) hm ⟨rest, hin⟩ hi hc rfl
          (State.port_beginCommand_self _ _ _) h⟩
      · exact ⟨honly.nports, .stays (by rw [honly.others p hp]; exact State.port_beginCommand_other _ _ _ _ hp)
          (fun hl => honly.lockOwner.trans hl)⟩
    · exact ⟨rfl, .stays rfl id⟩
    · exact hg _ _ hk hm rfl rfl rfl
    · exact ha _ _ hk hm hb rfl rfl rfl
    · rcases arrive_next _ _ _ hk with rfl | ⟨n, hn, hle, hk⟩
      · exact ⟨rfl, .stays rfl id⟩
      · have hw : s.wanted = some n := hn
        exact ha _ _ hk hm (by rw [hb, State.answerOf, hw]; exact if_pos hle) rfl rfl rfl

end Sys2Proof.Machine
end

