-- ==== Sys2Proof/Laws/Good.lean ====
section
/-! SUPPORT. A port in good order: what it is, that every command leaves one, and that an exchange's end never stops on
one and leaves one. -/

namespace Sys2Proof.Machine

/-- The record of a payload is a record of its register (R35). -/
theorem recordOk_fieldsOf (r : Reg) (v : Word) : recordOk (some (fieldsOf r v)) = true := fieldsOf_fits r v

/-- A port that ends its command is in good order if its buffers and records are (R38). -/
theorem Port.finish_ok (q : Port) (st : Status) (h : q.din.ok = true) (h2 : q.dout.ok = true)
    (h3 : recordOk q.fields = true) (h4 : recordOk q.rfields = true) : (q.finish st).ok = true := by
  simp [Port.ok, Port.seqOk, Port.finish, h, h2, h3, h4]

/-- The five parts of good order. -/
theorem Port.ok_iff (q : Port) :
    q.ok = true ↔ q.din.ok = true ∧ q.dout.ok = true ∧ recordOk q.fields = true ∧ recordOk q.rfields = true ∧
      q.seqOk = true := by
  simp [Port.ok, and_assoc]

/-- Filling DOUT from index 0 keeps it in order (R40). -/
theorem Memory.writeBytes_zero_ok (m : Memory) (bs : List Byte) (h : m.ok = true) (hb : bs.length ≤ 256) :
    (m.writeBytes 0 bs).ok = true :=
  Memory.writeBytes_ok _ _ _ h (by simpa [Config.bufMax] using hb)

/-- A command word's instruction leaves its port in good order, with the latches its phase needs (R37, R256, R290,
R296). -/
theorem exec_port_ok (i : Instr) (s t : State) (w : Word) (hw : decodeCommand w = .ok i)
    (hc : (s.port s.cur).cmd = some w) (hok : (s.port s.cur).ok = true) (h : exec i s = .next t) : (t.port s.cur).ok = true := by
  obtain ⟨h1, h2, h3, h4, -⟩ := (Port.ok_iff _).1 hok
  rcases decodeCommand_ok w i hw with ⟨_, rfl⟩ | ⟨_, _, rfl⟩ | ⟨_, rfl⟩ | ⟨_, rfl⟩ | ⟨_, x, hx, rfl⟩ | ⟨_, x, hx, rfl⟩ |
    ⟨_, x, hx, rfl⟩ | ⟨ho, rfl⟩ | ⟨ho, x, hx, rfl⟩ | ⟨ho, x, hx, rfl⟩ | ⟨_, rfl⟩
  · obtain ⟨_, hk⟩ := (onIdlePort_next _ _ _).1 h; injection hk with hk; subst hk
    rw [State.port_updPort_self]; exact Port.finish_ok _ _ h1 (Memory.writeBytes_zero_ok _ _ h2 (by simp)) h3 h4
  · obtain ⟨_, hk⟩ := (onIdlePort_next _ _ _).1 h
    split at hk
    · cases hk
    · injection hk with hk; subst hk
      rw [State.port_updPort_self]; exact Port.finish_ok _ _ h1 h2 h3 h4
  · obtain ⟨_, hk⟩ := (onIdlePort_next _ _ _).1 h; injection hk with hk; subst hk
    rw [State.port_updPort_self]
    unfold Port.putFrame
    split
    · next f hf => exact Port.finish_ok _ _ h1 (Memory.writeBytes_zero_ok _ _ h2 (by rw [encRead_length _ _ _ hf]; decide)) h3 h4
    · exact Port.finish_ok _ _ h1 h2 h3 h4
  · obtain ⟨_, hk⟩ := (onIdlePort_next _ _ _).1 h; injection hk with hk; subst hk
    rw [State.port_updPort_self]
    unfold Port.putFrame
    split
    · next f hf => exact Port.finish_ok _ _ h1 (Memory.writeBytes_zero_ok _ _ h2 (by rw [encWrite_length _ _ _ _ hf]; decide)) h3 h4
    · exact Port.finish_ok _ _ h1 h2 h3 h4
  · obtain ⟨_, hk⟩ := (onIdlePort_next _ _ _).1 h; injection hk with hk; subst hk
    rw [State.port_updPort_self]
    unfold Port.putReply
    split
    · next v f hf => exact Port.finish_ok _ _ h1 h2 h3 (by rw [decReply_ok_fits _ _ _ _ hf]; exact recordOk_fieldsOf _ _)
    · exact Port.finish_ok _ _ h1 h2 h3 h4
  · obtain ⟨_, hk⟩ := (onIdlePort_next _ _ _).1 h; injection hk with hk; subst hk
    rw [State.port_updPort_self]
    unfold Port.putUnpacked
    split
    · next f hf => exact Port.finish_ok _ _ h1 h2 h3 (by rw [unpack_ok _ _ _ hf]; exact recordOk_fieldsOf _ _)
    · exact Port.finish_ok _ _ h1 h2 h3 h4
  · obtain ⟨_, hk⟩ := (onIdlePort_next _ _ _).1 h; injection hk with hk; subst hk
    rw [State.port_updPort_self]; exact Port.finish_ok _ _ h1 h2 h3 h4
  · obtain ⟨_, hk⟩ := (onIdlePort_next _ _ _).1 h; injection hk with hk; subst hk
    rw [State.port_updPort_self]
    refine (Port.ok_iff _).2 ⟨h1, h2, h3, h4, ?_⟩
    simp [Port.seqOk, Port.phaseOk, hc, ho]
  · rw [exec_readForm] at h
    obtain ⟨_, hk⟩ := (onIdlePort_next _ _ _).1 h; injection hk with hk; subst hk
    rw [readRegister_port]
    split
    · next ha =>
      refine (Port.ok_iff _).2 ⟨h1, h2, h3, h4, ?_⟩
      simp [Port.seqOk, Port.phaseOk, hc, ho, Port.cmdReg, ← hx, encRead_ok _ _ ha, Except.toOption]
    · exact Port.finish_ok _ _ h1 h2 h3 h4
  · rw [exec_writeForm] at h
    obtain ⟨_, hk⟩ := (onIdlePort_next _ _ _).1 h; injection hk with hk; subst hk
    rw [writeRegister_port]
    split
    · next ha =>
      refine (Port.ok_iff _).2 ⟨h1, h2, h3, h4, ?_⟩
      simp [Port.seqOk, Port.phaseOk, hc, ho, Port.cmdReg, ← hx, encRead_ok _ _ ha, Except.toOption]
    · exact Port.finish_ok _ _ h1 h2 h3 h4
  · obtain ⟨_, hk⟩ := (onIdlePort_next _ _ _).1 h; injection hk with hk; subst hk
    rw [State.port_updPort_self]; exact Port.finish_ok _ _ h1 h2 h3 h4

theorem encRead_toOption_le (a r : Byte) (f : List Byte) (h : (encRead a r).toOption = some f) : a ≤ Config.maxDriverAddr := by
  by_contra hc
  rw [encRead_error _ _ (by simpa using hc)] at h
  cases h

theorem writeThenRead_ok (a w : Byte) (v : Word) (h : a ≤ Config.maxDriverAddr) : ∃ tx, writeThenRead a w v = .ok tx := by
  simp [writeThenRead, encWrite_ok _ _ _ h, encRead_ok _ _ h]

/-- On a port in good order, every fitting answer ends the exchange, and leaves the port in good order (R254). -/
theorem continueCommand_port_ok (ph : Phase) (a : Answer) (q : Port) (hq : q.ok = true) (hs : q.seq = .xchg ph)
    (hf : answerFits a q = true) : ∃ q', continueCommand ph a q = .ok q' ∧ q'.ok = true := by
  obtain ⟨h1, h2, h3, h4, h5⟩ := (Port.ok_iff _).1 hq
  simp only [Port.seqOk, hs, Port.phaseOk] at h5
  cases a with
  | timeout => exact ⟨_, rfl, Port.finish_ok _ _ h1 h2 h3 h4⟩
  | ioError => exact ⟨_, rfl, Port.finish_ok _ _ h1 h2 h3 h4⟩
  | bytes rx =>
    split at h5
    · next tx n w htx hn hw =>
      simp only [answerFits, hn, Option.map_some, beq_iff_eq, Option.some.injEq] at hf
      cases ph with
      | raw =>
        exact ⟨_, rfl, Port.finish_ok _ _ h1 (Memory.writeBytes_zero_ok _ _ h2 (by have := n.isLt; omega)) h3 h4⟩
      | rd =>
        simp only [Bool.and_eq_true, Option.isSome_iff_exists] at h5
        obtain ⟨⟨⟨_, x, hx⟩, _⟩, _⟩ := h5
        simp only [continueCommand, continueRd, hx]
        refine ⟨_, rfl, ?_⟩
        unfold Port.putReply
        split
        · next v f hf => exact Port.finish_ok _ _ h1 h2 h3 (by rw [decReply_ok_fits _ _ _ _ hf]; exact recordOk_fieldsOf _ _)
        · exact Port.finish_ok _ _ h1 h2 h3 h4
      | wb =>
        simp only [Bool.and_eq_true, Option.isSome_iff_exists, beq_iff_eq] at h5
        obtain ⟨⟨⟨⟨⟨ho, x, hx⟩, hwr⟩, pay, hpay⟩, _⟩, henc⟩ := h5
        have ha := encRead_toOption_le _ _ _ henc
        obtain ⟨tx', htx'⟩ := writeThenRead_ok q.cfgAddr (rOf w) pay ha
        simp only [continueCommand, continueWb]
        split
        · exact ⟨_, rfl, Port.finish_ok _ _ h1 h2 h3 h4⟩
        · simp only [hwr, hpay, htx']
          refine ⟨_, rfl, (Port.ok_iff _).2 ⟨h1, h2, h3, h4, ?_⟩⟩
          simp [Port.seqOk, Port.phaseOk, hw, ho, Port.cmdReg, hwr, hpay, htx', Except.toOption] 
          simpa [Port.cmdReg, hw] using congrArg Option.isSome hx
      | wm =>
        simp only [Bool.and_eq_true, Option.isSome_iff_exists, beq_iff_eq] at h5
        obtain ⟨⟨⟨_, b, hb⟩, _⟩, _⟩ := h5
        simp only [continueCommand, continueWm]
        split
        · exact ⟨_, rfl, Port.finish_ok _ _ h1 h2 h3 h4⟩
        · simp only [hb]
          exact ⟨_, rfl, Port.finish_ok _ _ h1 h2 h3 h4⟩
    · cases h5

theorem Port.inXchg_iff (q : Port) : q.inXchg = true ↔ ∃ ph, q.seq = .xchg ph := by
  unfold Port.inXchg; split <;> simp [*]

/-- A port that waits or is in XCHG in good order has its latches written (R37, R251). -/
theorem Port.phaseOk_latches (q : Port) (ph : Phase) (h : q.phaseOk ph = true) :
    ∃ tx n w, q.txb = some tx ∧ q.rxlen = some n ∧ q.cmd = some w := by
  unfold Port.phaseOk at h
  split at h
  · exact ⟨_, _, _, ‹_›, ‹_›, ‹_›⟩
  · cases h

/-- The invariant speaks of the ports, the lock, the exchange, the port count and the issuing port only. -/
theorem State.Inv.congr (s t : State) (hI : s.Inv) (h1 : t.nports = s.nports) (h2 : t.ports = s.ports)
    (h3 : t.lockOwner = s.lockOwner) (h4 : t.xfer = s.xfer) (h5 : t.cur = s.cur) : t.Inv := by
  have hp : ∀ p, t.port p = s.port p := by intro p; simp [State.port, h2]
  refine ⟨h1 ▸ hI.nports, ?_, ?_, ?_, ?_, ?_⟩
  · simpa [State.hasPort, h1, h5] using hI.cur
  · intro p; rw [hp]; exact hI.ports p
  · intro p hq; have := hI.absent p (by simpa [State.hasPort, h1] using hq); simpa [State.isIdle, hp] using this
  · intro p; rw [hp, h3]; exact hI.lock p
  · rw [h4, hI.xfer]; simp [State.expectedXfer, hp, h3]

end Sys2Proof.Machine
end

