-- ==== Sys2Proof/Laws/PerInstr.lean ====
section
/-! SUPPORT. For every instruction: its encoding has the fixed bits of its row of spec/opcode_table.json. -/

namespace Sys2Proof

/-- The row's fixed fields as the table gives them: (highest bit, lowest bit, value). -/
def tableFixed : Instr → List (Nat × Nat × Nat)
  | .crc8 _ => [(31, 24, 0x01)]
  | .crcCheck _ => [(31, 24, 0x02)]
  | .encRd _ _ => [(31, 24, 0x10)]
  | .encWr _ _ => [(31, 24, 0x11)]
  | .decReply _ _ => [(31, 24, 0x12)]
  | .unpack _ => [(31, 24, 0x20)]
  | .pack _ => [(31, 24, 0x21)]
  | .exchange _ _ => [(31, 24, 0x30)]
  | .readReg _ => [(31, 24, 0x40)]
  | .writeReg _ => [(31, 24, 0x41)]
  | .verify _ _ => [(31, 24, 0x42)]
  | .rdGconf => [(15, 8, 0x00), (31, 24, 0x40)]
  | .rdGstat => [(15, 8, 0x01), (31, 24, 0x40)]
  | .rdIfcnt => [(15, 8, 0x02), (31, 24, 0x40)]
  | .rdNodeconf => [(15, 8, 0x03), (31, 24, 0x40)]
  | .rdIoin => [(15, 8, 0x06), (31, 24, 0x40)]
  | .rdIholdIrun => [(15, 8, 0x10), (31, 24, 0x40)]
  | .rdTpowerdown => [(15, 8, 0x11), (31, 24, 0x40)]
  | .rdTstep => [(15, 8, 0x12), (31, 24, 0x40)]
  | .rdTpwmthrs => [(15, 8, 0x13), (31, 24, 0x40)]
  | .rdTcoolthrs => [(15, 8, 0x14), (31, 24, 0x40)]
  | .rdVactual => [(15, 8, 0x22), (31, 24, 0x40)]
  | .rdChopconf => [(15, 8, 0x6C), (31, 24, 0x40)]
  | .rdPwmconf => [(15, 8, 0x70), (31, 24, 0x40)]
  | .wrGconf => [(15, 8, 0x00), (31, 24, 0x41)]
  | .wrGstat => [(15, 8, 0x01), (31, 24, 0x41)]
  | .wrIfcnt => [(15, 8, 0x02), (31, 24, 0x41)]
  | .wrNodeconf => [(15, 8, 0x03), (31, 24, 0x41)]
  | .wrIoin => [(15, 8, 0x06), (31, 24, 0x41)]
  | .wrIholdIrun => [(15, 8, 0x10), (31, 24, 0x41)]
  | .wrTpowerdown => [(15, 8, 0x11), (31, 24, 0x41)]
  | .wrTstep => [(15, 8, 0x12), (31, 24, 0x41)]
  | .wrTpwmthrs => [(15, 8, 0x13), (31, 24, 0x41)]
  | .wrTcoolthrs => [(15, 8, 0x14), (31, 24, 0x41)]
  | .wrVactual => [(15, 8, 0x22), (31, 24, 0x41)]
  | .wrChopconf => [(15, 8, 0x6C), (31, 24, 0x41)]
  | .wrPwmconf => [(15, 8, 0x70), (31, 24, 0x41)]
  | .frameReadRequest .. => [(15, 15, 0), (31, 18, 320)]
  | .frameWriteRequest .. => [(47, 47, 1), (55, 50, 0), (63, 56, 5)]
  | .frameReply .. => [(47, 47, 0), (55, 48, 255), (63, 56, 5)]

/-- Bits hi..lo of a number. -/
def bitsOf (w hi lo : Nat) : Nat := w / 2 ^ lo % 2 ^ (hi + 1 - lo)

end Sys2Proof

namespace Sys2Proof.Laws

/-- The encoding has the row's fixed bits, and no bit above the row's length. -/
def TableRow.Statement (i : Instr) : Prop :=
  (∀ x ∈ tableFixed i, bitsOf (encodeWord i) x.1 x.2.1 = x.2.2) ∧ encodeWord i < 2 ^ encodeBits i

/-- A command word as a number: its fields in order (R110). -/
theorem commandWord_toNat (o a r n : Byte) :
    (commandWord o a r n).toNat = o.toNat * 2 ^ 24 + a.toNat * 2 ^ 16 + r.toNat * 2 ^ 8 + n.toNat := by
  have join : ∀ {k : Nat} (x : BitVec k) (y : Byte), (x ++ y).toNat = x.toNat * 2 ^ 8 + y.toNat := fun x y => by
    rw [BitVec.toNat_append, ← Nat.shiftLeft_add_eq_or_of_lt y.isLt, Nat.shiftLeft_eq]
  simp only [commandWord, joinBytes, join]
  omega

/-- The highest byte of a command word is its OPC (R110). -/
theorem commandWord_opc (o a r n : Byte) :
    (∀ x ∈ [((31, 24, o.toNat) : Nat × Nat × Nat)], bitsOf (commandWord o a r n).toNat x.1 x.2.1 = x.2.2) ∧
      (commandWord o a r n).toNat < 2 ^ 32 := by
  refine ⟨?_, (commandWord o a r n).isLt⟩
  simp only [List.mem_singleton, forall_eq, commandWord_toNat, bitsOf]
  have := o.isLt; have := a.isLt; have := r.isLt; have := n.isLt
  omega

theorem TableRow.crc8 (n : Byte) : TableRow.Statement (.crc8 n) := commandWord_opc 0x01 _ _ _
theorem TableRow.crcCheck (n : Byte) : TableRow.Statement (.crcCheck n) := commandWord_opc 0x02 _ _ _
theorem TableRow.encRd (a r : Byte) : TableRow.Statement (.encRd a r) := commandWord_opc 0x10 _ _ _
theorem TableRow.encWr (a r : Byte) : TableRow.Statement (.encWr a r) := commandWord_opc 0x11 _ _ _
theorem TableRow.decReply (r : Reg) (n : Byte) : TableRow.Statement (.decReply r n) := commandWord_opc 0x12 _ _ _
theorem TableRow.unpack (r : Reg) : TableRow.Statement (.unpack r) := commandWord_opc 0x20 _ _ _
theorem TableRow.pack (r : Reg) : TableRow.Statement (.pack r) := commandWord_opc 0x21 _ _ _
theorem TableRow.exchange (a n : Byte) : TableRow.Statement (.exchange a n) := commandWord_opc 0x30 _ _ _
theorem TableRow.readReg (r : Reg) : TableRow.Statement (.readReg r) := commandWord_opc 0x40 _ _ _
theorem TableRow.writeReg (r : Reg) : TableRow.Statement (.writeReg r) := commandWord_opc 0x41 _ _ _
theorem TableRow.verify (a n : Byte) : TableRow.Statement (.verify a n) := commandWord_opc 0x42 _ _ _

theorem TableRow.rdGconf : TableRow.Statement .rdGconf := by
  unfold TableRow.Statement; decide
theorem TableRow.rdGstat : TableRow.Statement .rdGstat := by
  unfold TableRow.Statement; decide
theorem TableRow.rdIfcnt : TableRow.Statement .rdIfcnt := by
  unfold TableRow.Statement; decide
theorem TableRow.rdNodeconf : TableRow.Statement .rdNodeconf := by
  unfold TableRow.Statement; decide
theorem TableRow.rdIoin : TableRow.Statement .rdIoin := by
  unfold TableRow.Statement; decide
theorem TableRow.rdIholdIrun : TableRow.Statement .rdIholdIrun := by
  unfold TableRow.Statement; decide
theorem TableRow.rdTpowerdown : TableRow.Statement .rdTpowerdown := by
  unfold TableRow.Statement; decide
theorem TableRow.rdTstep : TableRow.Statement .rdTstep := by
  unfold TableRow.Statement; decide
theorem TableRow.rdTpwmthrs : TableRow.Statement .rdTpwmthrs := by
  unfold TableRow.Statement; decide
theorem TableRow.rdTcoolthrs : TableRow.Statement .rdTcoolthrs := by
  unfold TableRow.Statement; decide
theorem TableRow.rdVactual : TableRow.Statement .rdVactual := by
  unfold TableRow.Statement; decide
theorem TableRow.rdChopconf : TableRow.Statement .rdChopconf := by
  unfold TableRow.Statement; decide
theorem TableRow.rdPwmconf : TableRow.Statement .rdPwmconf := by
  unfold TableRow.Statement; decide
theorem TableRow.wrGconf : TableRow.Statement .wrGconf := by
  unfold TableRow.Statement; decide
theorem TableRow.wrGstat : TableRow.Statement .wrGstat := by
  unfold TableRow.Statement; decide
theorem TableRow.wrIfcnt : TableRow.Statement .wrIfcnt := by
  unfold TableRow.Statement; decide
theorem TableRow.wrNodeconf : TableRow.Statement .wrNodeconf := by
  unfold TableRow.Statement; decide
theorem TableRow.wrIoin : TableRow.Statement .wrIoin := by
  unfold TableRow.Statement; decide
theorem TableRow.wrIholdIrun : TableRow.Statement .wrIholdIrun := by
  unfold TableRow.Statement; decide
theorem TableRow.wrTpowerdown : TableRow.Statement .wrTpowerdown := by
  unfold TableRow.Statement; decide
theorem TableRow.wrTstep : TableRow.Statement .wrTstep := by
  unfold TableRow.Statement; decide
theorem TableRow.wrTpwmthrs : TableRow.Statement .wrTpwmthrs := by
  unfold TableRow.Statement; decide
theorem TableRow.wrTcoolthrs : TableRow.Statement .wrTcoolthrs := by
  unfold TableRow.Statement; decide
theorem TableRow.wrVactual : TableRow.Statement .wrVactual := by
  unfold TableRow.Statement; decide
theorem TableRow.wrChopconf : TableRow.Statement .wrChopconf := by
  unfold TableRow.Statement; decide
theorem TableRow.wrPwmconf : TableRow.Statement .wrPwmconf := by
  unfold TableRow.Statement; decide

theorem TableRow.frameReadRequest (addr : BitVec 2) (reg : BitVec 7) (crc : Byte) :
    TableRow.Statement (.frameReadRequest addr reg crc) := by
  have := addr.isLt; have := reg.isLt; have := crc.isLt
  simp only [TableRow.Statement, tableFixed, bitsOf, encodeWord, encodeBits, frameBytes, wireNat, addrByte, readAddrByte,
    Config.sync, List.foldl_cons, List.foldl_nil, List.forall_mem_cons, BitVec.toNat_setWidth, BitVec.reduceToNat]
  refine ⟨⟨?_, ?_, by simp⟩, ?_⟩ <;> omega

theorem TableRow.frameWriteRequest (addr : BitVec 2) (reg : BitVec 7) (p0 p1 p2 p3 crc : Byte) :
    TableRow.Statement (.frameWriteRequest addr reg p0 p1 p2 p3 crc) := by
  have := addr.isLt; have := reg.isLt; have := crc.isLt
  have := p0.isLt; have := p1.isLt; have := p2.isLt; have := p3.isLt
  simp only [TableRow.Statement, tableFixed, bitsOf, encodeWord, encodeBits, frameBytes, wireNat, addrByte, writeAddrByte,
    Config.sync, Config.writeOffset, List.foldl_cons, List.foldl_nil, List.forall_mem_cons, BitVec.toNat_setWidth,
    BitVec.reduceToNat, BitVec.toNat_add]
  refine ⟨⟨?_, ?_, ?_, by simp⟩, ?_⟩ <;> omega

theorem TableRow.frameReply (reg : BitVec 7) (p0 p1 p2 p3 crc : Byte) :
    TableRow.Statement (.frameReply reg p0 p1 p2 p3 crc) := by
  have := reg.isLt; have := crc.isLt
  have := p0.isLt; have := p1.isLt; have := p2.isLt; have := p3.isLt
  simp only [TableRow.Statement, tableFixed, bitsOf, encodeWord, encodeBits, frameBytes, wireNat, readAddrByte,
    Config.sync, Config.masterAddr, List.foldl_cons, List.foldl_nil, List.forall_mem_cons, BitVec.toNat_setWidth,
    BitVec.reduceToNat]
  refine ⟨⟨?_, ?_, ?_, by simp⟩, ?_⟩ <;> omega

end Sys2Proof.Laws
end

