-- ==== Sys2Proof/Tests/Slice0.lean ====
section
/-! SUPPORT. Tests. Words, frames and results are those of spec/95_test_vectors.md (its E, V and P tables) and of the
examples of the rules named; witnesses show that the hypotheses of the statements are met. -/

namespace Sys2Proof.Tests

open Sys2Proof Sys2Proof.Machine

set_option Elab.async false

/-! ### Small states -/

/-- The reset state with this port 0. -/
def at0 (q : Port) : State := State.reset.updPort 0 fun _ => q

/-- A port at an address with these bytes in DIN. -/
def dinPort (addr : Byte) (bs : List Byte) : Port := (Port.construct addr).putDin 0 bs

/-- Port 0 in XCHG, holding the lock. -/
def inFlight (ph : Phase) (q : Port) : State :=
  { at0 { q with seq := .xchg ph } with
    lockOwner := some 0
    xfer := some ⟨0, q.txb.getD [], q.rxlen.getD 0⟩ }

/-- A port that reads IFCNT of driver 0 (V6). -/
def reading : Port :=
  { Port.construct 0 with cmd := some 0x40000200, txb := some [0x05, 0x00, 0x02, 0x8F], rxlen := some 12 }

/-- A port that writes GCONF `0x141` to driver 0, before the IFCNT read (P2 step 1). -/
def beforeRead : Port :=
  { Port.construct 0 with
    cmd := some 0x41000000, wreg := some 0x00, wpay := some 0x00000141
    txb := some [0x05, 0x00, 0x02, 0x8F], rxlen := some 12 }

/-- The same port in its main exchange (P2 step 3). -/
def mainExchange : Port :=
  { beforeRead with
    before := some 7
    txb := some [0x05, 0x00, 0x80, 0x00, 0x00, 0x01, 0x41, 0x78, 0x05, 0x00, 0x02, 0x8F]
    rxlen := some 20 }

/-- A port whose EXCHANGE 4, 12 is in progress (V5). -/
def rawExchange : Port :=
  { dinPort 0 [0x05, 0x00, 0x02, 0x8F] with
    cmd := some 0x300C0004, txb := some [0x05, 0x00, 0x02, 0x8F], rxlen := some 12 }

/-- What a next state's port 0 shows; nothing on a fault or a refusal. -/
def shows {α : Type} (r : Host.Outcome State Fault Refusal) (f : Port → α) : Option α :=
  match r with
  | .next t => some (f (t.port 0))
  | .fault _ => none
  | .refused _ => none

/-- The refusal of a step. -/
def refusal (r : Host.Outcome State Fault Refusal) : Option Refusal :=
  match r with
  | .refused e => some e
  | .next _ => none
  | .fault _ => none

/-- The fault of a step. -/
def faultOf (r : Host.Outcome State Fault Refusal) : Option Fault :=
  match r with
  | .fault e => some e
  | .next _ => none
  | .refused _ => none

/-! ### Well-formedness: each check refuses an ill-formed term -/

theorem test_wf_crcCheck_zero : (Instr.crcCheck 0).wf = false := by decide +kernel
theorem test_wf_crcCheck_one : (Instr.crcCheck 1).wf = true := by decide +kernel
theorem test_wf_readRequest_badCrc : (Instr.frameReadRequest 1 0x00 0xFF).wf = false := by decide +kernel
theorem test_wf_readRequest : (Instr.frameReadRequest 1 0x00 0xFE).wf = true := by decide +kernel
theorem test_wf_writeRequest_badCrc : (Instr.frameWriteRequest 0 0x00 0x00 0x00 0x01 0x41 0x79).wf = false := by decide +kernel
theorem test_wf_writeRequest : (Instr.frameWriteRequest 0 0x00 0x00 0x00 0x01 0x41 0x78).wf = true := by decide +kernel
theorem test_wf_reply_badCrc : (Instr.frameReply 0x00 0x00 0x00 0x01 0x41 0xB4).wf = false := by decide +kernel
theorem test_wf_reply : (Instr.frameReply 0x00 0x00 0x00 0x01 0x41 0xB5).wf = true := by decide +kernel

/-! ### Decoding: words written out from R110, R111, R113 and R100 to R103 -/

-- OPC 00000001, N = 3
theorem test_decode_crc8 : decodeTableWord 32 0b00000001000000000000000000000011 = some (.crc8 3) := by decide +kernel
-- OPC 00000010, N = 8
theorem test_decode_crcCheck : decodeTableWord 32 0b00000010000000000000000000001000 = some (.crcCheck 8) := by decide +kernel
-- OPC 00010000, A = 1, R = 6C
theorem test_decode_encRd : decodeTableWord 32 0b00010000000000010110110000000000 = some (.encRd 1 0x6C) := by decide +kernel
-- OPC 00010001, A = 3, R = 80
theorem test_decode_encWr : decodeTableWord 32 0b00010001000000111000000000000000 = some (.encWr 3 0x80) := by decide +kernel
-- OPC 00010010, R = 01, N = 8
theorem test_decode_decReply : decodeTableWord 32 0b00010010000000000000000100001000 = some (.decReply .gstat 8) := by
  decide +kernel
-- OPC 00100000, R = 06
theorem test_decode_unpack : decodeTableWord 32 0b00100000000000000000011000000000 = some (.unpack .ioin) := by decide +kernel
-- OPC 00100001, R = 6C
theorem test_decode_pack : decodeTableWord 32 0b00100001000000000110110000000000 = some (.pack .chopconf) := by decide +kernel
-- OPC 00110000, A = 12, N = 4
theorem test_decode_exchange : decodeTableWord 32 0b00110000000011000000000000000100 = some (.exchange 12 4) := by decide +kernel
-- OPC 01000010, A = 255, N = 1
theorem test_decode_verify : decodeTableWord 32 0b01000010111111110000000000000001 = some (.verify 255 1) := by decide +kernel
-- READ_REG and WRITE_REG words are words of the per-register forms (R113, log entry 10)
theorem test_decode_readReg :
    decodeTableWord 32 (encodeWord (.readReg .vactual)) = some .rdVactual ∧ encodeWord (.readReg .vactual) = 0x40002200 := by
  decide +kernel
theorem test_decode_writeReg :
    decodeTableWord 32 (encodeWord (.writeReg .pwmconf)) = some .wrPwmconf ∧
      encodeWord (.writeReg .pwmconf) = 0x41007000 := by
  decide +kernel
-- fields an opcode does not list are ignored (R112)
theorem test_decode_ignored_fields : decodeTableWord 32 0x01FFFF03 = some (.crc8 3) := by decide +kernel
theorem test_decode_rdGconf : decodeTableWord 32 0b01000000000000000000000000000000 = some .rdGconf := by decide +kernel
theorem test_decode_rdGstat : decodeTableWord 32 0b01000000000000000000000100000000 = some .rdGstat := by decide +kernel
theorem test_decode_rdIfcnt : decodeTableWord 32 0b01000000000000000000001000000000 = some .rdIfcnt := by decide +kernel
theorem test_decode_rdNodeconf : decodeTableWord 32 0b01000000000000000000001100000000 = some .rdNodeconf := by decide +kernel
theorem test_decode_rdIoin : decodeTableWord 32 0b01000000000000000000011000000000 = some .rdIoin := by decide +kernel
theorem test_decode_rdIholdIrun : decodeTableWord 32 0b01000000000000000001000000000000 = some .rdIholdIrun := by decide +kernel
theorem test_decode_rdTpowerdown : decodeTableWord 32 0b01000000000000000001000100000000 = some .rdTpowerdown := by decide +kernel
theorem test_decode_rdTstep : decodeTableWord 32 0b01000000000000000001001000000000 = some .rdTstep := by decide +kernel
theorem test_decode_rdTpwmthrs : decodeTableWord 32 0b01000000000000000001001100000000 = some .rdTpwmthrs := by decide +kernel
theorem test_decode_rdTcoolthrs : decodeTableWord 32 0b01000000000000000001010000000000 = some .rdTcoolthrs := by decide +kernel
theorem test_decode_rdVactual : decodeTableWord 32 0b01000000000000000010001000000000 = some .rdVactual := by decide +kernel
theorem test_decode_rdChopconf : decodeTableWord 32 0b01000000000000000110110000000000 = some .rdChopconf := by decide +kernel
theorem test_decode_rdPwmconf : decodeTableWord 32 0b01000000000000000111000000000000 = some .rdPwmconf := by decide +kernel
theorem test_decode_wrGconf : decodeTableWord 32 0b01000001000000000000000000000000 = some .wrGconf := by decide +kernel
theorem test_decode_wrGstat : decodeTableWord 32 0b01000001000000000000000100000000 = some .wrGstat := by decide +kernel
theorem test_decode_wrIfcnt : decodeTableWord 32 0b01000001000000000000001000000000 = some .wrIfcnt := by decide +kernel
theorem test_decode_wrNodeconf : decodeTableWord 32 0b01000001000000000000001100000000 = some .wrNodeconf := by decide +kernel
theorem test_decode_wrIoin : decodeTableWord 32 0b01000001000000000000011000000000 = some .wrIoin := by decide +kernel
theorem test_decode_wrIholdIrun : decodeTableWord 32 0b01000001000000000001000000000000 = some .wrIholdIrun := by decide +kernel
theorem test_decode_wrTpowerdown : decodeTableWord 32 0b01000001000000000001000100000000 = some .wrTpowerdown := by decide +kernel
theorem test_decode_wrTstep : decodeTableWord 32 0b01000001000000000001001000000000 = some .wrTstep := by decide +kernel
theorem test_decode_wrTpwmthrs : decodeTableWord 32 0b01000001000000000001001100000000 = some .wrTpwmthrs := by decide +kernel
theorem test_decode_wrTcoolthrs : decodeTableWord 32 0b01000001000000000001010000000000 = some .wrTcoolthrs := by decide +kernel
theorem test_decode_wrVactual : decodeTableWord 32 0b01000001000000000010001000000000 = some .wrVactual := by decide +kernel
theorem test_decode_wrChopconf : decodeTableWord 32 0b01000001000000000110110000000000 = some .wrChopconf := by decide +kernel
theorem test_decode_wrPwmconf : decodeTableWord 32 0b01000001000000000111000000000000 = some .wrPwmconf := by decide +kernel
-- 00000101 aaaaaaaa rrrrrrrr cccccccc
theorem test_decode_frameReadRequest :
    decodeTableWord 32 0b00000101000000100110110010010001 = some (.frameReadRequest 2 0x6C 0x91) := by decide +kernel
-- 05 03 91 00 00 00 14 85
theorem test_decode_frameWriteRequest :
    decodeTableWord 64 0x0503910000001485 = some (.frameWriteRequest 3 0x11 0x00 0x00 0x00 0x14 0x85) := by decide +kernel
-- 05 FF 6C 10 01 00 53 5A
theorem test_decode_frameReply :
    decodeTableWord 64 0x05FF6C100100535A = some (.frameReply 0x6C 0x10 0x01 0x00 0x53 0x5A) := by decide +kernel
-- V9: reserved words
theorem test_decode_reserved :
    ([0x00000000, 0x03000000, 0x43000000, 0xFF000000, 0x40000400, 0x41008000, 0x12000508, 0x02000000].map
      (decodeTableWord 32)) = List.replicate 8 none := by decide +kernel
-- a request needs an address of at most 3 (R103)
theorem test_decode_frame_badAddress : decodeTableWord 32 0x05040000 = none := by decide +kernel

/-! ### The integrity checker (V1, E1, P1) -/

theorem test_crc8 :
    shows (exec (.crc8 3) (at0 (dinPort 0 [0x05, 0x01, 0x00]))) (fun q => (q.dout.read 0, q.doutLen, q.status)) =
      some (some 0xFE, some 1, some .ok) := by decide +kernel
theorem test_crc8_empty :
    shows (exec (.crc8 0) State.reset) (fun q => (q.dout.read 0, q.doutLen)) = some (some 0x00, some 1) := by decide +kernel
theorem test_crc8_function :
    [crc8 [0x01], crc8 [0x80], crc8 [0xFF], crc8 [0xAA], crc8 [0x05, 0xFF, 0x00], crc8 (List.replicate 7 0xFF)] =
      [0x89, 0x07, 0xF3, 0xAC, 0x9F, 0x0C] := by decide +kernel
-- R236: the register after byte 05
theorem test_crc8_trace : [crcByte 0x00 0x05, crcByte 0x69 0x01, crcByte 0x91 0x00] = [0x69, 0x91, 0xFE] := by decide +kernel
theorem test_crcCheck :
    shows (exec (.crcCheck 8) (at0 (dinPort 0 [0x05, 0xFF, 0x00, 0x00, 0x00, 0x01, 0x41, 0xB5]))) (fun q => q.status) =
      some (some .ok) := by decide +kernel
theorem test_crcCheck_mismatch :
    shows (exec (.crcCheck 8) (at0 (dinPort 0 [0x05, 0xFF, 0x00, 0x00, 0x00, 0x01, 0x41, 0xB4]))) (fun q => q.status) =
      some (some .crcMismatch) := by decide +kernel

/-! ### The codec (E3, E4, V3, V4) -/

theorem test_encRd :
    shows (exec (.encRd 3 0x00) State.reset) (fun q => (q.dout.firstBytes 4, q.doutLen, q.status)) =
      some ([0x05, 0x03, 0x00, 0xA5], some 4, some .ok) := by decide +kernel
theorem test_encRd_badAddress :
    shows (exec (.encRd 4 0x00) State.reset) (fun q => (q.doutLen, q.status)) =
      some (none, some .invalidDriverAddress) := by decide +kernel
theorem test_encWr :
    shows (exec (.encWr 3 0x80) (at0 ((Port.construct 0).putPayload 0x00000141)))
        (fun q => (q.dout.firstBytes 8, q.doutLen)) =
      some ([0x05, 0x03, 0x80, 0x00, 0x00, 0x01, 0x41, 0xE2], some 8) := by decide +kernel
theorem test_encWr_badAddress :
    shows (exec (.encWr 4 0x80) (at0 ((Port.construct 0).putPayload 0x00000141))) (fun q => (q.doutLen, q.status)) =
      some (none, some .invalidDriverAddress) := by decide +kernel
theorem test_decReply :
    shows (exec (.decReply .ioin 8) (at0 (dinPort 0 [0x05, 0xFF, 0x06, 0x21, 0x00, 0x02, 0x41, 0x9D])))
        (fun q => (q.result32, q.rfields.bind (·.get? .version), q.status)) =
      some (some 0x21000241, some 33, some .ok) := by decide +kernel
theorem test_decReply_zeros :
    shows (exec (.decReply .gconf 8) (at0 (dinPort 0 (List.replicate 8 0x00)))) (fun q => (q.result32, q.status)) =
      some (none, some .invalidSyncByte) := by decide +kernel
/-- The status of decoding a frame as a reply for a register. -/
def replyStatus (b : List Byte) (r : Reg) : Status :=
  match decReply b r with
  | .ok _ => .ok
  | .error e => e
-- E4: each field changed, the CRC kept and recomputed
theorem test_reply_rejection :
    [replyStatus [0x05, 0xFF, 0x00, 0x00, 0x00, 0x01, 0x41] .gconf,
      replyStatus [0x05, 0xFF, 0x00, 0x00, 0x00, 0x01, 0x41, 0xB5, 0x00] .gconf,
      replyStatus [0x04, 0xFF, 0x00, 0x00, 0x00, 0x01, 0x41, 0xB5] .gconf,
      replyStatus [0x04, 0xFF, 0x00, 0x00, 0x00, 0x01, 0x41, 0x3F] .gconf,
      replyStatus [0x05, 0x01, 0x00, 0x00, 0x00, 0x01, 0x41, 0xF6] .gconf,
      replyStatus [0x05, 0xFF, 0x01, 0x00, 0x00, 0x01, 0x41, 0x22] .gconf,
      replyStatus [0x05, 0xFF, 0x06, 0x21, 0x00, 0x02, 0x22, 0xC1] .ioin] =
    [.datagramLength, .datagramLength, .crcMismatch, .invalidSyncByte, .invalidMasterAddress, .registerAddressMismatch,
      .unpackingError] := by decide +kernel

/-! ### The catalog (V3 and its corner cases) -/

theorem test_unpack_ioin_reserved :
    shows (exec (.unpack .ioin) (at0 ((Port.construct 0).putPayload 0x00000020))) (fun q => (q.rfields, q.status)) =
      some (none, some .unpackingError) := by decide +kernel
theorem test_unpack_chopconf :
    shows (exec (.unpack .chopconf) (at0 ((Port.construct 0).putPayload 0xFFFFFFFF)))
        (fun q => (q.rfields.bind (·.get? .hend), q.rfields.bind (·.get? .tbl), q.result32, q.status)) =
      some (some 15, some 3, none, some .ok) := by decide +kernel
theorem test_pack_chopconf :
    shows (exec (.pack .chopconf) (at0 ((Port.construct 0).putFields
        (.make .chopconf [(.toff, 3), (.hstrt, 5), (.tbl, 2), (.intpol, 1)])))) (fun q => (q.result32, q.status)) =
      some (some 0x10010053, some .ok) := by decide +kernel
theorem test_pack_ioin_ones :
    shows (exec (.pack .ioin) (at0 ((Port.construct 0).putFields (fieldsOf .ioin 0xFFFFFFFF)))) (fun q => q.result32) =
      some (some 0xFF0003DD) := by decide +kernel
theorem test_vactual_signed :
    [(fieldsOf .vactual 0x00FFFC18).getSigned? .vactual, (fieldsOf .vactual 0x00800000).getSigned? .vactual,
      (fieldsOf .vactual 0xFF000001).getSigned? .vactual] = [some (-1000), some (-8388608), some 1] := by decide +kernel

/-! ### The per-register forms: V2 (driver address 3) and V3 -/

theorem test_rdGconf :
    shows (exec .rdGconf (at0 (Port.construct 3))) (fun q => (q.txb, q.rxlen, q.seq)) =
      some (some [0x05, 0x03, 0x00, 0xA5], some 12, .waitLock .rd) := by decide +kernel
theorem test_rdGstat :
    shows (exec .rdGstat (at0 (Port.construct 3))) (fun q => (q.txb, q.rxlen, q.seq)) =
      some (some [0x05, 0x03, 0x01, 0x2C], some 12, .waitLock .rd) := by decide +kernel
theorem test_rdIfcnt :
    shows (exec .rdIfcnt (at0 (Port.construct 3))) (fun q => (q.txb, q.rxlen, q.seq)) =
      some (some [0x05, 0x03, 0x02, 0x62], some 12, .waitLock .rd) := by decide +kernel
theorem test_rdNodeconf :
    shows (exec .rdNodeconf (at0 (Port.construct 3))) (fun q => (q.txb, q.rxlen, q.seq)) =
      some (some [0x05, 0x03, 0x03, 0xEB], some 12, .waitLock .rd) := by decide +kernel
theorem test_rdIoin :
    shows (exec .rdIoin (at0 (Port.construct 3))) (fun q => (q.txb, q.rxlen, q.seq)) =
      some (some [0x05, 0x03, 0x06, 0x82], some 12, .waitLock .rd) := by decide +kernel
theorem test_rdIholdIrun :
    shows (exec .rdIholdIrun (at0 (Port.construct 3))) (fun q => (q.txb, q.rxlen, q.seq)) =
      some (some [0x05, 0x03, 0x10, 0x9D], some 12, .waitLock .rd) := by decide +kernel
theorem test_rdTpowerdown :
    shows (exec .rdTpowerdown (at0 (Port.construct 3))) (fun q => (q.txb, q.rxlen, q.seq)) =
      some (some [0x05, 0x03, 0x11, 0x14], some 12, .waitLock .rd) := by decide +kernel
theorem test_rdTstep :
    shows (exec .rdTstep (at0 (Port.construct 3))) (fun q => (q.txb, q.rxlen, q.seq)) =
      some (some [0x05, 0x03, 0x12, 0x5A], some 12, .waitLock .rd) := by decide +kernel
theorem test_rdTpwmthrs :
    shows (exec .rdTpwmthrs (at0 (Port.construct 3))) (fun q => (q.txb, q.rxlen, q.seq)) =
      some (some [0x05, 0x03, 0x13, 0xD3], some 12, .waitLock .rd) := by decide +kernel
theorem test_rdTcoolthrs :
    shows (exec .rdTcoolthrs (at0 (Port.construct 3))) (fun q => (q.txb, q.rxlen, q.seq)) =
      some (some [0x05, 0x03, 0x14, 0x7D], some 12, .waitLock .rd) := by decide +kernel
theorem test_rdVactual :
    shows (exec .rdVactual (at0 (Port.construct 3))) (fun q => (q.txb, q.rxlen, q.seq)) =
      some (some [0x05, 0x03, 0x22, 0x7E], some 12, .waitLock .rd) := by decide +kernel
theorem test_rdChopconf :
    shows (exec .rdChopconf (at0 (Port.construct 3))) (fun q => (q.txb, q.rxlen, q.seq)) =
      some (some [0x05, 0x03, 0x6C, 0x27], some 12, .waitLock .rd) := by decide +kernel
theorem test_rdPwmconf :
    shows (exec .rdPwmconf (at0 (Port.construct 3))) (fun q => (q.txb, q.rxlen, q.seq)) =
      some (some [0x05, 0x03, 0x70, 0x8F], some 12, .waitLock .rd) := by decide +kernel
theorem test_wrGconf :
    shows (exec .wrGconf (at0 ((Port.construct 3).putFields (.make .gconf [(.i_scale_analog, 1), (.pdn_disable, 1), (.multistep_filt, 1)]))))
        (fun q => (q.wreg, q.wpay, q.txb, q.seq)) =
      some (some 0x00, some 0x00000141, some [0x05, 0x03, 0x02, 0x62], .waitLock .wb) := by decide +kernel
theorem test_wrGstat :
    shows (exec .wrGstat (at0 ((Port.construct 3).putFields (.make .gstat [(.reset, 1)]))))
        (fun q => (q.wreg, q.wpay, q.txb, q.seq)) =
      some (some 0x01, some 0x00000001, some [0x05, 0x03, 0x02, 0x62], .waitLock .wb) := by decide +kernel
theorem test_wrIfcnt :
    shows (exec .wrIfcnt (at0 ((Port.construct 3).putFields (.make .ifcnt [(.cnt, 42)]))))
        (fun q => (q.wreg, q.wpay, q.txb, q.seq)) =
      some (some 0x02, some 0x0000002A, some [0x05, 0x03, 0x02, 0x62], .waitLock .wb) := by decide +kernel
theorem test_wrNodeconf :
    shows (exec .wrNodeconf (at0 ((Port.construct 3).putFields (.make .nodeconf [(.send_delay, 2)]))))
        (fun q => (q.wreg, q.wpay, q.txb, q.seq)) =
      some (some 0x03, some 0x00000200, some [0x05, 0x03, 0x02, 0x62], .waitLock .wb) := by decide +kernel
theorem test_wrIoin :
    shows (exec .wrIoin (at0 ((Port.construct 3).putFields (.make .ioin [(.enn, 1), (.pdn_uart, 1), (.dir, 1), (.version, 33)]))))
        (fun q => (q.wreg, q.wpay, q.txb, q.seq)) =
      some (some 0x06, some 0x21000241, some [0x05, 0x03, 0x02, 0x62], .waitLock .wb) := by decide +kernel
theorem test_wrIholdIrun :
    shows (exec .wrIholdIrun (at0 ((Port.construct 3).putFields (.make .iholdIrun [(.ihold, 8), (.irun, 16), (.ihold_delay, 6)]))))
        (fun q => (q.wreg, q.wpay, q.txb, q.seq)) =
      some (some 0x10, some 0x00061008, some [0x05, 0x03, 0x02, 0x62], .waitLock .wb) := by decide +kernel
theorem test_wrTpowerdown :
    shows (exec .wrTpowerdown (at0 ((Port.construct 3).putFields (.make .tpowerdown [(.tpowerdown, 20)]))))
        (fun q => (q.wreg, q.wpay, q.txb, q.seq)) =
      some (some 0x11, some 0x00000014, some [0x05, 0x03, 0x02, 0x62], .waitLock .wb) := by decide +kernel
theorem test_wrTstep :
    shows (exec .wrTstep (at0 ((Port.construct 3).putFields (.make .tstep [(.tstep, 1048575)]))))
        (fun q => (q.wreg, q.wpay, q.txb, q.seq)) =
      some (some 0x12, some 0x000FFFFF, some [0x05, 0x03, 0x02, 0x62], .waitLock .wb) := by decide +kernel
theorem test_wrTpwmthrs :
    shows (exec .wrTpwmthrs (at0 ((Port.construct 3).putFields (.make .tpwmthrs [(.tpwmthrs, 500)]))))
        (fun q => (q.wreg, q.wpay, q.txb, q.seq)) =
      some (some 0x13, some 0x000001F4, some [0x05, 0x03, 0x02, 0x62], .waitLock .wb) := by decide +kernel
theorem test_wrTcoolthrs :
    shows (exec .wrTcoolthrs (at0 ((Port.construct 3).putFields (.make .tcoolthrs [(.tcoolthrs, 1048575)]))))
        (fun q => (q.wreg, q.wpay, q.txb, q.seq)) =
      some (some 0x14, some 0x000FFFFF, some [0x05, 0x03, 0x02, 0x62], .waitLock .wb) := by decide +kernel
theorem test_wrVactual :
    shows (exec .wrVactual (at0 ((Port.construct 3).putFields (.make .vactual [(.vactual, 0xFFFC18)]))))
        (fun q => (q.wreg, q.wpay, q.txb, q.seq)) =
      some (some 0x22, some 0x00FFFC18, some [0x05, 0x03, 0x02, 0x62], .waitLock .wb) := by decide +kernel
theorem test_wrChopconf :
    shows (exec .wrChopconf (at0 ((Port.construct 3).putFields (.make .chopconf [(.toff, 3), (.hstrt, 5), (.tbl, 2), (.intpol, 1)]))))
        (fun q => (q.wreg, q.wpay, q.txb, q.seq)) =
      some (some 0x6C, some 0x10010053, some [0x05, 0x03, 0x02, 0x62], .waitLock .wb) := by decide +kernel
theorem test_wrPwmconf :
    shows (exec .wrPwmconf (at0 ((Port.construct 3).putFields (.make .pwmconf [(.pwm_ofs, 36), (.pwm_grad, 14), (.pwm_freq, 1), (.pwm_autoscale, 1), (.pwm_autograd, 1),
      (.pwm_reg, 1), (.pwm_lim, 12)]))))
        (fun q => (q.wreg, q.wpay, q.txb, q.seq)) =
      some (some 0x70, some 0xC10D0E24, some [0x05, 0x03, 0x02, 0x62], .waitLock .wb) := by decide +kernel

/-! ### The session commands (V5, V6, V7, E5, V8) -/

theorem test_readReg :
    shows (exec (.readReg .ifcnt) State.reset) (fun q => (q.txb, q.rxlen, q.seq)) =
      some (some [0x05, 0x00, 0x02, 0x8F], some 12, .waitLock .rd) := by decide +kernel
theorem test_readReg_badAddress :
    shows (exec (.readReg .ifcnt) (at0 (Port.construct 4))) (fun q => (q.txb, q.status, q.seq)) =
      some (none, some .invalidDriverAddress, .idle) := by decide +kernel
-- P3: TPOWERDOWN 20 at driver address 1
theorem test_writeReg :
    shows (exec (.writeReg .tpowerdown) (at0 ((Port.construct 1).putFields (.make .tpowerdown [(.tpowerdown, 20)]))))
        (fun q => (q.wreg, q.wpay, q.txb, q.seq)) =
      some (some 0x11, some 0x00000014, some [0x05, 0x01, 0x02, 0x39], .waitLock .wb) := by decide +kernel
theorem test_exchange :
    shows (exec (.exchange 12 4) (at0 (dinPort 0 [0x05, 0x00, 0x02, 0x8F]))) (fun q => (q.txb, q.rxlen, q.seq)) =
      some (some [0x05, 0x00, 0x02, 0x8F], some 12, .waitLock .raw) := by decide +kernel
theorem test_exchange_nothing :
    shows (exec (.exchange 0 0) State.reset) (fun q => (q.txb, q.rxlen, q.seq)) =
      some (some [], some 0, .waitLock .raw) := by decide +kernel
theorem test_verify_wrap :
    shows (exec (.verify 255 0) State.reset) (fun q => (q.before, q.after, q.status)) =
      some (some 255, some 0, some .ok) := by decide +kernel
theorem test_verify_failure :
    shows (exec (.verify 254 0) State.reset) (fun q => (q.before, q.after, q.status)) =
      some (some 254, some 0, some .writeVerificationFailed) := by decide +kernel

-- V5: the answer's bytes reach DOUT unchecked
theorem test_answer_raw :
    shows (answer (.bytes (List.replicate 12 0x00)) (inFlight .raw rawExchange))
        (fun q => (q.dout.firstBytes 12, q.doutLen, q.status, q.seq)) =
      some (List.replicate 12 0x00, some 12, some .ok, .idle) := by decide +kernel
-- V6: a bad echo with a good reply is OK
theorem test_answer_rd :
    shows (answer (.bytes [0xFF, 0xFF, 0xFF, 0xFF, 0x05, 0xFF, 0x02, 0x00, 0x00, 0x00, 0x2A, 0xE7]) (inFlight .rd reading))
        (fun q => (q.result32, q.status, q.seq)) = some (some 0x0000002A, some .ok, .idle) := by decide +kernel
-- V6: the reply in the echo's place
theorem test_answer_rd_early :
    shows (answer (.bytes [0x05, 0xFF, 0x02, 0x00, 0x00, 0x00, 0x2A, 0xE7, 0x00, 0x00, 0x00, 0x00]) (inFlight .rd reading))
        (fun q => (q.result32, q.status)) = some (none, some .crcMismatch) := by decide +kernel
-- P2 step 3
theorem test_answer_wb :
    shows (answer (.bytes [0x05, 0x00, 0x02, 0x8F, 0x05, 0xFF, 0x02, 0x00, 0x00, 0x00, 0x07, 0xE2])
        (inFlight .wb beforeRead)) (fun q => (q.before, q.txb, q.rxlen, q.seq)) =
      some (some 7, some [0x05, 0x00, 0x80, 0x00, 0x00, 0x01, 0x41, 0x78, 0x05, 0x00, 0x02, 0x8F], some 20,
        .waitLock .wm) := by decide +kernel
-- P2 step 5
theorem test_answer_wm :
    shows (answer (.bytes [0x05, 0x00, 0x80, 0x00, 0x00, 0x01, 0x41, 0x78, 0x05, 0x00, 0x02, 0x8F, 0x05, 0xFF, 0x02, 0x00,
        0x00, 0x00, 0x08, 0x3C]) (inFlight .wm mainExchange)) (fun q => (q.before, q.after, q.status, q.seq)) =
      some (some 7, some 8, some .ok, .idle) := by decide +kernel
-- V7: cnt 7, then 7
theorem test_answer_wm_unapplied :
    shows (answer (.bytes [0x05, 0x00, 0x80, 0x00, 0x00, 0x01, 0x41, 0x78, 0x05, 0x00, 0x02, 0x8F, 0x05, 0xFF, 0x02, 0x00,
        0x00, 0x00, 0x07, 0xE2]) (inFlight .wm mainExchange)) (fun q => (q.after, q.status)) =
      some (some 7, some .writeVerificationFailed) := by decide +kernel
-- V7: Timeout in the WM phase
theorem test_answer_wm_timeout :
    shows (answer .timeout (inFlight .wm mainExchange)) (fun q => (q.before, q.after, q.status)) =
      some (some 7, none, some .timeout) := by decide +kernel

/-! ### The wire frames -/

-- the echo is held, the reply after it ends the read
theorem test_frameReadRequest :
    (match exec (.frameReadRequest 0 0x02 0x8F) (inFlight .rd reading) with
      | .next t => t.line
      | _ => []) = [0x05, 0x00, 0x02, 0x8F] := by decide +kernel
theorem test_frameWriteRequest :
    (match exec (.frameWriteRequest 0 0x00 0x00 0x00 0x01 0x41 0x78) (inFlight .wm mainExchange) with
      | .next t => t.line
      | _ => []) = [0x05, 0x00, 0x80, 0x00, 0x00, 0x01, 0x41, 0x78] := by decide +kernel
theorem test_frameReply :
    shows (exec (.frameReply 0x02 0x00 0x00 0x00 0x2A 0xE7)
        { inFlight .rd reading with line := [0x05, 0x00, 0x02, 0x8F] }) (fun q => (q.result32, q.status)) =
      some (some 0x0000002A, some .ok) := by decide +kernel

/-! ### Steps -/

theorem test_step_issue :
    shows (step (State.reset.withFetchWord 32 0x42050006)) (fun q => (q.cmd, q.before, q.after, q.status)) =
      some (some 0x42050006, some 5, some 6, some .ok) := by decide +kernel
theorem test_step_busy :
    refusal (step { at0 { reading with seq := .waitLock .rd } with inputs := [.issue 0 0x01000003] }) = some .portBusy := by
  decide +kernel
theorem test_step_unwritten :
    faultOf (step { State.reset with inputs := [.read 0 .result32] }) = some (.unwrittenLatch .result32) := by decide +kernel
-- the info of an outcome: `ENC_RD 4, GCONF`, and `DEC_REPLY GSTAT, 8` of GCONF's reply (R331, 95_test_vectors.md)
theorem test_info_encRd :
    shows (step (State.reset.withFetchWord 32 0x10040000)) (fun q => (q.status, q.info)) =
      some (some .invalidDriverAddress, some (.address 4)) := by decide +kernel
theorem test_info_decReply :
    shows (step ((at0 (dinPort 0 [0x05, 0xFF, 0x00, 0x00, 0x00, 0x01, 0x41, 0xB5])).withFetchWord 32 0x12000108))
      (fun q => (q.status, q.info)) = some (some .registerAddressMismatch, some (.register 0x01)) := by decide +kernel
theorem test_status_codes :
    [Status.code .crcMismatch, Status.code .datagramLength, Status.code .timeout, Status.code .writeVerificationFailed] =
      [0x04, 0x06, 0x0A, 0x0B] := by decide +kernel

/-! ### Witnesses: the hypotheses of the statements, met -/

/-- The state with these moves before it. -/
def moves (ms : List Input) (s : State) : State := { s with inputs := ms }

/-- The step or execution answers a next state. -/
def completes (r : Host.Outcome State Fault Refusal) : Prop := ∃ t, r = .next t

/-- Port 0 waits for the lock. -/
def waiting (ph : Phase) (q : Port) : State := at0 { q with seq := .waitLock ph }

theorem inv_waiting_rd : (waiting .rd reading).Inv :=
  ⟨by decide, by decide, by decide +kernel, by decide, by decide, rfl⟩
theorem inv_rd : (inFlight .rd reading).Inv := ⟨by decide, by decide, by decide +kernel, by decide, by decide, rfl⟩
theorem inv_raw : (inFlight .raw rawExchange).Inv := ⟨by decide, by decide, by decide +kernel, by decide, by decide, rfl⟩
theorem inv_wb : (inFlight .wb beforeRead).Inv := ⟨by decide, by decide, by decide +kernel, by decide, by decide, rfl⟩
theorem inv_wm : (inFlight .wm mainExchange).Inv := ⟨by decide, by decide, by decide +kernel, by decide, by decide, rfl⟩

theorem witness_DecodeOfEncode : Instr.crcCheck 1 ≠ .crcCheck 0 := by decide
theorem witness_OpcodeMap_crcCheck : (1 : Byte) ≠ 0 := by decide
theorem witness_StepRunsTheIssuedCommand :
    (moves [.issue 3 0x01000003] State.reset).inputs = .issue 3 0x01000003 :: [] ∧
      (moves [.issue 3 0x01000003] State.reset).hasPort 3 = true ∧
      (moves [.issue 3 0x01000003] State.reset).isIdle 3 = true ∧ decodeCommand 0x01000003 = .ok (.crc8 3) :=
  ⟨rfl, rfl, rfl, rfl⟩
theorem witness_StepRunsTheFrameOnTheLine :
    (moves [.wire [0x05, 0x01, 0x00, 0xFE]] State.reset).inputs = .wire [0x05, 0x01, 0x00, 0xFE] :: [] ∧
      decodeFrame [0x05, 0x01, 0x00, 0xFE] = .ok (.frameReadRequest 1 0x00 0xFE) := ⟨rfl, rfl⟩
theorem witness_PlacedWord_command :
    decodeTableWord 32 0x42050006 = some (.verify 5 6) ∧ State.reset.hasPort State.reset.freePort = true ∧
      State.reset.isIdle State.reset.freePort = true := by decide
theorem witness_PlacedWord_frame : decodeTableWord 64 0x05FF020000002AE7 = some (.frameReply 2 0 0 0 0x2A 0xE7) := by decide
theorem witness_ReservedOrBusy_noPort :
    (moves [.issue 3 0] (State.construct 3 0 1 2 3)).inputs = .issue 3 0 :: [] ∧
      (moves [.issue 3 0] (State.construct 3 0 1 2 3)).hasPort 3 = false := ⟨rfl, rfl⟩
theorem witness_ReservedOrBusy_busy :
    (moves [.issue 0 0] (waiting .rd reading)).hasPort 0 = true ∧
      (moves [.issue 0 0] (waiting .rd reading)).isIdle 0 = false := ⟨rfl, rfl⟩
theorem witness_ReservedOrBusy_reserved :
    (moves [.issue 0 0x02000000] State.reset).isIdle 0 = true ∧ decodeCommand 0x02000000 = .error .crcCheckEmpty :=
  ⟨rfl, rfl⟩

-- commands: port 0 is IDLE in the reset state, and in every state `at0` of an IDLE port
theorem witness_idle : State.reset.isIdle State.reset.cur = true := by decide
theorem witness_CrcCheck_boundary : (255 : Byte) ≠ 0 ∧ (1 : Byte) ≠ 0 := by decide
theorem witness_CrcIsLinear : ([0x05, 0x01] : List Byte).length = ([0x80, 0x00] : List Byte).length := by decide
theorem witness_SingleBitFlip_first :
    crcAccepts [0x05, 0x01, 0x00, 0xFE] = true ∧ ([0x05, 0x01, 0x00, 0xFE] : List Byte)[0]? = some 0x05 ∧ 0 < 8 := by
  decide +kernel
theorem witness_SingleBitFlip_last :
    ([0x05, 0x01, 0x00, 0xFE] : List Byte)[3]? = some 0xFE ∧ 7 < 8 ∧
      crcAccepts (([0x05, 0x01, 0x00, 0xFE] : List Byte).set 3 (0xFE ^^^ (1 <<< 7))) = false := by decide +kernel
theorem witness_ClosedFrames : unpack .gconf (payloadOf 0x00 0x00 0x01 0x41) = .ok (fieldsOf .gconf 0x00000141) := by rfl
theorem witness_EncRd_clauses : (3 : Byte) ≤ 3 ∧ (4 : Byte) > 3 := by decide
theorem witness_BothEncoders_clauses :
    (3 : Byte) ∈ ([0, 1, 2, 3] : List Byte) ∧ (4 : Byte) ∉ ([0, 1, 2, 3] : List Byte) ∧
      (255 : Byte) ∉ ([0, 1, 2, 3] : List Byte) := by decide
theorem witness_ChangedByte :
    decReply [0x05, 0xFF, 0x00, 0x00, 0x00, 0x01, 0x41, 0xB5] .gconf = .ok (0x00000141, fieldsOf .gconf 0x00000141) ∧
      6 < 7 ∧ ([0x05, 0xFF, 0x00, 0x00, 0x00, 0x01, 0x41, 0xB5] : List Byte)[6]? ≠ some 0x40 :=
  ⟨by decide +kernel, by decide, by decide⟩
theorem witness_PackOfUnpack : unpack .ioin 0x21000241 = .ok (fieldsOf .ioin 0x21000241) := by rfl
theorem witness_UnpackOfPack : (FieldRecord.make .chopconf [(.toff, 3)]).fits .chopconf = true := by decide
theorem witness_OnlyIoin :
    unpack .ioin 0x00000002 = .error .unpackingError ∧ unpack .ioin 0x00000020 = .error .unpackingError := ⟨rfl, rfl⟩

-- the address check of READ_REG and WRITE_REG, at its boundary, for a per-register form too
theorem witness_ReadIssue :
    Instr.rdIoin = .readReg .ioin ∨ Instr.rdIoin = Instr.readForm .ioin := .inr rfl
theorem witness_WriteIssue :
    Instr.wrGconf = .writeReg .gconf ∨ Instr.wrGconf = Instr.writeForm .gconf := .inr rfl
theorem witness_ReadIssue_address :
    ((at0 (Port.construct 3)).port 0).cfgAddr ≤ 3 ∧ ((at0 (Port.construct 4)).port 0).cfgAddr > 3 ∧
      (at0 (Port.construct 4)).isIdle 0 = true := by decide

theorem witness_Grant :
    (waiting .rd reading).Inv ∧ (waiting .rd reading).lockOwner = none ∧
      ((waiting .rd reading).port 0).seq = .waitLock .rd := ⟨inv_waiting_rd, rfl, rfl⟩
theorem witness_Grant_answers : completes (grant 0 (waiting .rd reading)) := ⟨_, rfl⟩
theorem witness_Grant_step : (moves [.grant 0] (waiting .rd reading)).inputs = .grant 0 :: [] := rfl
-- the environment's turn: with no move, and while the host waits
theorem witness_Grant_environment :
    (waiting .rd reading).environmentMoves ∧ (waiting .rd reading).wanted = none ∧ (waiting .rd reading).waiters ≠ [] :=
  ⟨.inl rfl, rfl, by decide⟩
theorem witness_Grant_hostWaits :
    (moves [.wait 0] (waiting .rd reading)).environmentMoves ∧ (moves [.wait 0] (waiting .rd reading)).wanted = none ∧
      (moves [.wait 0] (waiting .rd reading)).waiters = [0] := ⟨.inr ⟨0, [], rfl, rfl, rfl⟩, rfl, rfl⟩
theorem witness_Grant_nothingMoves :
    State.reset.environmentMoves ∧ State.reset.wanted = none ∧ State.reset.waiters = [] := ⟨.inl rfl, rfl, rfl⟩
theorem witness_TransportMayGiveAnyAnswer :
    (inFlight .rd reading).Inv ∧ (inFlight .rd reading).lockOwner = some 0 ∧
      ((inFlight .rd reading).port 0).rxlen = some 12 ∧ (List.replicate 12 (0x00 : Byte)).length = (12 : Byte).toNat :=
  ⟨inv_rd, rfl, rfl, rfl⟩
theorem witness_Transport_otherLengths :
    (List.replicate 11 (0x00 : Byte)).length ≠ (12 : Byte).toNat ∧
      (List.replicate 13 (0x00 : Byte)).length ≠ (12 : Byte).toNat := by decide
theorem witness_AnswerReleases : completes (answer .timeout (inFlight .wb beforeRead)) := ⟨_, rfl⟩
-- bytes, in each phase
theorem witness_AnswerReleases_raw :
    completes (answer (.bytes (List.replicate 12 0x00)) (inFlight .raw rawExchange)) := ⟨_, rfl⟩
theorem witness_AnswerReleases_rd :
    completes (answer (.bytes (List.replicate 12 0x00)) (inFlight .rd reading)) := ⟨_, rfl⟩
theorem witness_AnswerReleases_wb :
    shows (answer (.bytes (List.replicate 12 0x00)) (inFlight .wb beforeRead)) (fun q => q.seq) = some .idle := by
  decide +kernel
theorem witness_AnswerReleases_wm :
    shows (answer (.bytes (List.replicate 20 0x00)) (inFlight .wm mainExchange)) (fun q => q.seq) = some .idle := by
  decide +kernel
theorem witness_AnswerReleases_step :
    (moves [.answer .ioError] (inFlight .rd reading)).inputs = .answer .ioError :: [] := rfl
theorem witness_AnswerReleases_environment :
    (inFlight .wm mainExchange).environmentMoves ∧ (inFlight .wm mainExchange).wanted = some 20 := ⟨.inl rfl, rfl⟩
theorem witness_TimeoutAndIoError :
    (inFlight .wm mainExchange).lockOwner = some 0 ∧ ((inFlight .wm mainExchange).port 0).seq = .xchg .wm ∧
      ((Answer.ioError = .timeout ∧ Status.ioError = .timeout) ∨ (Answer.ioError = .ioError ∧ Status.ioError = .ioError)) :=
  ⟨rfl, rfl, .inr ⟨rfl, rfl⟩⟩
theorem witness_ExchangeReturns :
    (inFlight .raw rawExchange).lockOwner = some 0 ∧ ((inFlight .raw rawExchange).port 0).seq = .xchg .raw ∧
      ((inFlight .raw rawExchange).port 0).rxlen = some 12 := ⟨rfl, rfl, rfl⟩
theorem witness_ReadAnswer :
    (inFlight .rd reading).lockOwner = some 0 ∧ ((inFlight .rd reading).port 0).seq = .xchg .rd ∧
      ((inFlight .rd reading).port 0).rxlen = some 12 ∧ ((inFlight .rd reading).port 0).cmdReg = some .ifcnt ∧
      ([0x05, 0x00, 0x02, 0x8F] : List Byte).length = 4 ∧
      ([0x05, 0xFF, 0x02, 0x00, 0x00, 0x00, 0x2A, 0xE7] : List Byte).length = 8 := by decide
theorem witness_WriteIsSent :
    (inFlight .wb beforeRead).lockOwner = some 0 ∧ ((inFlight .wb beforeRead).port 0).seq = .xchg .wb ∧
      ((inFlight .wb beforeRead).port 0).rxlen = some 12 ∧ ((inFlight .wb beforeRead).port 0).cfgAddr ≤ 3 ∧
      ((inFlight .wb beforeRead).port 0).wreg = some 0x00 ∧ ((inFlight .wb beforeRead).port 0).wpay = some 0x141 := by
  decide
theorem witness_WriteAnswer :
    (inFlight .wm mainExchange).lockOwner = some 0 ∧ ((inFlight .wm mainExchange).port 0).seq = .xchg .wm ∧
      ((inFlight .wm mainExchange).port 0).rxlen = some 20 ∧ ((inFlight .wm mainExchange).port 0).before = some 7 := by
  decide

-- frames: the last number of bytes that does not complete the exchange
theorem witness_FramesArrive_4 :
    State.wanted { inFlight .rd reading with line := List.replicate 7 0x00 } = some 12 ∧ 7 + 4 < 12 := by decide
theorem witness_FramesArrive_8 :
    State.wanted { inFlight .rd reading with line := List.replicate 3 0x00 } = some 12 ∧ 3 + 8 < 12 := by decide
theorem witness_FramesArrive_none : State.reset.wanted = none := by decide
-- frames that complete an exchange: the last byte it needs, and more than it needs; a request frame
theorem witness_FramesArrive_completes :
    (inFlight .raw rawExchange).Inv ∧ (inFlight .raw rawExchange).lockOwner = some 0 ∧
      ((inFlight .raw rawExchange).port 0).seq = .xchg .raw ∧ ((inFlight .raw rawExchange).port 0).rxlen = some 12 :=
  ⟨inv_raw, rfl, rfl, rfl⟩
theorem witness_FramesArrive_completes_line :
    State.Inv { inFlight .raw rawExchange with line := List.replicate 8 0x00 } ∧
      (12 : Byte).toNat ≤ (List.replicate 8 (0x00 : Byte)).length + ([0x05, 0x00, 0x02, 0x8F] : List Byte).length ∧
      (12 : Byte).toNat ≤ (List.replicate 9 (0x00 : Byte)).length + ([0x05, 0x00, 0x02, 0x8F] : List Byte).length :=
  ⟨State.Inv.congr _ _ inv_raw rfl rfl rfl rfl rfl, by decide, by decide⟩
theorem witness_FramesArrive_request :
    shows (exec (.frameReadRequest 0 0x02 0x8F) { inFlight .raw rawExchange with line := List.replicate 8 0x00 })
      (fun q => (q.seq, q.doutLen)) = some (.idle, some 12) := by decide +kernel
theorem witness_ReplyFrameEnds_wb :
    State.lockOwner { inFlight .wb beforeRead with line := List.replicate 4 0x00 } = some 0 ∧
      (State.port { inFlight .wb beforeRead with line := List.replicate 4 0x00 } 0).seq = .xchg .wb ∧
      (State.port { inFlight .wb beforeRead with line := List.replicate 4 0x00 } 0).rxlen = some 12 ∧
      (State.port { inFlight .wb beforeRead with line := List.replicate 4 0x00 } 0).cfgAddr ≤ 3 ∧
      (State.port { inFlight .wb beforeRead with line := List.replicate 4 0x00 } 0).wreg = some 0x00 ∧
      (State.port { inFlight .wb beforeRead with line := List.replicate 4 0x00 } 0).wpay = some 0x141 ∧
      (State.line { inFlight .wb beforeRead with line := List.replicate 4 0x00 }).length = 4 := by decide
theorem witness_ReplyFrameEnds_wm :
    State.lockOwner { inFlight .wm mainExchange with line := List.replicate 12 0x00 } = some 0 ∧
      (State.port { inFlight .wm mainExchange with line := List.replicate 12 0x00 } 0).seq = .xchg .wm ∧
      (State.port { inFlight .wm mainExchange with line := List.replicate 12 0x00 } 0).rxlen = some 20 ∧
      (State.port { inFlight .wm mainExchange with line := List.replicate 12 0x00 } 0).before = some 7 ∧
      (State.line { inFlight .wm mainExchange with line := List.replicate 12 0x00 }).length = 12 := by decide
theorem witness_ReplyFrameEnds_raw :
    State.lockOwner { inFlight .raw rawExchange with line := List.replicate 4 0x00 } = some 0 ∧
      (State.port { inFlight .raw rawExchange with line := List.replicate 4 0x00 } 0).seq = .xchg .raw ∧
      (State.port { inFlight .raw rawExchange with line := List.replicate 4 0x00 } 0).rxlen = some 12 ∧
      (State.line { inFlight .raw rawExchange with line := List.replicate 4 0x00 }).length + 8 = (12 : Byte).toNat := by
  decide
theorem witness_ReplyFrameEnds :
    State.lockOwner { inFlight .rd reading with line := [0x05, 0x00, 0x02, 0x8F] } = some 0 ∧
      (State.port { inFlight .rd reading with line := [0x05, 0x00, 0x02, 0x8F] } 0).seq = .xchg .rd ∧
      (State.port { inFlight .rd reading with line := [0x05, 0x00, 0x02, 0x8F] } 0).rxlen = some 12 ∧
      (State.port { inFlight .rd reading with line := [0x05, 0x00, 0x02, 0x8F] } 0).cmdReg = some .ifcnt ∧
      (State.line { inFlight .rd reading with line := [0x05, 0x00, 0x02, 0x8F] }).length = 4 := by decide

-- frames of the commands: one command for each clause
theorem witness_CommandsLeave_crc8 : frameBytes (.crc8 0) = [] ∧ completes (exec (.crc8 0) State.reset) :=
  ⟨rfl, _, rfl⟩
theorem witness_CommandsLeave_pack : frameBytes (.pack .gconf) = [] ∧ completes (exec (.pack .gconf) State.reset) :=
  ⟨rfl, _, rfl⟩
theorem witness_CommandsLeave_unpack : completes (exec (.unpack .gconf) State.reset) := ⟨_, rfl⟩
theorem witness_CommandsLeave_verify : completes (exec (.verify 0 255) State.reset) := ⟨_, rfl⟩
theorem witness_CommandsLeave_write : completes (exec .wrGconf State.reset) := ⟨_, rfl⟩
theorem witness_CommandsLeave_exchange : completes (exec (.exchange 255 255) State.reset) := ⟨_, rfl⟩
theorem witness_CommandsLeave_dout :
    shows (exec (.encRd 0 0) State.reset) (fun q => q.doutLen) = some (some 4) ∧ 4 ≤ 4 := by decide +kernel

/-- A port whose last command had this word and outcome. -/
def endedPort (w : Word) (st : Status) : Port :=
  { Port.construct 4 with cmd := some w, status := some st, before := some 7, after := some 7 }
-- the info of an outcome, in each clause: the values of R331's last column
theorem witness_Outcome_info :
    [endedPort (commandWord 0x11 5 0x80 0) .invalidDriverAddress, endedPort (commandWord 0x41 0 0x00 0) .invalidDriverAddress,
      endedPort (commandWord 0x40 0 0x6C 0) .crcMismatch, endedPort (commandWord 0x41 0 0x6C 0) .invalidMasterAddress,
      endedPort (commandWord 0x02 0 0 9) .crcMismatch, endedPort (commandWord 0x12 0 0x00 7) .datagramLength,
      endedPort (commandWord 0x20 0 0x06 0) .unpackingError, endedPort (commandWord 0x42 7 0 7) .writeVerificationFailed,
      endedPort (commandWord 0x30 13 0 4) .timeout].map Port.info =
    [some (.address 5), some (.address 4), some (.register 0x6C), some (.register 0x02), some (.length 9),
      some (.register 0x00), some (.register 0x06), some (.counts 7 7), none] := by decide +kernel

/-- Port 0 with a status that no command gives. -/
def packingErrorPort : Port := { Port.construct 0 with status := some .packingError }
theorem witness_PackingError :
    shows (step (moves [.wait 0] (at0 packingErrorPort))) (fun q => q.status) = some (some .packingError) := by decide

/-- Port 0 with every result latch written. -/
def fullPort : Port :=
  { Port.construct 0 with
    status := some .ok, before := some 7, after := some 8, dout := [(0, 0xFE)], doutLen := some 1
    result32 := some 0x141, rfields := some (fieldsOf .gconf 0x141) }
theorem witness_HostRead_written :
    ([.status, .dout, .result32, .rfields, .before, .after] : List Latch).map (fun l => (fullPort.latch l).isSome) =
        List.replicate 6 true ∧
      (moves [.read 0 .dout] (at0 fullPort)).hasPort 0 = true ∧ (moves [.read 0 .dout] (at0 fullPort)).isIdle 0 = true := by
  decide
theorem witness_HostRead_unwritten :
    ([.status, .dout, .result32, .rfields, .before, .after] : List Latch).map ((Port.construct 0).latch) =
      List.replicate 6 none := by decide
theorem witness_HostWrites_din :
    (moves [.writeDin 0 248 (List.replicate 8 0)] State.reset).hasPort 0 = true ∧
      (moves [.writeDin 0 248 (List.replicate 8 0)] State.reset).isIdle 0 = true ∧
      248 + (List.replicate 8 (0 : Byte)).length ≤ 256 := by decide
theorem witness_HostWrites_busy :
    (moves [.writePayload 0 0] (waiting .rd reading)).hasPort 0 = true ∧
      (moves [.writePayload 0 0] (waiting .rd reading)).isIdle 0 = false := by decide
theorem witness_HostWrites_fields :
    (FieldRecord.make .gstat [(.reset, 1)]).fits .gstat = true ∧
      (FieldRecord.fits ⟨.gstat, [⟨.reset, 2, 3⟩]⟩ .gstat) = false := by decide

theorem witness_Construction : 1 ≤ 1 ∧ 1 ≤ 4 ∧ 4 ≤ 4 := by decide
-- a launch with a port out of range (I21): port 1 has address 4, and only port 0 is expected to succeed
theorem witness_Launch_outOfRange :
    (∀ p q : PortId, p.val < 2 → q.val < 2 → p ≠ q →
      ([3, 4, 0, 0] : List Byte).getD p.val 0 ≠ ([3, 4, 0, 0] : List Byte).getD q.val 0) ∧
    (∀ p ∈ ([0] : List PortId), p.val < 2 ∧ ([3, 4, 0, 0] : List Byte).getD p.val 0 ≤ 3) := by decide
theorem witness_Launch_admits : (State.construct 2 3 4 0 0).Launch [0] ∧ ¬ (State.construct 2 3 4 0 0).Launch [0, 1] := by
  decide
theorem witness_EveryStep : (waiting .rd reading).Inv ∧ completes (step (moves [.grant 0] (waiting .rd reading))) :=
  ⟨inv_waiting_rd, _, rfl⟩
theorem witness_LockIsHeld : (inFlight .rd reading).Inv ∧ ((inFlight .rd reading).port 0).seq = .xchg .rd :=
  ⟨inv_rd, rfl⟩
theorem witness_Sequencers_idle : completes (step (State.reset.withFetchWord 32 0x40000200)) := ⟨_, rfl⟩
theorem witness_Sequencers_waitLock :
    ((moves [.grant 0] (waiting .rd reading)).port 0).seq = .waitLock .rd ∧
      shows (step (moves [.grant 0] (waiting .rd reading))) (fun q => q.seq) = some (.xchg .rd) := ⟨rfl, rfl⟩
theorem witness_Sequencers_xchgStays : completes (step (moves [.wire [0x05]] (inFlight .rd reading))) := ⟨_, rfl⟩
theorem witness_Sequencers_answer :
    (moves [.answer .timeout] (inFlight .rd reading)).stepAnswer = some .timeout := rfl
-- the moves, with a port that is not the moving one; and a read, which moves none
theorem witness_OneStep :
    completes (step (moves [.grant 0] (waiting .rd reading))) ∧
      (moves [.grant 0] (waiting .rd reading)).movingPort ≠ some 1 ∧
      (moves [.issue 3 0x01000003] State.reset).movingPort = some 3 ∧
      (moves [.wire [0x05]] (inFlight .rd reading)).movingPort = some 0 ∧
      (inFlight .rd reading).movingPort = some 0 := ⟨⟨_, rfl⟩, by decide, rfl, rfl, rfl⟩
theorem witness_OneStep_read :
    completes (step (moves [.read 0 .status] (at0 fullPort))) ∧
      (moves [.read 0 .status] (at0 fullPort)).movingPort ≠ some 0 := ⟨⟨_, rfl⟩, by decide⟩
theorem witness_Sequencers_xchg : completes (step (moves [.answer .timeout] (inFlight .rd reading))) := ⟨_, rfl⟩
-- a WRITE_REG that ends with OK, and one that enters the WM phase
theorem witness_NoFalseSuccess_ok :
    ((moves [.wire [0x05, 0xFF, 0x02, 0x00, 0x00, 0x00, 0x08, 0x3C]]
        { inFlight .wm mainExchange with line := List.replicate 12 0x00 }).port 0).writing = true ∧
      shows (step (moves [.wire [0x05, 0xFF, 0x02, 0x00, 0x00, 0x00, 0x08, 0x3C]]
        { inFlight .wm mainExchange with line := List.replicate 12 0x00 })) (fun q => (q.seq, q.status)) =
          some (.idle, some .ok) := by decide +kernel
theorem witness_NoFalseSuccess_wm :
    shows (step (moves [.wire [0x05, 0xFF, 0x02, 0x00, 0x00, 0x00, 0x07, 0xE2]]
        { inFlight .wb beforeRead with line := List.replicate 4 0x00 })) (fun q => q.seq) =
      some (.waitLock .wm) := by decide +kernel
-- a field listed twice, after another; a field listed with the widest value; a field that is not listed
theorem witness_Pseudo_listed :
    (⟨.toff, 3, 0⟩ : FieldSpec) ∈ layout .chopconf ∧
      [(FieldName.tbl, 1), (.toff, 15), (.toff, 2)] = [(FieldName.tbl, 1)] ++ (.toff, 15) :: [(.toff, 2)] ∧
      (∀ g ∈ ([(.tbl, 1)] : List (FieldName × Nat)), g.1 ≠ .toff) ∧ 15 < 2 ^ (⟨.toff, 3, 0⟩ : FieldSpec).width := by
  decide
theorem witness_Pseudo_notListed : ∀ g ∈ ([(.tbl, 1)] : List (FieldName × Nat)), g.1 ≠ .toff := by decide
theorem witness_Pseudo_make :
    (FieldRecord.make .chopconf [(.tbl, 1), (.toff, 15), (.toff, 2)]).get? .toff = some 15 ∧
      (FieldRecord.make .chopconf [(.tbl, 1)]).get? .toff = some 0 := by decide
theorem witness_SilentMachine : (inFlight .wb beforeRead).Inv ∧ (inFlight .wb beforeRead).inputs = [] := ⟨inv_wb, rfl⟩

end Sys2Proof.Tests
end

section
/-! PROOFS of the state family (10_state.md): the invariant of the whole machine is kept by every step, what follows from
it, and the host's own moves. -/

namespace Sys2Proof.Machine

/-! ### What a good state says of a port -/

/-- R43 in terms of SEQ. -/
theorem State.Inv.lockOwner_iff {s : State} (hI : s.Inv) (p : PortId) :
    s.lockOwner = some p ↔ ∃ ph, (s.port p).seq = .xchg ph :=
  (hI.lock p).trans (Port.inXchg_iff _)

/-- Only a port below NPORTS can be busy (R344). -/
theorem State.Inv.hasPort_of_busy {s : State} (hI : s.Inv) {p : PortId} (hb : (s.port p).seq ≠ .idle) :
    s.hasPort p = true := by
  by_contra hp
  exact hb ((s.isIdle_iff p).1 (hI.absent p (Bool.eq_false_iff.2 hp)))

/-- A waiting port in good order holds the latches of its phase (R37, R251). -/
theorem Port.phaseOk_of_waitLock {q : Port} {ph : Phase} (hs : q.seq = .waitLock ph) (hq : q.ok = true) :
    q.phaseOk ph = true := by
  obtain ⟨-, -, -, -, hseq⟩ := (Port.ok_iff _).1 hq
  simpa only [Port.seqOk, hs] using hseq

/-- A port of a good state that waits for the lock has its TXB and RXLEN written (R37, R251). -/
theorem State.Inv.latches_of_waitLock {s : State} (hI : s.Inv) {p : PortId} {ph : Phase}
    (hs : (s.port p).seq = .waitLock ph) : ∃ tx n, (s.port p).txb = some tx ∧ (s.port p).rxlen = some n := by
  obtain ⟨tx, n, -, htx, hn, -⟩ := Port.phaseOk_latches _ _ (Port.phaseOk_of_waitLock hs (hI.ports p))
  exact ⟨tx, n, htx, hn⟩

/-- The end of an exchange leaves its port IDLE or waiting, never in XCHG (R255). -/
theorem continueCommand_not_inXchg {ph : Phase} {a : Answer} {q q' : Port} (h : continueCommand ph a q = .ok q') :
    q'.inXchg = false := by
  obtain ⟨-, -, -, -, -, -, -, ⟨hs, -⟩ | ⟨-, hs, -⟩⟩ := continueCommand_ok ph a q q' h <;> simp [Port.inXchg, hs]

/-- A command leaves its port IDLE or waiting, never in XCHG (R251). -/
theorem CommandLeaves.not_inXchg {q q' : Port} (h : CommandLeaves q q') : q'.inXchg = false := by
  obtain ⟨hs, -⟩ | ⟨-, ph, hs, -⟩ := h.ends <;> simp [Port.inXchg, hs]

/-! ### The host's writes and GRANT on one port -/

/-- An operand write changes no sequencer (R33 to R35). -/
theorem OperandWrite.seq {f : Port → Port} (hf : OperandWrite f) (q : Port) : (f q).seq = q.seq := by
  cases hf <;> rfl

/-- An operand write keeps an IDLE port in good order: DIN stays within its 256 bytes, FIELDS holds a record of its
register (R33, R35). -/
theorem OperandWrite.ok {f : Port → Port} (hf : OperandWrite f) {q : Port} (hi : q.seq = .idle) (hq : q.ok = true) :
    (f q).ok = true := by
  obtain ⟨hdin, hdout, hfields, hrfields, hseq⟩ := (Port.ok_iff _).1 hq
  have hs : (f q).seqOk = true := by simp [Port.seqOk, hf.seq, hi]
  cases hf with
  | din off bs hb => exact (Port.ok_iff _).2 ⟨Memory.writeBytes_ok _ _ _ hdin hb, hdout, hfields, hrfields, hs⟩
  | payload v => exact (Port.ok_iff _).2 ⟨hdin, hdout, hfields, hrfields, hs⟩
  | fields g hg => exact (Port.ok_iff _).2 ⟨hdin, hdout, hg, hrfields, hs⟩

/-- The word of CMD does not matter to an IDLE port's good order (R32). -/
theorem Port.putCmd_ok {q : Port} (w : Word) (hi : q.seq = .idle) (hq : q.ok = true) : (q.putCmd w).ok = true := by
  obtain ⟨hdin, hdout, hfields, hrfields, -⟩ := (Port.ok_iff _).1 hq
  exact (Port.ok_iff _).2 ⟨hdin, hdout, hfields, hrfields, by simp [Port.seqOk, hi]⟩

/-- A waiting port's latches are those that its exchange needs in XCHG (R252). -/
theorem Port.xchg_ok {q : Port} {ph : Phase} (hs : q.seq = .waitLock ph) (hq : q.ok = true) :
    Port.ok { q with seq := .xchg ph } = true := by
  obtain ⟨hdin, hdout, hfields, hrfields, -⟩ := (Port.ok_iff _).1 hq
  have hph : q.phaseOk ph = true := Port.phaseOk_of_waitLock hs hq
  exact (Port.ok_iff _).2 ⟨hdin, hdout, hfields, hrfields, hph⟩

/-! ### Each change of the state keeps the invariant -/

theorem onlyPort_updPort (s : State) (p : PortId) (f : Port → Port) : s.OnlyPort p (s.updPort p f) :=
  ⟨rfl, fun _ h => State.port_updPort_other _ _ _ _ h, rfl, rfl, rfl, rfl, rfl, rfl⟩

/-- A change of one existing port, with the lock that goes with it, keeps the invariant where the port ends in good order,
the lock is that port's exactly if it is in XCHG, no other port gains or loses the lock, and XFER is the owner's. -/
theorem State.Inv.of_portChange {s t : State} {p : PortId} (hI : s.Inv) (hn : t.nports = s.nports) (hcur : t.cur = s.cur)
    (hothers : ∀ q, q ≠ p → t.port q = s.port q) (hp : s.hasPort p = true) (hok : (t.port p).ok = true)
    (hlock : t.lockOwner = some p ↔ (t.port p).inXchg = true)
    (hlocks : ∀ q, q ≠ p → (t.lockOwner = some q ↔ s.lockOwner = some q)) (hxfer : t.xfer = t.expectedXfer) : t.Inv := by
  have hhas : ∀ q, t.hasPort q = s.hasPort q := fun q => by simp [State.hasPort, hn]
  refine ⟨hn ▸ hI.nports, by rw [hhas, hcur]; exact hI.cur, fun q => ?ports, fun q hq => ?absent, fun q => ?lock, hxfer⟩
  case ports =>
    by_cases h : q = p
    · exact h ▸ hok
    · rw [hothers q h]; exact hI.ports q
  case absent =>
    rw [hhas] at hq
    have h : q ≠ p := by rintro rfl; simp [hp] at hq
    simpa [State.isIdle, hothers q h] using hI.absent q hq
  case lock =>
    by_cases h : q = p
    · exact h ▸ hlock
    · rw [hlocks q h, hothers q h]; exact hI.lock q

/-- A change of one existing IDLE port that leaves it in good order and outside XCHG keeps the invariant: the port does not
own the lock, so the lock and the exchange in flight are another's. -/
theorem State.Inv.of_onlyPort {s t : State} {p : PortId} (hI : s.Inv) (ho : s.OnlyPort p t) (hp : s.hasPort p = true)
    (hi : s.isIdle p = true) (hok : (t.port p).ok = true) (hx : (t.port p).inXchg = false) : t.Inv := by
  have hfree : s.lockOwner ≠ some p := fun hl => by
    obtain ⟨ph, hs⟩ := (hI.lockOwner_iff p).1 hl
    simp [(s.isIdle_iff p).1 hi] at hs
  have hxfer : t.expectedXfer = s.expectedXfer := by
    rw [State.expectedXfer, State.expectedXfer, ho.lockOwner]
    refine Option.bind_congr fun q hq => ?_
    rw [ho.others q (by rintro rfl; exact hfree hq)]
  exact hI.of_portChange ho.nports ho.cur ho.others hp hok (by simp [ho.lockOwner, hfree, hx])
    (fun q _ => by rw [ho.lockOwner]) (by rw [hxfer, ho.xfer, hI.xfer])

/-- The state in which an issued command runs is a good one (R32). -/
theorem State.Inv.beginCommand {s : State} (hI : s.Inv) {p : PortId} (w : Word) (hp : s.hasPort p = true)
    (hi : s.isIdle p = true) : (s.beginCommand p w).Inv := by
  have hseq := (s.isIdle_iff p).1 hi
  obtain ⟨hn, -, hports, habsent, hlock, hxfer⟩ : (s.updPort p (Port.putCmd w)).Inv :=
    hI.of_onlyPort (onlyPort_updPort s p _) hp hi (by simpa using Port.putCmd_ok w hseq (hI.ports p))
      (by simp [Port.inXchg, hseq])
  exact ⟨hn, hp, hports, habsent, hlock, hxfer⟩

/-- GRANT keeps the invariant: the lock is free, so the granted port becomes the only one in XCHG (R43, R252). -/
theorem grant_keeps_inv {p : PortId} {s t : State} (hI : s.Inv) (h : grant p s = .next t) : t.Inv := by
  obtain ⟨ph, tx, n, hfree, hs, htx, hn, rfl⟩ := (grant_next _ _ _).1 h
  refine hI.of_portChange rfl rfl (fun q => State.port_takeLock_other _ _ _ _ _ _) (hI.hasPort_of_busy (by simp [hs]))
    (by simpa using Port.xchg_ok hs (hI.ports p)) (by simp [Port.inXchg]) (fun q hqp => ?_)
    (by simp [State.expectedXfer, htx, hn])
  simp [hfree, Ne.symm hqp]

/-- ANSWER keeps the invariant: the owner leaves XCHG in the step that frees the lock, and no other port was in XCHG
(R43, R254). -/
theorem answer_keeps_inv {a : Answer} {s t : State} (hI : s.Inv) (h : answer a s = .next t) : t.Inv := by
  obtain ⟨p, ph, q', hl, hs, hf, hc, rfl⟩ := (answer_next _ _ _).1 h
  obtain ⟨q'', hc', hok⟩ := continueCommand_port_ok ph a _ (hI.ports p) hs hf
  obtain rfl : q' = q'' := Except.ok.inj (hc.symm.trans hc')
  refine hI.of_portChange rfl rfl (fun q => State.port_endExchange_other _ _ _ _ _) (hI.hasPort_of_busy (by simp [hs]))
    (by simpa using hok) (by simp [continueCommand_not_inXchg hc]) (fun q hqp => ?_) rfl
  simp [hl, Ne.symm hqp]

theorem arrive_keeps_inv {bs : List Byte} {s t : State} (hI : s.Inv) (h : arrive bs s = .next t) : t.Inv := by
  have hline : State.Inv { s with line := s.line ++ bs } := hI.congr _ _ rfl rfl rfl rfl rfl
  rcases arrive_next _ _ _ h with rfl | ⟨n, -, -, ha⟩
  · exact hline
  · exact answer_keeps_inv hline ha

/-- The issue of a command keeps the invariant (R32, R37). -/
theorem exec_beginCommand_keeps_inv {s t : State} {p : PortId} {w : Word} {c : Instr} (hI : s.Inv)
    (hp : s.hasPort p = true) (hi : s.isIdle p = true) (hc : decodeCommand w = .ok c)
    (h : exec c (s.beginCommand p w) = .next t) : t.Inv := by
  have hI' : (s.beginCommand p w).Inv := hI.beginCommand w hp hi
  obtain ⟨hidle, honly, hleaves⟩ := exec_command_next c _ t (frameBytes_of_decodeCommand w c hc) h
  have hok := exec_port_ok c _ t w hc (by simp) (hI'.ports _) h
  exact hI'.of_onlyPort honly hI'.cur hidle hok hleaves.not_inXchg

/-- Every move of every agent keeps the invariant (R265). -/
theorem applyInput_keeps_inv {i : Input} {s t : State} (hI : s.Inv) (h : applyInput i s = .next t) : t.Inv := by
  rcases applyInput_next _ _ _ h with ⟨p, f, hf, -, hp, hi, rfl⟩ | ⟨p, w, c, -, hp, hi, hc, h⟩ | ⟨v, rfl⟩ |
    ⟨p, -, h⟩ | ⟨a, -, h⟩ | ⟨bs, -, h⟩
  · have hseq := (s.isIdle_iff p).1 hi
    exact hI.of_onlyPort (onlyPort_updPort s p f) hp hi (by simpa using hf.ok hseq (hI.ports p))
      (by simp [Port.inXchg, hf.seq, hseq])
  · exact exec_beginCommand_keeps_inv hI hp hi hc h
  · exact hI.congr _ _ rfl rfl rfl rfl rfl
  · exact grant_keeps_inv hI h
  · exact answer_keeps_inv hI h
  · exact arrive_keeps_inv hI h

theorem State.Inv.draw {s : State} (hI : s.Inv) : s.draw.Inv := hI.congr _ _ rfl rfl rfl rfl rfl

theorem State.Inv.with_inputs {s : State} (hI : s.Inv) (l : List Input) : State.Inv { s with inputs := l } :=
  hI.congr _ _ rfl rfl rfl rfl rfl

theorem environmentTurn_keeps_inv {s t : State} (hI : s.Inv) (h : environmentTurn s = .next t) : t.Inv := by
  rcases environmentTurn_next _ _ h with ⟨n, -, ha⟩ | ⟨p, -, -, hg⟩ | ⟨-, -, rfl⟩
  · exact answer_keeps_inv hI.draw ha
  · exact grant_keeps_inv hI.draw hg
  · exact hI

/-- Settles O52, by the kind of move that the step makes. -/
theorem everyStepKeepsTheInvariant : Obligations.EveryStepKeepsTheInvariant := by
  intro s t hI h
  rcases step_next s t h with ⟨h, -, -⟩ | ⟨i, rest, -, -, -, h⟩
  · exact environmentTurn_keeps_inv hI h
  · exact applyInput_keeps_inv (hI.with_inputs rest) h

/-- Settles O53: the lock clause of the invariant, which the step keeps. -/
theorem lockIsHeldByTheOnePortInXchg : Obligations.LockIsHeldByTheOnePortInXchg := by
  intro s t hI ht
  have hT : t.Inv := by
    rcases ht with rfl | h
    · exact hI
    · exact everyStepKeepsTheInvariant s t hI h
  refine ⟨hT.lockOwner_iff, fun p q ph ph' hp hq => ?_⟩
  have hlp := (hT.lockOwner_iff p).2 ⟨ph, hp⟩
  have hlq := (hT.lockOwner_iff q).2 ⟨ph', hq⟩
  exact Option.some.inj (hlp.symm.trans hlq)

/-! ### No internal latch is unwritten where it is read -/

/-- A good state's GRANT finds the latches of the port it grants (R251, R252). -/
theorem grant_ne_internal {p : PortId} {s : State} (hI : s.Inv) : grant p s ≠ .fault .internalLatchUnwritten := by
  unfold grant
  split
  · next ph _ hs =>
    obtain ⟨tx, n, htx, hn⟩ := hI.latches_of_waitLock hs
    simp [htx, hn]
  · simp

/-- A good state's ANSWER finds the latches that the owner's continuation reads (R254). -/
theorem answer_ne_internal {a : Answer} {s : State} (hI : s.Inv) : answer a s ≠ .fault .internalLatchUnwritten := by
  unfold answer
  split
  · simp
  · next p _ =>
    split
    · next ph hs =>
      split
      · next hf =>
        obtain ⟨q', hc, -⟩ := continueCommand_port_ok ph a _ (hI.ports p) hs hf
        simp [hc]
      · simp
    · simp
    · simp

theorem arrive_ne_internal {bs : List Byte} {s : State} (hI : s.Inv) :
    arrive bs s ≠ .fault .internalLatchUnwritten := by
  simp only [arrive]
  split
  · split
    · exact answer_ne_internal (hI.congr _ _ rfl rfl rfl rfl rfl)
    · simp
  · simp

theorem environmentTurn_ne_internal {s : State} (hI : s.Inv) :
    environmentTurn s ≠ .fault .internalLatchUnwritten := by
  unfold environmentTurn
  split
  · exact answer_ne_internal hI.draw
  · split
    · exact grant_ne_internal hI.draw
    · simp

theorem onIdlePort_ne_fault {s : State} {k : Host.Outcome State Fault Refusal} {e : Fault} (hk : k ≠ .fault e) :
    onIdlePort s k ≠ .fault e := by
  unfold onIdlePort
  split
  · exact hk
  · simp

/-- A command's issue never faults: it answers a next state or is refused (R339). -/
theorem exec_command_ne_fault {i : Instr} {s : State} {e : Fault} (hi : frameBytes i = []) : exec i s ≠ .fault e := by
  have hnext : ∀ t : State, onIdlePort s (.next t) ≠ .fault e := fun t => onIdlePort_ne_fault (by simp)
  rcases instr_kinds i with ⟨r, rfl | rfl⟩ | ⟨r, rfl | rfl⟩ | hf | ⟨n, rfl⟩ | ⟨n, rfl⟩ | ⟨a, r, rfl⟩ | ⟨a, r, rfl⟩ |
    ⟨r, n, rfl⟩ | ⟨r, rfl⟩ | ⟨r, rfl⟩ | ⟨a, n, rfl⟩ | ⟨a, n, rfl⟩
  · exact hnext _
  · rw [exec_readForm]; exact hnext _
  · exact hnext _
  · rw [exec_writeForm]; exact hnext _
  · exact absurd hi hf
  · exact hnext _
  · exact onIdlePort_ne_fault (by split <;> simp)
  all_goals exact hnext _

theorem issue_ne_fault {p : PortId} {w : Word} {s : State} {e : Fault} : issue p w s ≠ .fault e := by
  unfold issue
  split
  · split
    · split
      · simp
      · next c hc => exact exec_command_ne_fault (frameBytes_of_decodeCommand w c hc)
    · simp
  · simp

theorem onHostPort_ne_internal {s : State} {p : PortId} {k : Host.Outcome State Fault Refusal}
    (hk : k ≠ .fault .internalLatchUnwritten) : onHostPort s p k ≠ .fault .internalLatchUnwritten := by
  unfold onHostPort
  split
  · split
    · exact hk
    · simp
  · simp

theorem applyInput_ne_internal {i : Input} {s : State} (hI : s.Inv) :
    applyInput i s ≠ .fault .internalLatchUnwritten := by
  cases i with
  | writeDin p off bs => exact onHostPort_ne_internal (by unfold hostWriteDin; split <;> simp)
  | writePayload p v => exact onHostPort_ne_internal (by simp)
  | writeFields p f => exact onHostPort_ne_internal (by unfold hostWriteFields; split <;> simp)
  | issue p w => exact issue_ne_fault
  | wait p => simp only [applyInput]; split <;> simp
  | read p l => exact onHostPort_ne_internal (by unfold hostRead; split <;> simp)
  | grant p => exact grant_ne_internal hI
  | answer a => exact answer_ne_internal hI
  | wire bs => simpa only [applyInput, wireMove_eq_arrive] using arrive_ne_internal hI

/-- Settles O54, by the kind of move that the step makes. -/
theorem internalLatchesAreWrittenWhenRead : Obligations.InternalLatchesAreWrittenWhenRead := by
  intro s hI
  unfold step turn
  split
  · exact environmentTurn_ne_internal hI
  · split
    · exact environmentTurn_ne_internal hI
    · exact applyInput_ne_internal (hI.with_inputs _)

/-! ### The step takes the first move -/

/-- A move that is not a wait for a busy port is taken from the list and made (R265, log entry 1). -/
theorem step_of_input {s : State} {i : Input} {rest : List Input} (h : s.inputs = i :: rest)
    (hw : s.stillWaits i = false) : step s = applyInput i { s with inputs := rest } := by
  simp [step, turn, h, hw]

/-- The issue of a word that decodes, on an existing IDLE port, executes it (R32). -/
theorem issue_of_decodeCommand {s : State} {p : PortId} {w : Word} {i : Instr} (hp : s.hasPort p = true)
    (hi : s.isIdle p = true) (hd : decodeCommand w = .ok i) : issue p w s = exec i (s.beginCommand p w) := by
  simp [issue, hp, hi, hd]

/-- Settles O6: the issue is the first move, and it executes its word. -/
theorem stepRunsTheIssuedCommand : Obligations.StepRunsTheIssuedCommand := by
  intro s p w rest i hin hp hi hd
  rw [step_of_input hin rfl]
  exact issue_of_decodeCommand hp hi hd

/-- The move that stands for a table word: a command word is issued, and a frame's bytes arrive (log entry 1). -/
theorem tableMove_of_decodeTableWord {nbits w : Nat} {i : Instr} (h : decodeTableWord nbits w = some i) (p : PortId) :
    (decodeCommand (BitVec.ofNat 32 w) = .ok i ∧ tableMove p nbits w = .issue p (BitVec.ofNat 32 w)) ∨
      ∃ bs, bs ≠ [] ∧ decodeFrame bs = .ok i ∧ tableMove p nbits w = .wire bs := by
  have frame : ∀ {r : Except DecodeError Instr}, r.toOption = some i → r = .ok i := by
    intro r hr
    cases r with
    | error e => cases hr
    | ok j => exact congrArg Except.ok (Option.some.inj hr)
  unfold decodeTableWord at h
  split at h
  · next hn =>
    split at h
    · next j hj =>
      obtain rfl := Option.some.inj h
      exact .inl ⟨hj, by simp [tableMove, hn, hj]⟩
    · next e he =>
      have hf := frame h
      exact .inr ⟨_, by simp [wireBytes4], hf, by simp [tableMove, hn, he, hf]⟩
  · next hn => exact .inr ⟨_, by simp [wireBytes8], frame h, by simp [tableMove, hn]⟩

/-- Settles O8: the placed move is the first one, and it runs the decoded instruction. -/
theorem placedWordRunsInTheNextStep : Obligations.PlacedWordRunsInTheNextStep := by
  intro s nbits w i hd hp hi
  rcases tableMove_of_decodeTableWord hd s.freePort with ⟨hc, hm⟩ | ⟨bs, hne, hf, hm⟩
  · have hin : (s.withFetchWord nbits w).inputs = .issue s.freePort (BitVec.ofNat 32 w) :: s.inputs := by
      simp [State.withFetchWord, hm]
    rw [if_pos (frameBytes_of_decodeCommand _ _ hc)]
    exact stepRunsTheIssuedCommand _ _ _ _ i hin hp hi hc
  · have hin : (s.withFetchWord nbits w).inputs = .wire bs :: s.inputs := by
      simp [State.withFetchWord, hm]
    rw [if_neg (by rw [frameBytes_of_decodeFrame bs i hf]; exact hne), step_of_input hin rfl]
    simp [applyInput, wireMove, hf, State.withFetchWord]

/-! ### The host's moves on its port -/

theorem onHostPort_idle {s : State} {p : PortId} {k : Host.Outcome State Fault Refusal} (hp : s.hasPort p = true)
    (hi : s.isIdle p = true) : onHostPort s p k = k := by simp [onHostPort, hp, hi]

/-- On a busy port the host has no such move (D31). -/
theorem onHostPort_busy {s : State} {p : PortId} {k : Host.Outcome State Fault Refusal} (hp : s.hasPort p = true)
    (hi : s.isIdle p = false) : onHostPort s p k = .fault .noSuchMove := by simp [onHostPort, hp, hi]

/-- Settles O49: each write is the first move, and changes one latch of its port. -/
theorem hostWritesItsOperandsWhileIdle : Obligations.HostWritesItsOperandsWhileIdle := by
  refine ⟨fun s p off bs rest hin hp => ?din, fun s p v rest hin hp => ?payload, fun s p f rest hin hp => ?fields⟩ <;>
    rw [step_of_input hin rfl]
  case din =>
    refine ⟨fun hi hb => ?_, fun hi => onHostPort_busy hp hi⟩
    refine ⟨State.updPort { s with inputs := rest } p (Port.putDin off bs), (s.port p).din.writeBytes off bs,
      ?_, State.port_updPort_self _ _ _, fun k hk => ?_, fun k hk => ?_⟩
    · exact (onHostPort_idle hp hi).trans (if_pos hb)
    · simp [Memory.read_writeBytes, hk]
    · have hout : ¬ (off ≤ k ∧ k < off + bs.length) := by omega
      simp [Memory.read_writeBytes, hout]
  case payload =>
    exact ⟨fun hi => ⟨_, onHostPort_idle hp hi, State.port_updPort_self _ _ _⟩, fun hi => onHostPort_busy hp hi⟩
  case fields =>
    refine ⟨fun hi hf => ?_, fun hi hf => ?_, fun hi => onHostPort_busy hp hi⟩
    · exact ⟨_, (onHostPort_idle hp hi).trans (if_pos hf), State.port_updPort_self _ _ _⟩
    · exact (onHostPort_idle hp hi).trans (if_neg (by simp [hf]))

/-! ### Construction -/

/-- Port `p` after construction is a constructed port with the `p`-th address (R52, R370). -/
theorem State.port_construct (n : Nat) (a0 a1 a2 a3 : Byte) (p : PortId) :
    (State.construct n a0 a1 a2 a3).port p = Port.construct ([a0, a1, a2, a3].getD p.val 0) := by
  fin_cases p <;> rfl

/-- Settles O50: every port is a constructed one, whose latches are the table's values. -/
theorem constructionLeavesTheTableOfResetValues : Obligations.ConstructionLeavesTheTableOfResetValues := by
  intro n a0 a1 a2 a3 p
  simp only [State.port_construct]
  simp [Port.construct, State.construct]

end Sys2Proof.Machine
end

section
/-! PROOFS of the memory family (20_memory.md): with a silent host every command in progress ends, the write addresses,
and the byte order of a payload. -/

namespace Sys2Proof.Machine

/-! ### How many of the environment's turns a command still needs -/

/-- The turns left to a command: a GRANT and an ANSWER for each of its exchanges, of which WRITE_REG has two (R36). -/
def Seq.turnsLeft : Seq → Nat
  | .idle => 0
  | .waitLock .wb => 4
  | .xchg .wb => 3
  | .waitLock .raw | .waitLock .rd | .waitLock .wm => 2
  | .xchg .raw | .xchg .rd | .xchg .wm => 1

theorem Seq.turnsLeft_le (q : Seq) : q.turnsLeft ≤ 4 := by
  unfold Seq.turnsLeft
  split <;> decide

/-- A command is over exactly when it needs no turn (R36). -/
theorem Seq.turnsLeft_eq_zero {q : Seq} : q.turnsLeft = 0 ↔ q = .idle := by
  unfold Seq.turnsLeft
  split <;> simp

/-- A GRANT is one of the turns that its phase needs (R252). -/
theorem Seq.turnsLeft_xchg_lt (ph : Phase) : (Seq.xchg ph).turnsLeft < (Seq.waitLock ph).turnsLeft := by
  cases ph <;> decide

/-- The turns left to all the commands in progress. -/
def State.turnsLeft (s : State) : Nat := ∑ p : PortId, (s.port p).seq.turnsLeft

/-- Four ports, each with at most the four turns of a WRITE_REG. -/
theorem State.turnsLeft_le (s : State) : s.turnsLeft ≤ 16 :=
  Finset.sum_le_card_nsmul _ _ 4 fun p _ => (s.port p).seq.turnsLeft_le

theorem State.turnsLeft_eq_zero {s : State} : s.turnsLeft = 0 ↔ ∀ p, (s.port p).seq = .idle := by
  simp [State.turnsLeft, Seq.turnsLeft_eq_zero]

@[simp] theorem State.turnsLeft_draw (s : State) : s.draw.turnsLeft = s.turnsLeft := rfl

/-- Progress of one port is progress of all, since the others stay as they are (R266). -/
theorem State.turnsLeft_lt_of_port {s t : State} {p : PortId} (hothers : ∀ q, q ≠ p → t.port q = s.port q)
    (hp : (t.port p).seq.turnsLeft < (s.port p).seq.turnsLeft) : t.turnsLeft < s.turnsLeft := by
  refine Finset.sum_lt_sum (fun q _ => ?_) ⟨p, Finset.mem_univ p, hp⟩
  by_cases hq : q = p
  · exact hq ▸ hp.le
  · rw [hothers q hq]

/-! ### GRANT and ANSWER each use up a turn -/

theorem grant_turnsLeft_lt {p : PortId} {s t : State} (h : grant p s = .next t) : t.turnsLeft < s.turnsLeft := by
  obtain ⟨ph, tx, n, -, hs, -, -, rfl⟩ := (grant_next _ _ _).1 h
  refine State.turnsLeft_lt_of_port (fun q hq => State.port_takeLock_other _ _ _ _ _ _ hq) ?_
  simpa [hs] using Seq.turnsLeft_xchg_lt ph

/-- An exchange's end leaves its port with fewer turns: it is IDLE, or waits for the second exchange of its WRITE_REG
(R255, R297). -/
theorem continueCommand_turnsLeft_lt {ph : Phase} {a : Answer} {q q' : Port} (hs : q.seq = .xchg ph)
    (h : continueCommand ph a q = .ok q') : q'.seq.turnsLeft < q.seq.turnsLeft := by
  obtain ⟨-, -, -, -, -, -, -, ⟨hidle, -⟩ | ⟨rfl, hwait, -⟩⟩ := continueCommand_ok ph a q q' h
  · rw [hidle, hs]
    cases ph <;> decide
  · rw [hwait, hs]
    decide

theorem answer_turnsLeft_lt {a : Answer} {s t : State} (h : answer a s = .next t) : t.turnsLeft < s.turnsLeft := by
  obtain ⟨p, ph, q, -, hs, -, hc, rfl⟩ := (answer_next _ _ _).1 h
  refine State.turnsLeft_lt_of_port (fun q' hq => State.port_endExchange_other _ _ _ _ _ hq) ?_
  simpa using continueCommand_turnsLeft_lt hs hc

/-! ### The environment's turn never stops in a good state -/

/-- In a good state a port in XCHG has its RXLEN written (R37, R252). -/
theorem State.Inv.rxlen_of_xchg {s : State} (hI : s.Inv) {p : PortId} {ph : Phase} (hs : (s.port p).seq = .xchg ph) :
    ∃ n, (s.port p).rxlen = some n := by
  obtain ⟨-, -, -, -, hseq⟩ := (Port.ok_iff _).1 (hI.ports p)
  obtain ⟨-, n, -, -, hn, -⟩ := Port.phaseOk_latches _ ph (by simpa only [Port.seqOk, hs] using hseq)
  exact ⟨n, hn⟩

/-- In a good state the owner of the lock wants bytes, so where none are wanted the lock is free (R43, R45). -/
theorem State.Inv.lockOwner_of_wanted_eq_none {s : State} (hI : s.Inv) (hw : s.wanted = none) :
    s.lockOwner = none := by
  refine Option.eq_none_iff_forall_ne_some.2 fun p hl => ?_
  obtain ⟨ph, hs⟩ := (hI.lockOwner_iff p).1 hl
  obtain ⟨n, hn⟩ := hI.rxlen_of_xchg hs
  simp [(wanted_eq_some s _).2 ⟨p, ph, n, hl, hs, hn, rfl⟩] at hw

/-- The free answers have the length that the exchange asks for (R254, R257). -/
theorem answerFits_freeAnswer {q : Port} {n : Byte} (k : Nat) (hn : q.rxlen = some n) :
    answerFits (freeAnswer k n.toNat) q = true := by
  unfold freeAnswer
  split <;> simp [answerFits, freeBytes, hn]

/-- In a good state every answer that fits the exchange in flight ends it (R254). -/
theorem State.Inv.answer_completes {s : State} (hI : s.Inv) {p : PortId} {ph : Phase} {a : Answer}
    (hl : s.lockOwner = some p) (hs : (s.port p).seq = .xchg ph) (hf : answerFits a (s.port p) = true) :
    ∃ t, answer a s = .next t := by
  obtain ⟨q, hc, -⟩ := continueCommand_port_ok ph a _ (hI.ports p) hs hf
  exact ⟨_, (answer_next _ _ _).2 ⟨p, ph, q, hl, hs, hf, hc, rfl⟩⟩

/-- In a good state with a free lock every waiter can be granted the bus (R252). -/
theorem State.Inv.grant_completes {s : State} (hI : s.Inv) {p : PortId} (hl : s.lockOwner = none)
    (hp : p ∈ s.waiters) : ∃ t, grant p s = .next t := by
  obtain ⟨ph, hs⟩ := (mem_waiters s p).1 hp
  obtain ⟨tx, n, htx, hn⟩ := hI.latches_of_waitLock hs
  exact ⟨_, (grant_next _ _ _).2 ⟨ph, tx, n, hl, hs, htx, hn, rfl⟩⟩

theorem mem_of_chooseWaiter {k : Nat} {ws : List PortId} {p : PortId} (h : chooseWaiter k ws = some p) : p ∈ ws :=
  List.mem_of_getElem? h

theorem State.Inv.environmentTurn_completes {s : State} (hI : s.Inv) : ∃ t, environmentTurn s = .next t := by
  unfold environmentTurn
  split
  · next n hw =>
    obtain ⟨p, ph, b, hl, hs, hb, rfl⟩ := (wanted_eq_some s n).1 hw
    exact hI.draw.answer_completes hl hs (answerFits_freeAnswer _ hb)
  · next hw =>
    split
    · next p hp => exact hI.draw.grant_completes (hI.lockOwner_of_wanted_eq_none hw) (mem_of_chooseWaiter hp)
    · exact ⟨s, rfl⟩

/-! ### The silent machine -/

theorem grant_inputs {p : PortId} {s t : State} (h : grant p s = .next t) : t.inputs = s.inputs := by
  obtain ⟨_, _, _, -, -, -, -, rfl⟩ := (grant_next _ _ _).1 h
  rfl

theorem answer_inputs {a : Answer} {s t : State} (h : answer a s = .next t) : t.inputs = s.inputs := by
  obtain ⟨_, _, _, -, -, -, -, rfl⟩ := (answer_next _ _ _).1 h
  rfl

/-- The environment places no move. -/
theorem environmentTurn_inputs {s t : State} (h : environmentTurn s = .next t) : t.inputs = s.inputs := by
  rcases environmentTurn_next _ _ h with ⟨n, -, ha⟩ | ⟨p, -, -, hg⟩ | ⟨-, -, rfl⟩
  · simpa using answer_inputs ha
  · simpa using grant_inputs hg
  · rfl

/-- In a good state the environment's turn uses up a turn, and where it makes no move no command is in progress: no port
waits, and none is in XCHG, since the lock is free. -/
theorem State.Inv.environmentTurn_turnsLeft {s t : State} (hI : s.Inv) (h : environmentTurn s = .next t) :
    t.turnsLeft < s.turnsLeft ∨ t.turnsLeft = 0 := by
  rcases environmentTurn_next _ _ h with ⟨n, -, ha⟩ | ⟨p, -, -, hg⟩ | ⟨hw, hws, rfl⟩
  · exact .inl (by simpa using answer_turnsLeft_lt ha)
  · exact .inl (by simpa using grant_turnsLeft_lt hg)
  · refine .inr (State.turnsLeft_eq_zero.2 fun p => ?_)
    cases hs : (t.port p).seq with
    | idle => rfl
    | waitLock ph =>
      have hp : p ∈ t.waiters := (mem_waiters t p).2 ⟨ph, hs⟩
      simp [hws] at hp
    | xchg ph =>
      have hl := (hI.lockOwner_iff p).2 ⟨ph, hs⟩
      simp [hI.lockOwner_of_wanted_eq_none hw] at hl

/-- A good state in which no command needs a turn is settled: no port is in XCHG, so the lock is free and no exchange is in
flight (R43, R45). -/
theorem State.Inv.settled {s : State} (hI : s.Inv) (h : s.turnsLeft = 0) : s.Settled := by
  have hidle := State.turnsLeft_eq_zero.1 h
  have hlock : s.lockOwner = none := Option.eq_none_iff_forall_ne_some.2 fun p hp => by
    obtain ⟨ph, hs⟩ := (hI.lockOwner_iff p).1 hp
    simp [hidle p] at hs
  exact ⟨fun p => (s.isIdle_iff p).2 (hidle p), hlock, by simp [hI.xfer, State.expectedXfer, hlock]⟩

/-- With no move given the step is the environment's turn (log entry 2). -/
theorem step_of_silent {s : State} (hin : s.inputs = []) : step s = environmentTurn s := by
  simp [step, turn, hin]

/-- A run goes on from the next state of its first step. -/
theorem run_succ_of_step {s t : State} (h : step s = .next t) (k : Nat) :
    Sys2Proof.core.run (k + 1) s = Sys2Proof.core.run k t := by
  have hstep : Sys2Proof.core.step s = .next t := h
  simp only [Host.Core.run, hstep]

/-- A silent machine settles within as many steps as its commands have turns left. -/
theorem State.Inv.run_settles {k : Nat} {s : State} (hI : s.Inv) (hin : s.inputs = []) (hk : s.turnsLeft ≤ k) :
    ∃ t, Sys2Proof.core.run k s = .next t ∧ t.Settled := by
  induction k generalizing s with
  | zero => exact ⟨s, rfl, hI.settled (Nat.le_zero.1 hk)⟩
  | succ k ih =>
    obtain ⟨u, hu⟩ := hI.environmentTurn_completes
    have hleft : u.turnsLeft ≤ k := by
      have := hI.environmentTurn_turnsLeft hu
      omega
    obtain ⟨t, ht, hset⟩ := ih (environmentTurn_keeps_inv hI hu) ((environmentTurn_inputs hu).trans hin) hleft
    exact ⟨t, (run_succ_of_step ((step_of_silent hin).trans hu) k).trans ht, hset⟩

/-- Settles O59: four ports of at most four turns each. -/
theorem silentMachineSettles : Obligations.SilentMachineSettles :=
  fun s hI hin => hI.run_settles hin s.turnsLeft_le

end Sys2Proof.Machine

namespace Sys2Proof

open Machine

/-! ### Write addresses -/

/-- Every catalog register is in the lower half of the address space (R81). -/
theorem Reg.addr_lt (r : Reg) : r.addr < 0x80 := by cases r <;> decide

/-- No catalog register is in the upper half (R140). -/
theorem Reg.ofByte?_eq_none_of_le {b : Byte} (h : 0x80 ≤ b) : Reg.ofByte? b = none := by
  refine Option.eq_none_iff_forall_ne_some.2 fun r hr => ?_
  have := r.addr_lt
  rw [(Reg.ofByte?_eq_some _ _).1 hr] at this
  bv_omega

/-- Below 80H bit 7 is clear, so adding 80H sets it and carries nothing (R81). -/
theorem add_writeOffset_of_lt {b : Byte} (h : b < 0x80) :
    b + 0x80 = b ||| 0x80 ∧ (b + 0x80).toNat = b.toNat + 0x80 := by
  revert b
  decide

/-- Settles O28: all catalog read addresses are below 80H. -/
theorem writeAddressIsReadAddressPlusOffset : Obligations.WriteAddressIsReadAddressPlusOffset := by
  intro r
  obtain ⟨hor, hnat⟩ := add_writeOffset_of_lt r.addr_lt
  have hnone : Reg.ofByte? (r.addr + 0x80) = none :=
    Reg.ofByte?_eq_none_of_le (BitVec.le_def.2 (hnat ▸ Nat.le_add_left _ _))
  exact ⟨r.addr_lt, rfl, hor, hnat, Reg.ofByte?_addr r, hnone⟩

/-! ### Payloads

Under the big-endian order (D4, log entry 13) the bytes of a payload lie as the four fields of a command word do. -/

/-- A command word is made of its fields (R110). -/
theorem commandWord_fields (w : Word) : commandWord (opcOf w) (aOf w) (rOf w) (nOf w) = w := by
  simp only [commandWord, joinBytes, opcOf, aOf, rOf, nOf, BitVec.extractLsb'_append_extractLsb'_eq_extractLsb']
  exact BitVec.extractLsb'_eq_self

theorem payloadOf_eq_commandWord (p0 p1 p2 p3 : Byte) : payloadOf p0 p1 p2 p3 = commandWord p0 p1 p2 p3 := rfl

theorem bytesOf_eq_fields (v : Word) : bytesOf v = [opcOf v, aOf v, rOf v, nOf v] := rfl

/-- Settles O29: the fields of a command word are read back from it, and make it up again. -/
theorem payloadBytesAreBigEndian : Obligations.PayloadBytesAreBigEndian := by
  refine ⟨fun p0 p1 p2 p3 => ⟨rfl, ?bytesOfPayload⟩, fun v => ⟨_, _, _, _, bytesOf_eq_fields v, ?payloadOfBytes⟩⟩
  case bytesOfPayload => simp [payloadOf_eq_commandWord, bytesOf_eq_fields]
  case payloadOfBytes => exact commandWord_fields v

end Sys2Proof
end

section
/-! PROOFS of the encoding family (30_encoding.md): the decoder gives back what was encoded and rejects exactly the
reserved words, frames arrive on the line, and the pseudo-instructions expand to the moves they stand for. -/

namespace Sys2Proof

open Machine

/-! ### The opcode map on a word's fields (R111) -/

section OpcodeMap
variable (a r n : Byte) (x : Reg)

theorem decodeCommand_crc8Word : decodeCommand (commandWord 0x01 a r n) = .ok (.crc8 n) := by
  simp [decodeCommand]

theorem decodeCommand_crcCheckWord (hn : n ≠ 0) : decodeCommand (commandWord 0x02 a r n) = .ok (.crcCheck n) := by
  simpa [decodeCommand] using hn

theorem decodeCommand_encRdWord : decodeCommand (commandWord 0x10 a r n) = .ok (.encRd a r) := by
  simp [decodeCommand]

theorem decodeCommand_encWrWord : decodeCommand (commandWord 0x11 a r n) = .ok (.encWr a r) := by
  simp [decodeCommand]

theorem decodeCommand_decReplyWord :
    decodeCommand (commandWord 0x12 a x.addr n) = .ok (.decReply x n) := by simp [decodeCommand]

theorem decodeCommand_unpackWord : decodeCommand (commandWord 0x20 a x.addr n) = .ok (.unpack x) := by
  simp [decodeCommand]

theorem decodeCommand_packWord : decodeCommand (commandWord 0x21 a x.addr n) = .ok (.pack x) := by
  simp [decodeCommand]

theorem decodeCommand_exchangeWord : decodeCommand (commandWord 0x30 a r n) = .ok (.exchange a n) := by
  simp [decodeCommand]

theorem decodeCommand_readWord :
    decodeCommand (commandWord 0x40 a x.addr n) = .ok (Instr.readForm x) := by simp [decodeCommand]

theorem decodeCommand_writeWord :
    decodeCommand (commandWord 0x41 a x.addr n) = .ok (Instr.writeForm x) := by simp [decodeCommand]

theorem decodeCommand_verifyWord : decodeCommand (commandWord 0x42 a r n) = .ok (.verify a n) := by
  simp [decodeCommand]

end OpcodeMap

/-- Settles O2: one rule per opcode. -/
theorem opcodeMapDecodesEveryOperand : Obligations.OpcodeMapDecodesEveryOperand := fun a r n x =>
  ⟨decodeCommand_crc8Word a r n, decodeCommand_crcCheckWord a r n, decodeCommand_encRdWord a r n,
    decodeCommand_encWrWord a r n, decodeCommand_decReplyWord a n x, decodeCommand_unpackWord a n x,
    decodeCommand_packWord a n x, decodeCommand_exchangeWord a r n, decodeCommand_readWord a n x,
    decodeCommand_writeWord a n x, decodeCommand_verifyWord a r n⟩

/-! ### Encoding and decoding commands -/

/-- RD_X and WR_X share the words of READ_REG and WRITE_REG (R113). -/
@[simp] theorem encodeCommand_readForm (r : Reg) : encodeCommand (Instr.readForm r) = encodeCommand (.readReg r) := by
  cases r <;> rfl
@[simp] theorem encodeCommand_writeForm (r : Reg) :
    encodeCommand (Instr.writeForm r) = encodeCommand (.writeReg r) := by cases r <;> rfl

@[simp] theorem canonical_readForm (r : Reg) : (Instr.readForm r).canonical = Instr.readForm r := by cases r <;> rfl
@[simp] theorem canonical_writeForm (r : Reg) : (Instr.writeForm r).canonical = Instr.writeForm r := by
  cases r <;> rfl

/-- The command decoder inverts the command encoder, but for the reserved CRC_CHECK 0 (R111, R122). -/
theorem decodeCommand_encodeCommand {i : Instr} (hi : frameBytes i = []) (h0 : i ≠ .crcCheck 0) :
    decodeCommand (encodeCommand i) = .ok i.canonical := by
  rcases instr_kinds i with ⟨r, rfl | rfl⟩ | ⟨r, rfl | rfl⟩ | hf | ⟨n, rfl⟩ | ⟨n, rfl⟩ | ⟨a, r, rfl⟩ | ⟨a, r, rfl⟩ |
    ⟨r, n, rfl⟩ | ⟨r, rfl⟩ | ⟨r, rfl⟩ | ⟨a, n, rfl⟩ | ⟨a, n, rfl⟩
  · exact decodeCommand_readWord 0 0 r
  · rw [encodeCommand_readForm, canonical_readForm]; exact decodeCommand_readWord 0 0 r
  · exact decodeCommand_writeWord 0 0 r
  · rw [encodeCommand_writeForm, canonical_writeForm]; exact decodeCommand_writeWord 0 0 r
  · exact absurd hi hf
  · exact decodeCommand_crc8Word 0 0 n
  · exact decodeCommand_crcCheckWord 0 0 n (by rintro rfl; exact h0 rfl)
  · exact decodeCommand_encRdWord a r 0
  · exact decodeCommand_encWrWord a r 0
  · exact decodeCommand_decReplyWord 0 n r
  · exact decodeCommand_unpackWord 0 0 r
  · exact decodeCommand_packWord 0 0 r
  · exact decodeCommand_exchangeWord a 0 n
  · exact decodeCommand_verifyWord a 0 n

/-- The word of a command is read as the decoder of command words reads it (R110). -/
theorem decodeTableWord_of_decodeCommand {w : Word} {i : Instr} (h : decodeCommand w = .ok i) :
    decodeTableWord 32 w.toNat = some i := by
  simp [decodeTableWord, h]

/-! ### Encoding and decoding frames (R103) -/

/-- The first byte of a frame is a reserved OPC (R120), so its word is no command. -/
theorem decodeCommand_syncWord (b1 b2 b3 : Byte) :
    decodeCommand (commandWord Config.sync b1 b2 b3) = .error (.reservedOpcode Config.sync) := by
  simp [decodeCommand, Config.sync]

/-- Four bytes as a number are the command word that has them as its fields. -/
theorem wireNat_four (b0 b1 b2 b3 : Byte) : wireNat [b0, b1, b2, b3] = (commandWord b0 b1 b2 b3).toNat := by
  simp only [wireNat, List.foldl_cons, List.foldl_nil, Laws.commandWord_toNat]
  omega

theorem wireBytes4_commandWord (b0 b1 b2 b3 : Byte) :
    wireBytes4 (commandWord b0 b1 b2 b3) = [b0, b1, b2, b3] := by
  have hfields : ∀ w, wireBytes4 w = [opcOf w, aOf w, rOf w, nOf w] := fun _ => rfl
  simp [hfields]

/-- Eight bytes are read back from their number. -/
theorem wireBytes8_wireNat (b0 b1 b2 b3 b4 b5 b6 b7 : Byte) :
    wireBytes8 (BitVec.ofNat 64 (wireNat [b0, b1, b2, b3, b4, b5, b6, b7])) = [b0, b1, b2, b3, b4, b5, b6, b7] := by
  have := b0.isLt; have := b1.isLt; have := b2.isLt; have := b3.isLt
  have := b4.isLt; have := b5.isLt; have := b6.isLt; have := b7.isLt
  simp only [wireBytes8, wireNat, List.foldl_cons, List.foldl_nil, List.cons.injEq, and_true, ← BitVec.toNat_inj,
    BitVec.extractLsb'_toNat, BitVec.toNat_ofNat, Nat.shiftRight_eq_div_pow]
  refine ⟨?_, ?_, ?_, ?_, ?_, ?_, ?_, ?_⟩ <;> omega

/-- A driver address and a register address are read back from their bytes (R103). -/
theorem addrByte_le (a : BitVec 2) : addrByte a ≤ Config.maxDriverAddr := by revert a; decide
@[simp] theorem setWidth_addrByte (a : BitVec 2) : (addrByte a).setWidth 2 = a := by revert a; decide
@[simp] theorem setWidth_readAddrByte (r : BitVec 7) : (readAddrByte r).setWidth 7 = r := by revert r; decide
@[simp] theorem msb_readAddrByte (r : BitVec 7) : (readAddrByte r).msb = false := by revert r; decide
@[simp] theorem setWidth_writeAddrByte (r : BitVec 7) : (writeAddrByte r).setWidth 7 = r := by revert r; decide
@[simp] theorem msb_writeAddrByte (r : BitVec 7) : (writeAddrByte r).msb = true := by revert r; decide

/-- The frame decoder inverts the frame encoder (R100 to R103). -/
theorem decodeFrame_frameBytes {i : Instr} (hi : frameBytes i ≠ []) : decodeFrame (frameBytes i) = .ok i := by
  cases i
  case frameReadRequest a r c => simp [frameBytes, decodeFrame, addrByte_le]
  case frameWriteRequest a r p0 p1 p2 p3 c => simp [frameBytes, decodeFrame, addrByte_le]
  case frameReply r p0 p1 p2 p3 c => simp [frameBytes, decodeFrame]
  all_goals exact absurd rfl hi

/-- A frame of four bytes is read from the number of its bytes. -/
theorem decodeTableWord_of_fourBytes {b1 b2 b3 : Byte} {i : Instr}
    (h : decodeFrame [Config.sync, b1, b2, b3] = .ok i) :
    decodeTableWord 32 (wireNat [Config.sync, b1, b2, b3]) = some i := by
  simp [decodeTableWord, wireNat_four, decodeCommand_syncWord, wireBytes4_commandWord, h, Except.toOption]

/-- A frame of eight bytes is read from the number of its bytes. -/
theorem decodeTableWord_of_eightBytes {b0 b1 b2 b3 b4 b5 b6 b7 : Byte} {i : Instr}
    (h : decodeFrame [b0, b1, b2, b3, b4, b5, b6, b7] = .ok i) :
    decodeTableWord 64 (wireNat [b0, b1, b2, b3, b4, b5, b6, b7]) = some i := by
  simp [decodeTableWord, wireBytes8_wireNat, h, Except.toOption]

/-- Settles O1: a command by its word, a frame by its bytes. -/
theorem decodeOfEncodeIsTheInstruction : Obligations.DecodeOfEncodeIsTheInstruction := by
  intro i h0
  cases i
  case frameReadRequest a r c =>
    exact decodeTableWord_of_fourBytes (decodeFrame_frameBytes (i := .frameReadRequest a r c) (by simp [frameBytes]))
  case frameWriteRequest a r p0 p1 p2 p3 c =>
    exact decodeTableWord_of_eightBytes
      (decodeFrame_frameBytes (i := .frameWriteRequest a r p0 p1 p2 p3 c) (by simp [frameBytes]))
  case frameReply r p0 p1 p2 p3 c =>
    exact decodeTableWord_of_eightBytes
      (decodeFrame_frameBytes (i := .frameReply r p0 p1 p2 p3 c) (by simp [frameBytes]))
  all_goals exact decodeTableWord_of_decodeCommand (decodeCommand_encodeCommand rfl h0)

/-- Settles O4: each word is written out, so the decoder computes it. -/
theorem writtenOutWordsDecode : Obligations.WrittenOutWordsDecode := by
  unfold Obligations.WrittenOutWordsDecode
  decide

/-! ### The reserved words (R120 to R122) -/

/-- The read addresses of R140 are those of the catalog's registers. -/
theorem mem_readAddresses (b : Byte) :
    b ∈ ([0x00, 0x01, 0x02, 0x03, 0x06, 0x10, 0x11, 0x12, 0x13, 0x14, 0x22, 0x6C, 0x70] : List Byte) ↔
      ∃ x : Reg, x.addr = b :=
  (List.mem_map (f := Reg.addr) (l := Reg.catalog)).trans (by simp [Reg.mem_catalog])

/-- R121's refusal is for exactly the bytes that are no read address. -/
theorem withRegister_error_iff (r : Byte) (k : Reg → Instr) :
    (∃ e, withRegister r k = .error e) ↔ ¬ ∃ x : Reg, x.addr = r := by
  unfold withRegister
  split
  · next x hx => simpa using ⟨x, (Reg.ofByte?_eq_some _ _).1 hx⟩
  · next hn =>
    have : ¬ ∃ x : Reg, x.addr = r := by rintro ⟨x, rfl⟩; simp at hn
    simpa using this

/-- Settles O3, by the opcode. -/
theorem reservedWordsAreExactlyTheRejected : Obligations.ReservedWordsAreExactlyTheRejected := by
  intro w
  have opc : ∀ {k : Nat} (b : Byte), (opcOf w).toNat = k → b.toNat = k → opcOf w = b :=
    fun b h hb => BitVec.eq_of_toNat_eq (h.trans hb.symm)
  simp only [mem_readAddresses]
  unfold decodeCommand
  split
  · next ho => simp [opc 0x01 ho rfl]
  · next ho =>
    rw [opc 0x02 ho rfl]
    split
    · next hn => simp [hn]
    · next hn => simpa using hn
  · next ho => simp [opc 0x10 ho rfl]
  · next ho => simp [opc 0x11 ho rfl]
  · next ho => simp [opc 0x12 ho rfl, withRegister_error_iff]
  · next ho => simp [opc 0x20 ho rfl, withRegister_error_iff]
  · next ho => simp [opc 0x21 ho rfl, withRegister_error_iff]
  · next ho => simp [opc 0x30 ho rfl]
  · next ho => simp [opc 0x40 ho rfl, withRegister_error_iff]
  · next ho => simp [opc 0x41 ho rfl, withRegister_error_iff]
  · next ho => simp [opc 0x42 ho rfl]
  -- none of the eleven OPC values: the hypotheses of this branch say so one by one
  · simp_all [← BitVec.toNat_inj]

end Sys2Proof

namespace Sys2Proof.Machine

/-! ### What runs as what -/

/-- Settles O5: the arms of the per-register forms are those of READ_REG and WRITE_REG (R145). -/
theorem perRegisterFormsRunAsReadAndWrite : Obligations.PerRegisterFormsRunAsReadAndWrite :=
  fun r s => ⟨exec_readForm r s, exec_writeForm r s⟩

/-- Bytes on the line that are a frame run as that frame (log entry 11). -/
theorem wireMove_of_decodeFrame {bs : List Byte} {i : Instr} (h : decodeFrame bs = .ok i) (s : State) :
    wireMove bs s = exec i s := by
  simp [wireMove, h]

/-- Settles O7: the arrival is the first move, and it executes the frame. -/
theorem stepRunsTheFrameOnTheLine : Obligations.StepRunsTheFrameOnTheLine := by
  intro s bs rest i hin hd
  rw [step_of_input hin rfl]
  exact wireMove_of_decodeFrame hd _

/-! ### Bytes that arrive on the line (R257) -/

/-- Byte 2 of a write request has bit 7 set (R81, R101). -/
theorem writeAddrByte_eq_or (r : BitVec 7) : writeAddrByte r = 0x80 ||| r.setWidth 8 := by revert r; decide

/-- Bytes that complete no exchange are held, and nothing else changes (R45). -/
theorem arrive_of_lacking {s : State} {bs : List Byte} (h : ∀ n, s.wanted = some n → s.line.length + bs.length < n) :
    arrive bs s = .next { s with line := s.line ++ bs } := by
  have hw : State.wanted { s with line := s.line ++ bs } = s.wanted := rfl
  simp only [arrive, hw]
  split
  · next n hn => exact if_neg (by simpa using h n hn)
  · rfl

/-- The first RXLEN of the held bytes are an answer to the exchange, where that many are held (R254). -/
theorem answerFits_take {q : Port} {n : Byte} {held : List Byte} (hn : q.rxlen = some n)
    (hle : n.toNat ≤ held.length) : answerFits (.bytes (held.take n.toNat)) q = true := by
  simp [answerFits, hn, hle]

/-- The bytes that a frame puts on the line, by its form (R100 to R102). -/
def FrameOnLine (i : Instr) (bs : List Byte) : Prop :=
  (∃ (a : BitVec 2) (r : BitVec 7) (c : Byte),
    i = .frameReadRequest a r c ∧ bs = [0x05, a.setWidth 8, r.setWidth 8, c]) ∨
  (∃ (a : BitVec 2) (r : BitVec 7) (p0 p1 p2 p3 c : Byte),
    i = .frameWriteRequest a r p0 p1 p2 p3 c ∧
      bs = [0x05, a.setWidth 8, 0x80 ||| r.setWidth 8, p0, p1, p2, p3, c]) ∨
  (∃ (r : BitVec 7) (p0 p1 p2 p3 c : Byte),
    i = .frameReply r p0 p1 p2 p3 c ∧ bs = [0x05, 0xFF, r.setWidth 8, p0, p1, p2, p3, c])

/-- A frame of any form does what the arrival of its bytes does. -/
theorem FrameOnLine.exec_eq_arrive {i : Instr} {bs : List Byte} (h : FrameOnLine i bs) (s : State) :
    exec i s = arrive bs s := by
  obtain ⟨a, r, c, rfl, rfl⟩ | ⟨a, r, p0, p1, p2, p3, c, rfl, rfl⟩ | ⟨r, p0, p1, p2, p3, c, rfl, rfl⟩ := h
  · rfl
  · rw [← writeAddrByte_eq_or]; rfl
  · rfl

/-- The exchange of port `p` has ended with the first `n` of the held bytes: the port's command has gone on to `q`, the
lock is free, and the other bytes stay held (R254, log entry 12). -/
structure ExchangeEnded (s t : State) (p : PortId) (held : List Byte) (n : Nat) (q : Port) : Prop where
  port : t.port p = q
  others : ∀ p', p' ≠ p → t.port p' = s.port p'
  lockOwner : t.lockOwner = none
  xfer : t.xfer = none
  line : t.line = held.drop n

/-- Bytes that complete the exchange in flight end it with the first RXLEN of the held bytes (R254, log entry 12). -/
theorem arrive_of_complete {s : State} {bs : List Byte} {p : PortId} {ph : Phase} {n : Byte} {q : Port}
    (hl : s.lockOwner = some p) (hs : (s.port p).seq = .xchg ph) (hn : (s.port p).rxlen = some n)
    (hle : n.toNat ≤ s.line.length + bs.length)
    (hc : continueCommand ph (.bytes ((s.line ++ bs).take n.toNat)) (s.port p) = .ok q) :
    ∃ t, arrive bs s = .next t ∧ ExchangeEnded s t p (s.line ++ bs) n.toNat q := by
  have hheld : n.toNat ≤ (s.line ++ bs).length := by simpa using hle
  have hw : State.wanted { s with line := s.line ++ bs } = some n.toNat :=
    (wanted_eq_some _ _).2 ⟨p, ph, n, hl, hs, hn, rfl⟩
  refine ⟨State.endExchange { s with line := s.line ++ bs } p (.bytes ((s.line ++ bs).take n.toNat)) q, ?next, ?ended⟩
  case next =>
    simp only [arrive, hw, if_pos hheld]
    exact (answer_next _ _ _).2 ⟨p, ph, q, hl, hs, answerFits_take hn hheld, hc, rfl⟩
  case ended =>
    refine ⟨State.port_endExchange_self _ _ _ _, fun p' hp => State.port_endExchange_other _ _ _ _ _ hp, rfl, rfl, ?_⟩
    simp [lineAfter, Nat.min_eq_left hle]

/-- Settles O42: a frame is the arrival of its bytes, and in a good state every exchange they complete can end. -/
theorem framesArriveOnTheLine : Obligations.FramesArriveOnTheLine := by
  intro s
  refine ⟨fun a r c h => ?read, fun a r p0 p1 p2 p3 c h => ?write, fun r p0 p1 p2 p3 c h => ?reply,
    fun i bs p ph n hf hI hl hs hn hle => ?complete⟩
  case read =>
    rw [FrameOnLine.exec_eq_arrive (.inl ⟨a, r, c, rfl, rfl⟩)]
    exact arrive_of_lacking h
  case write =>
    rw [FrameOnLine.exec_eq_arrive (.inr (.inl ⟨a, r, p0, p1, p2, p3, c, rfl, rfl⟩))]
    exact arrive_of_lacking h
  case reply =>
    rw [FrameOnLine.exec_eq_arrive (.inr (.inr ⟨r, p0, p1, p2, p3, c, rfl, rfl⟩))]
    exact arrive_of_lacking h
  case complete =>
    have hheld : n.toNat ≤ (s.line ++ bs).length := by simpa using hle
    obtain ⟨q, hc, -⟩ := continueCommand_port_ok ph _ _ (hI.ports p) hs (answerFits_take hn hheld)
    obtain ⟨t, ht, hend⟩ := arrive_of_complete hl hs hn hle hc
    exact ⟨t, (FrameOnLine.exec_eq_arrive hf s).trans ht, hend.lockOwner, hend.xfer, hend.line, hend.others,
      hend.port.symm ▸ hc⟩

/-! ### How each command continues with received bytes -/

theorem replyOfRead_append {echo reply : List Byte} (he : echo.length = 4) (hr : reply.length = 8) :
    replyOfRead (echo ++ reply) = reply := by
  simp [replyOfRead, ← he, ← hr]

theorem replyOfWrite_append {echo reply : List Byte} (he : echo.length = 12) (hr : reply.length = 8) :
    replyOfWrite (echo ++ reply) = reply := by
  simp [replyOfWrite, ← he, ← hr]

/-- READ_REG ends with what the decoder makes of its reply (R291). -/
theorem continueCommand_rd {q : Port} {x : Reg} (hx : q.cmdReg = some x) (rx : List Byte) :
    continueCommand .rd (.bytes rx) q = .ok (q.putReply (decReply (replyOfRead rx) x)) := by
  simp [continueCommand, continueRd, hx]

/-- A rejected reply ends WRITE_REG before the write is sent (R297). -/
theorem continueCommand_wb_error {rx : List Byte} {e : Status} (h : decReply (replyOfRead rx) .ifcnt = .error e)
    (q : Port) : continueCommand .wb (.bytes rx) q = .ok (q.raise e) := by
  simp [continueCommand, continueWb, h]

/-- The two frames of the WM exchange, for an address in range (R297). -/
theorem writeThenRead_eq {a : Byte} (ha : a ≤ Config.maxDriverAddr) (w : Byte) (v : Word) :
    writeThenRead a w v = .ok (closeFrame ([Config.sync, a, w + Config.writeOffset] ++ bytesOf v) ++
      closeFrame [Config.sync, a, Reg.ifcnt.addr]) := by
  simp only [writeThenRead, encWrite_ok _ _ _ ha, encRead_ok _ _ ha]

/-- An accepted reply gives BEFORE, and the main exchange is requested (R297). -/
theorem continueCommand_wb_ok {rx : List Byte} {v : Word} {f : FieldRecord} {q : Port} {w : Byte} {pay : Word}
    (h : decReply (replyOfRead rx) .ifcnt = .ok (v, f)) (ha : q.cfgAddr ≤ Config.maxDriverAddr)
    (hw : q.wreg = some w) (hpay : q.wpay = some pay) :
    continueCommand .wb (.bytes rx) q =
      .ok ((q.putBefore (ifcntOf v)).busExchange .wm
        (closeFrame ([Config.sync, q.cfgAddr, w + Config.writeOffset] ++ bytesOf pay) ++
          closeFrame [Config.sync, q.cfgAddr, Reg.ifcnt.addr]) Config.writeRxLen) := by
  simp only [continueCommand, continueWb, h, hw, hpay, writeThenRead_eq ha]

/-- A rejected reply ends WRITE_REG without a comparison (R298). -/
theorem continueCommand_wm_error {rx : List Byte} {e : Status} (h : decReply (replyOfWrite rx) .ifcnt = .error e)
    (q : Port) : continueCommand .wm (.bytes rx) q = .ok (q.raise e) := by
  simp [continueCommand, continueWm, h]

/-- An accepted reply gives AFTER, which is compared with BEFORE (R298). -/
theorem continueCommand_wm_ok {rx : List Byte} {v : Word} {f : FieldRecord} {q : Port} {b : Byte}
    (h : decReply (replyOfWrite rx) .ifcnt = .ok (v, f)) (hb : q.before = some b) :
    continueCommand .wm (.bytes rx) q = .ok ((q.putAfter (ifcntOf v)).finish (verifyStatus b (ifcntOf v))) := by
  simp [continueCommand, continueWm, h, hb]

/-- The comparison of R302 on numbers. -/
theorem verifyStatus_eq (b a : Byte) :
    verifyStatus b a =
      if b.toNat < a.toNat ∨ (b = 255 ∧ a = 0) then .ok else .writeVerificationFailed := by
  simp [verifyStatus, verifies, BitVec.lt_def]

/-! ### A frame of exactly the missing bytes -/

/-- A frame of exactly the bytes that the exchange still lacks ends it with all the held bytes, and leaves nothing on the
line (R254). -/
theorem FrameOnLine.exec_of_exact {i : Instr} {bs : List Byte} (h : FrameOnLine i bs) {s : State} {p : PortId}
    {ph : Phase} {n : Byte} {q : Port} (hl : s.lockOwner = some p) (hs : (s.port p).seq = .xchg ph)
    (hn : (s.port p).rxlen = some n) (hall : (s.line ++ bs).length = n.toNat)
    (hc : continueCommand ph (.bytes (s.line ++ bs)) (s.port p) = .ok q) :
    ∃ t, exec i s = .next t ∧ t.lockOwner = none ∧ t.line = [] ∧ (∀ p', p' ≠ p → t.port p' = s.port p') ∧
      t.port p = q := by
  have hle : n.toNat ≤ s.line.length + bs.length := by simpa using hall.ge
  obtain ⟨t, ht, hend⟩ := arrive_of_complete hl hs hn hle (by rwa [List.take_of_length_le hall.le])
  refine ⟨t, (h.exec_eq_arrive s).trans ht, hend.lockOwner, ?_, hend.others, hend.port⟩
  rw [hend.line, List.drop_of_length_le hall.le]

/-- Settles O43, by the phase of the exchange and what the decoder makes of the frame. -/
theorem replyFrameEndsTheRead : Obligations.ReplyFrameEndsTheRead := by
  intro s p r p0 p1 p2 p3 c hl
  generalize hb : ([0x05, 0xFF, r.setWidth 8, p0, p1, p2, p3, c] : List Byte) = reply
  have hframe : FrameOnLine (.frameReply r p0 p1 p2 p3 c) reply := .inr (.inr ⟨r, p0, p1, p2, p3, c, rfl, hb.symm⟩)
  have hreply : reply.length = 8 := hb ▸ rfl
  refine ⟨fun x hs hn hx hlen => ?rd, fun w pay hs hn ha hw hpay hlen => ?wb, fun b hs hn hbefore hlen => ?wm,
    fun n hs hn hlen => ?raw⟩
  case rd =>
    have hall : (s.line ++ reply).length = (12 : Byte).toNat := by simp [hlen, hreply]
    rw [← replyOfRead_append hlen hreply]
    cases hd : decReply (replyOfRead (s.line ++ reply)) x with
    | error e => exact hframe.exec_of_exact hl hs hn hall (by rw [continueCommand_rd hx, hd]; rfl)
    | ok vf => exact hframe.exec_of_exact hl hs hn hall (by rw [continueCommand_rd hx, hd]; rfl)
  case wb =>
    have hall : (s.line ++ reply).length = (12 : Byte).toNat := by simp [hlen, hreply]
    rw [← replyOfRead_append hlen hreply]
    cases hd : decReply (replyOfRead (s.line ++ reply)) .ifcnt with
    | error e => exact hframe.exec_of_exact hl hs hn hall (continueCommand_wb_error hd _)
    | ok vf => exact hframe.exec_of_exact hl hs hn hall (continueCommand_wb_ok hd ha hw hpay)
  case wm =>
    have hall : (s.line ++ reply).length = (20 : Byte).toNat := by simp [hlen, hreply]
    rw [← replyOfWrite_append hlen hreply]
    cases hd : decReply (replyOfWrite (s.line ++ reply)) .ifcnt with
    | error e => exact hframe.exec_of_exact hl hs hn hall (continueCommand_wm_error hd _)
    | ok vf =>
      simp only [← verifyStatus_eq]
      exact hframe.exec_of_exact hl hs hn hall (continueCommand_wm_ok hd hbefore)
  case raw =>
    have hall : (s.line ++ reply).length = n.toNat := by simpa [hreply] using hlen
    obtain ⟨t, ht, hlock, hline, hothers, hport⟩ := hframe.exec_of_exact hl hs hn hall rfl
    have hread : ∀ k, (t.port p).dout.read k =
        if k < n.toNat then (s.line ++ reply)[k]? else (s.port p).dout.read k := fun k => by
      simp only [hport, Port.finish_dout, Port.putDout_dout, Memory.read_writeBytes, hall, Nat.zero_le, true_and,
        Nat.zero_add, Nat.sub_zero]
    refine ⟨t, (s.port p).dout.writeBytes 0 (s.line ++ reply), ht, hlock, hline, hothers, ?_,
      fun k hk => (hread k).trans (if_pos hk), fun k hk => (hread k).trans (if_neg (Nat.not_lt.2 hk))⟩
    rw [hport, ← hall]
    rfl

/-! ### Pseudo-instructions (R131, R132) -/

/-- The record that a field list makes has exactly the register's fields (R131). -/
theorem FieldRecord.make_fits (x : Reg) (given : List (FieldName × Nat)) :
    (FieldRecord.make x given).fits x = true := by
  simp [FieldRecord.fits, FieldRecord.make, Function.comp_def]

/-- A field not listed gets 0 (R131). -/
theorem listedValue_of_notListed {given : List (FieldName × Nat)} {n : FieldName} (h : ∀ g ∈ given, g.1 ≠ n) :
    listedValue given n = 0 := by
  induction given with
  | nil => rfl
  | cons g given ih =>
    obtain ⟨hg, hrest⟩ := List.forall_mem_cons.1 h
    rw [listedValue_cons_other g n given hg, ih hrest]

/-- A listed field gets the value of its first listing (log entry 28). -/
theorem listedValue_of_firstListed {pre : List (FieldName × Nat)} {n : FieldName} (h : ∀ g ∈ pre, g.1 ≠ n) (v : Nat)
    (post : List (FieldName × Nat)) : listedValue (pre ++ (n, v) :: post) n = v := by
  induction pre with
  | nil => exact listedValue_cons_self v n post
  | cons g pre ih =>
    obtain ⟨hg, hrest⟩ := List.forall_mem_cons.1 h
    rw [List.cons_append, listedValue_cons_other g n _ hg, ih hrest]

/-- Settles O60: the expansions are the definition's, the field values those of the list, and the words decode by the
opcode map. -/
theorem pseudoInstructionsExpand : Obligations.PseudoInstructionsExpand := by
  intro p x a given
  refine ⟨FieldRecord.make_fits x given, fun f hf => ⟨fun pre v post hgiven hpre => ?listed, fun h => ?notListed⟩,
    rfl, rfl, decodeCommand_writeWord 0 0 x, rfl, decodeCommand_readWord 0 0 x, rfl, decodeCommand_encWrWord a _ 0⟩
  case listed => rw [FieldRecord.get?_make x given f hf, hgiven, listedValue_of_firstListed hpre]
  case notListed => rw [FieldRecord.get?_make x given f hf, listedValue_of_notListed h, Nat.zero_mod]

end Sys2Proof.Machine
end

section
/-! PROOFS of the register catalog family (40_register_catalog.md): the packer and the extractor bit by bit, the checked
reserved bits, the commands UNPACK and PACK, and that no step reports PackingError. -/

namespace Sys2Proof.Machine

/-! ### Which bits a layout's fields hold (R141, R144) -/

/-- Bit `i` of a payload is one of the field's bits. -/
def FieldSpec.holds (f : FieldSpec) (i : Nat) : Bool := decide (f.lo ≤ i ∧ i < f.lo + f.width)

/-- The field's value in a payload (R141): one entry of `fieldsOf`. -/
def FieldSpec.read (v : Word) (f : FieldSpec) : FieldVal := ⟨f.name, f.width, v.extractLsb' f.lo f.width⟩

theorem fieldsOf_vals (r : Reg) (v : Word) : (fieldsOf r v).vals = (layout r).map (FieldSpec.read v) := rfl

theorem FieldSpec.holds_iff {f : FieldSpec} {i : Nat} : f.holds i = true ↔ f.lo ≤ i ∧ i < f.lo + f.width := by
  simp [FieldSpec.holds]

theorem FieldSpec.holds_eq_false_iff {f : FieldSpec} {i : Nat} :
    f.holds i = false ↔ i < f.lo ∨ f.lo + f.width ≤ i := by
  rw [Bool.eq_false_iff, Ne, FieldSpec.holds_iff]
  omega

/-- The fields of a register lie inside the payload (R150 to R162). -/
theorem layout_within (r : Reg) : ∀ f ∈ layout r, f.lo + f.width ≤ 32 := by cases r <;> decide

/-- LAYOUT lists a register's fields from the low bits up, each above the one before it (R150 to R162). -/
theorem layout_ascending (r : Reg) : (layout r).Pairwise fun f g => f.lo + f.width ≤ g.lo := by cases r <;> decide

/-! ### FIELD_MASK (R144) -/

/-- A field's mask has exactly the field's bits. -/
theorem getLsbD_allOnes_shiftLeft (f : FieldSpec) {i : Nat} (hi : i < 32) :
    ((BitVec.allOnes f.width).setWidth 32 <<< f.lo).getLsbD i = f.holds i := by
  rw [Bool.eq_iff_iff, FieldSpec.holds_iff]
  simp only [BitVec.getLsbD_shiftLeft, BitVec.getLsbD_setWidth, BitVec.getLsbD_allOnes, Bool.and_eq_true,
    decide_eq_true_eq, Bool.not_eq_true', decide_eq_false_iff_not, not_lt]
  omega

/-- The OR of the masks of some fields, over what was there before. -/
theorem getLsbD_foldl_mask (fs : List FieldSpec) (m : Word) {i : Nat} (hi : i < 32) :
    (fs.foldl (fun m f => m ||| ((BitVec.allOnes f.width).setWidth 32 <<< f.lo)) m).getLsbD i =
      (m.getLsbD i || fs.any (·.holds i)) := by
  induction fs generalizing m with
  | nil => simp
  | cons f fs ih =>
    rw [List.foldl_cons, ih, BitVec.getLsbD_or, getLsbD_allOnes_shiftLeft f hi, List.any_cons, Bool.or_assoc]

theorem getLsbD_fieldMask (r : Reg) {i : Nat} (hi : i < 32) :
    (fieldMask r).getLsbD i = (layout r).any (·.holds i) := by
  simp [fieldMask, getLsbD_foldl_mask _ _ hi]

/-- Settles O24: the table is evaluated. -/
theorem fieldMasksAreTheTable : Obligations.FieldMasksAreTheTable := by
  unfold Obligations.FieldMasksAreTheTable
  decide

/-! ### PACK after UNPACK (R142) -/

/-- A field's value put back at its place: the payload's bits there, and 0 elsewhere. -/
theorem getLsbD_read_shiftLeft (f : FieldSpec) (v : Word) {i : Nat} (hi : i < 32) :
    ((f.read v).val.setWidth 32 <<< f.lo).getLsbD i = (f.holds i && v.getLsbD i) := by
  by_cases hlo : f.lo ≤ i
  · have hplace : i - f.lo < f.width ↔ i < f.lo + f.width := by omega
    simp [FieldSpec.read, FieldSpec.holds, hi, hlo, hplace, Nat.add_sub_cancel' hlo]
  · simp [FieldSpec.holds, hlo, Nat.lt_of_not_le hlo]

/-- Packing the fields read from a payload gives the payload's bits where a field lies, and 0 elsewhere. -/
theorem getLsbD_packVals_read (fs : List FieldSpec) (v : Word) {i : Nat} (hi : i < 32) :
    (packVals fs (fs.map (FieldSpec.read v))).getLsbD i = (fs.any (·.holds i) && v.getLsbD i) := by
  induction fs with
  | nil => simp [packVals]
  | cons f fs ih =>
    rw [List.map_cons, packVals, BitVec.getLsbD_or, getLsbD_read_shiftLeft f v hi, ih, List.any_cons,
      Bool.and_or_distrib_right]

/-- Settles O21, bit by bit: both sides are the payload's bits that some field holds. -/
theorem packOfUnpackKeepsTheFieldBits : Obligations.PackOfUnpackKeepsTheFieldBits := by
  intro r v f h
  obtain rfl := unpack_ok r v f h
  refine BitVec.eq_of_getLsbD_eq fun i hi => ?_
  rw [pack, fieldsOf_vals, getLsbD_packVals_read _ _ hi, BitVec.getLsbD_and, getLsbD_fieldMask r hi, Bool.and_comm]

/-! ### UNPACK after PACK (R142) -/

/-- The values are those of the fields, in order, each of its field's name and width (R35). -/
abbrev ValsFit : List FieldSpec → List FieldVal → Prop :=
  List.Forall₂ fun f x => f.name = x.name ∧ f.width = x.width

theorem FieldRecord.fits_iff {r : Reg} {f : FieldRecord} :
    f.fits r = true ↔ f.reg = r ∧ ValsFit (layout r) f.vals := by
  have hvals : f.vals.map (fun x => (x.name, x.width)) = ((layout r).map fun s => (s.name, s.width)) ↔
      ValsFit (layout r) f.vals := by
    rw [eq_comm, ← List.forall₂_eq_eq_eq, List.forall₂_map_left_iff, List.forall₂_map_right_iff]
    simp only [Prod.mk.injEq]
  simp [FieldRecord.fits, hvals]

/-- A value at its place has no bit outside its field. -/
theorem getLsbD_val_shiftLeft_eq_false {f : FieldSpec} {x : FieldVal} (hw : f.width = x.width) {i : Nat}
    (hi : f.holds i = false) : (x.val.setWidth 32 <<< f.lo).getLsbD i = false := by
  rcases FieldSpec.holds_eq_false_iff.1 hi with hbelow | habove
  · simp [hbelow]
  · simp [BitVec.getLsbD_of_ge x.val (i - f.lo) (by omega)]

/-- Packing sets no bit that no field holds (R142: every reserved bit is written as 0). -/
theorem getLsbD_packVals_eq_false {fs : List FieldSpec} {xs : List FieldVal} (h : ValsFit fs xs) {i : Nat}
    (hi : ∀ f ∈ fs, f.holds i = false) : (packVals fs xs).getLsbD i = false := by
  induction h with
  | nil => simp [packVals]
  | cons hfx _ ih =>
    obtain ⟨hf, hfs⟩ := List.forall_mem_cons.1 hi
    rw [packVals, BitVec.getLsbD_or, getLsbD_val_shiftLeft_eq_false hfx.2 hf, ih hfs, Bool.or_false]

/-- The first field reads its own value back from a packing: the other fields lie above it. -/
theorem read_packVals_head {f : FieldSpec} {fs : List FieldSpec} {x : FieldVal} {xs : List FieldVal}
    (hn : f.name = x.name) (hw : f.width = x.width) (hf : f.lo + f.width ≤ 32)
    (habove : ∀ g ∈ fs, f.lo + f.width ≤ g.lo) (h : ValsFit fs xs) : f.read (packVals (f :: fs) (x :: xs)) = x := by
  obtain ⟨n, w, val⟩ := x
  obtain rfl : f.name = n := hn
  obtain rfl : f.width = w := hw
  refine congrArg (FieldVal.mk f.name f.width) (BitVec.eq_of_getLsbD_eq fun i hi => ?_)
  have hrest : (packVals fs xs).getLsbD (f.lo + i) = false :=
    getLsbD_packVals_eq_false h fun g hg => by
      have hg := habove g hg
      exact FieldSpec.holds_eq_false_iff.2 (.inl (by omega))
  have hplace : f.lo + i < 32 := by omega
  rw [packVals, BitVec.getLsbD_extractLsb', BitVec.getLsbD_or, hrest]
  simp [hi, hplace]

/-- A field above the first one reads from a packing what it reads from the packing of the rest. -/
theorem read_packVals_tail {f g : FieldSpec} {fs : List FieldSpec} {x : FieldVal} {xs : List FieldVal}
    (hw : f.width = x.width) (habove : f.lo + f.width ≤ g.lo) :
    g.read (packVals (f :: fs) (x :: xs)) = g.read (packVals fs xs) := by
  refine congrArg (FieldVal.mk g.name g.width) (BitVec.eq_of_getLsbD_eq fun i hi => ?_)
  have hfirst : (x.val.setWidth 32 <<< f.lo).getLsbD (g.lo + i) = false :=
    getLsbD_val_shiftLeft_eq_false hw (FieldSpec.holds_eq_false_iff.2 (.inr (by omega)))
  simp only [packVals, BitVec.getLsbD_extractLsb', BitVec.getLsbD_or, hfirst, Bool.false_or]

/-- Fields that ascend within 32 bits read from a packing the values that were packed. -/
theorem map_read_packVals {fs : List FieldSpec} {xs : List FieldVal} (h : ValsFit fs xs)
    (hin : ∀ f ∈ fs, f.lo + f.width ≤ 32) (hasc : fs.Pairwise fun f g => f.lo + f.width ≤ g.lo) :
    fs.map (FieldSpec.read (packVals fs xs)) = xs := by
  induction h with
  | nil => rfl
  | @cons f x fs xs hfx h ih =>
    obtain ⟨hf, hfs⟩ := List.forall_mem_cons.1 hin
    obtain ⟨habove, hasc⟩ := List.pairwise_cons.1 hasc
    obtain ⟨hn, hw⟩ := hfx
    rw [List.map_cons, read_packVals_head hn hw hf habove h,
      List.map_congr_left fun g hg => read_packVals_tail hw (habove g hg), ih hfs hasc]

/-- The record of a packing is the record that was packed (R142). -/
theorem fieldsOf_pack {r : Reg} {f : FieldRecord} (h : f.fits r = true) : fieldsOf r (pack r f) = f := by
  obtain ⟨rfl, hvals⟩ := FieldRecord.fits_iff.1 h
  have hread := map_read_packVals hvals (layout_within _) (layout_ascending _)
  exact congrArg (FieldRecord.mk f.reg) hread

/-- RESERVED_CHECK names no bit of a field (R143). -/
theorem reservedCheck_not_held (r : Reg) : ∀ b ∈ reservedCheck r, ∀ f ∈ layout r, f.holds b = false := by
  cases r <;> decide

/-- A packed payload passes the reserved check (R142, R143). -/
theorem reservedClear_pack {r : Reg} {f : FieldRecord} (h : f.fits r = true) : reservedClear r (pack r f) = true := by
  obtain ⟨-, hvals⟩ := FieldRecord.fits_iff.1 h
  refine List.all_eq_true.2 fun b hb => ?_
  rw [pack, getLsbD_packVals_eq_false hvals (reservedCheck_not_held r b hb), Bool.not_false]

/-- Settles O22: the packing passes the reserved check, and its fields are the record's. -/
theorem unpackOfPackIsTheRecord : Obligations.UnpackOfPackIsTheRecord := by
  intro r f h
  rw [unpack, if_pos (reservedClear_pack h), fieldsOf_pack h]

/-! ### The reserved check (R143) -/

/-- UNPACK's only error, and when it is reported. -/
theorem unpack_error_iff {r : Reg} {v : Word} {e : Status} :
    unpack r v = .error e ↔ e = .unpackingError ∧ ∃ b ∈ reservedCheck r, v.getLsbD b = true := by
  have hclear : reservedClear r v = false ↔ ∃ b ∈ reservedCheck r, v.getLsbD b = true := by simp [reservedClear]
  rw [← hclear, unpack]
  cases reservedClear r v <;> simp [eq_comm]

theorem mem_reservedCheck {r : Reg} {b : Nat} : b ∈ reservedCheck r ↔ r = .ioin ∧ (b = 1 ∨ b = 5) := by
  cases r <;> simp [reservedCheck]

/-- Settles O23: the checked bits are bits 1 and 5 of IOIN. -/
theorem onlyIoinHasCheckedReservedBits : Obligations.OnlyIoinHasCheckedReservedBits := by
  intro r v
  rw [unpack_error_iff]
  constructor
  · rintro ⟨-, b, hb, hv⟩
    obtain ⟨rfl, rfl | rfl⟩ := mem_reservedCheck.1 hb
    · exact ⟨rfl, .inl hv⟩
    · exact ⟨rfl, .inr hv⟩
  · rintro ⟨rfl, hv | hv⟩
    · exact ⟨rfl, 1, mem_reservedCheck.2 ⟨rfl, .inl rfl⟩, hv⟩
    · exact ⟨rfl, 5, mem_reservedCheck.2 ⟨rfl, .inr rfl⟩, hv⟩

/-! ### IFCNT's count and VACTUAL's signed view (R152, R160, R299) -/

/-- Settles O25: each view is a field from bit 0 up, and the signed view is the two's complement of 24 bits. -/
theorem countAndVelocityFieldsReadAsStated : Obligations.CountAndVelocityFieldsReadAsStated := by
  intro v
  have hlow : ∀ k, (v.extractLsb' 0 k).toNat = v.toNat % 2 ^ k := fun k => by simp
  refine ⟨congrArg some (hlow 8), hlow 8, congrArg some ?signed⟩
  case signed =>
    refine (BitVec.toInt_eq_toNat_cond (v.extractLsb' 0 24)).trans ?_
    rw [hlow 24]
    split <;> split <;> omega

/-! ### The commands UNPACK and PACK (R141, R142) -/

/-- Settles O26, by what the extractor makes of the payload. -/
theorem unpackCommandWritesTheRecord : Obligations.UnpackCommandWritesTheRecord := by
  intro r s hs
  refine ⟨_, s.payloadOperand, onIdlePort_idle _ _ hs, s.payloadOperand_reads, ?_⟩
  rw [State.port_updPort_self]
  cases h : unpack r s.payloadOperand with
  | ok f => exact ⟨rfl, rfl, rfl, rfl⟩
  | error e =>
    obtain ⟨rfl, -⟩ := unpack_error_iff.1 h
    exact ⟨rfl, rfl, rfl, rfl⟩

/-- Settles O27: the record is the one that the command reads from FIELDS. -/
theorem packCommandWritesThePayload : Obligations.PackCommandWritesThePayload := by
  intro r s hs
  refine ⟨_, s.fieldsOperand r, onIdlePort_idle _ _ hs, s.fieldsOperand_reads r, ?_⟩
  rw [State.port_updPort_self]
  exact ⟨rfl, rfl, rfl⟩

/-! ### PackingError is never reported (R142, R204, R331) -/

/-- If the port's STATUS is PackingError afterwards, it was so before. -/
def Port.NoNewPackingError (q q' : Port) : Prop := q'.status = some .packingError → q.status = some .packingError

theorem Port.NoNewPackingError.of_status_eq {q q' : Port} (h : q'.status = q.status) : q.NoNewPackingError q' :=
  fun hq => h ▸ hq

/-- A command that ends with another outcome does not report PackingError (R38, R330). -/
theorem Port.NoNewPackingError.finish {st : Status} (h : st ≠ .packingError) (q q' : Port) :
    q.NoNewPackingError (q'.finish st) :=
  fun hst => absurd (Option.some.inj hst) h

theorem crcStatus_ne_packingError (frame : List Byte) : crcStatus frame ≠ .packingError := by
  unfold crcStatus
  split <;> decide

theorem verifyStatus_ne_packingError (b a : Byte) : verifyStatus b a ≠ .packingError := by
  unfold verifyStatus
  split <;> decide

theorem encRead_error_ne_packingError {a r : Byte} {e : Status} (h : encRead a r = .error e) : e ≠ .packingError := by
  unfold encRead at h
  split at h <;> cases h
  decide

theorem encWrite_error_ne_packingError {a w : Byte} {v : Word} {e : Status} (h : encWrite a w v = .error e) :
    e ≠ .packingError := by
  unfold encWrite at h
  split at h <;> cases h
  decide

theorem putFrame_noNewPackingError {result : Except Status (List Byte)} (h : ∀ e, result = .error e → e ≠ .packingError)
    (q : Port) : q.NoNewPackingError (q.putFrame result) := by
  cases result with
  | ok f => exact .finish (by decide) q _
  | error e => exact .finish (h e rfl) q q

theorem putReply_noNewPackingError (b : List Byte) (r : Reg) (q : Port) :
    q.NoNewPackingError (q.putReply (decReply b r)) := by
  cases h : decReply b r with
  | ok vf => exact .finish (by decide) q _
  | error e => exact .finish (decReply_error b r e h).2 q q

theorem putUnpacked_noNewPackingError (r : Reg) (v : Word) (q : Port) :
    q.NoNewPackingError (q.putUnpacked (unpack r v)) := by
  cases h : unpack r v with
  | ok f => exact .finish (by decide) q _
  | error e => exact .finish (by simp [(unpack_error_iff.1 h).1]) q q

theorem readRegister_noNewPackingError (r : Reg) (s : State) :
    (s.port s.cur).NoNewPackingError ((readRegister r s).port s.cur) := by
  rw [readRegister_port]
  split
  · exact .of_status_eq rfl
  · exact .finish (by decide) _ _

theorem writeRegister_noNewPackingError (r : Reg) (s : State) :
    (s.port s.cur).NoNewPackingError ((writeRegister r s).port s.cur) := by
  rw [writeRegister_port]
  split
  · exact .of_status_eq rfl
  · exact .finish (by decide) _ _

/-- A command with one way to go on reports no PackingError if that way does not. -/
theorem Port.NoNewPackingError.of_onIdlePort {s u t : State} (h : onIdlePort s (.next u) = .next t)
    (hq : (s.port s.cur).NoNewPackingError (u.port s.cur)) : (s.port s.cur).NoNewPackingError (t.port s.cur) := by
  obtain ⟨-, hk⟩ := (onIdlePort_next _ _ _).1 h
  cases hk
  exact hq

/-- The same where the command is one change of its port. -/
theorem Port.NoNewPackingError.of_updPort {s u t : State} {f : Port → Port}
    (h : onIdlePort s (.next (u.updPort s.cur f)) = .next t)
    (hq : (s.port s.cur).NoNewPackingError (f (u.port s.cur))) : (s.port s.cur).NoNewPackingError (t.port s.cur) :=
  .of_onIdlePort h (by rwa [State.port_updPort_self])

/-- No command reports PackingError on its port, by the kind of command. -/
theorem exec_command_noNewPackingError {i : Instr} {s t : State} (hi : frameBytes i = []) (h : exec i s = .next t) :
    (s.port s.cur).NoNewPackingError (t.port s.cur) := by
  rcases instr_kinds i with ⟨r, rfl | rfl⟩ | ⟨r, rfl | rfl⟩ | hf | ⟨n, rfl⟩ | ⟨n, rfl⟩ | ⟨a, r, rfl⟩ | ⟨a, r, rfl⟩ |
    ⟨r, n, rfl⟩ | ⟨r, rfl⟩ | ⟨r, rfl⟩ | ⟨a, n, rfl⟩ | ⟨a, n, rfl⟩
  · exact .of_onIdlePort h (readRegister_noNewPackingError r s)
  · rw [exec_readForm] at h
    exact .of_onIdlePort h (readRegister_noNewPackingError r s)
  · exact .of_onIdlePort h (writeRegister_noNewPackingError r s)
  · rw [exec_writeForm] at h
    exact .of_onIdlePort h (writeRegister_noNewPackingError r s)
  · exact absurd hi hf
  · exact .of_updPort h (.finish (by decide) _ _)
  · have hn : n ≠ 0 := by
      rintro rfl
      obtain ⟨-, hk⟩ := (onIdlePort_next _ _ _).1 h
      cases hk
    rw [exec, execCrcCheck, if_neg hn] at h
    exact .of_updPort h (.finish (crcStatus_ne_packingError _) _ _)
  · exact .of_updPort h (putFrame_noNewPackingError (fun _ => encRead_error_ne_packingError) _)
  · exact .of_updPort h (putFrame_noNewPackingError (fun _ => encWrite_error_ne_packingError) _)
  · exact .of_updPort h (putReply_noNewPackingError _ _ _)
  · exact .of_updPort h (putUnpacked_noNewPackingError _ _ _)
  · exact .of_updPort h (.finish (by decide) _ _)
  · exact .of_updPort h (.of_status_eq rfl)
  · exact .of_updPort h (.finish (verifyStatus_ne_packingError _ _) _ _)

/-- No exchange's end reports PackingError, by the answer and the phase (R254). -/
theorem continueCommand_noNewPackingError {ph : Phase} {a : Answer} {q q' : Port}
    (h : continueCommand ph a q = .ok q') : q.NoNewPackingError q' := by
  cases a with
  | timeout => cases h; exact .finish (by decide) q q
  | ioError => cases h; exact .finish (by decide) q q
  | bytes rx =>
    cases ph with
    | raw => cases h; exact .finish (by decide) q _
    | rd =>
      simp only [continueCommand, continueRd] at h
      split at h <;> cases h
      exact putReply_noNewPackingError _ _ q
    | wb =>
      simp only [continueCommand, continueWb] at h
      split at h
      case h_1 e he => cases h; exact .finish (decReply_error _ _ _ he).2 q q
      case h_2 v f hd =>
        split at h
        · split at h <;> cases h
          case h_1 e he => exact .finish (by simp [writeThenRead_error _ _ _ _ he]) q _
          case h_2 tx htx => exact .of_status_eq rfl
        · cases h
    | wm =>
      simp only [continueCommand, continueWm] at h
      split at h
      case h_1 e he => cases h; exact .finish (decReply_error _ _ _ he).2 q q
      case h_2 v f hd =>
        split at h <;> cases h
        exact .finish (verifyStatus_ne_packingError _ _) q _

/-- Settles O47, by what the step can be for the port. -/
theorem packingErrorIsNeverRaised : Obligations.PackingErrorIsNeverRaised := by
  intro s t p h
  change (s.port p).NoNewPackingError (t.port p)
  cases (step_portMove s t p h).2 with
  | stays hq _ => exact .of_status_eq (by rw [hq])
  | operandWrite f _ hf _ hq =>
    rw [hq]
    cases hf <;> exact .of_status_eq rfl
  | command w c s' _ _ _ hc hp hs hx =>
    subst hp
    have hcmd := exec_command_noNewPackingError (frameBytes_of_decodeCommand w c hc) hx
    rwa [hs] at hcmd
  | granted ph _ _ _ _ hq => exact .of_status_eq (by rw [hq])
  | answered a ph _ _ _ _ _ hq _ => exact continueCommand_noNewPackingError hq

end Sys2Proof.Machine
end

section
/-! PROOFS of the datagram codec family (41_datagram_codec.md): the request encoders and their commands, the reply
decoder's order of checks, and the CRC's sensitivity to one changed byte. -/

namespace Sys2Proof.Machine

/-! ### The driver-address check (R201) -/

/-- The driver addresses that an encoder takes. -/
theorem mem_driverAddresses_iff (a : Byte) : a ∈ ([0, 1, 2, 3] : List Byte) ↔ a ≤ Config.maxDriverAddr := by
  revert a
  decide

/-- Settles O17, by the two cases of the address check. -/
theorem bothEncodersCheckTheDriverAddress : Obligations.BothEncodersCheckTheDriverAddress := by
  intro a r v
  rw [mem_driverAddresses_iff]
  constructor
  · intro ha
    exact ⟨⟨_, encRead_ok a r ha⟩, ⟨_, encWrite_ok a r v ha⟩⟩
  · intro ha
    have ha : a > Config.maxDriverAddr := BitVec.not_le.1 ha
    exact ⟨encRead_error a r ha, encWrite_error a r v ha⟩

/-! ### The commands ENC_RD and ENC_WR (R200, R203) -/

/-- The frame that an encoder's command put in DOUT is read back from there (R40). -/
theorem Port.dout_read_putFrame_ok (q : Port) (f : List Byte) {k : Nat} (hk : k < f.length) :
    (q.putFrame (.ok f)).dout.read k = f[k]? := by
  simp [Port.putFrame, Memory.read_writeBytes, hk]

/-- What ENC_RD does on an IDLE port (R200). -/
theorem exec_encRd {s : State} (hs : s.isIdle s.cur = true) (a r : Byte) :
    exec (.encRd a r) s = .next (s.updPort s.cur (Port.putFrame (encRead a r))) :=
  onIdlePort_idle s _ hs

/-- What ENC_WR does on an IDLE port (R203). -/
theorem exec_encWr {s : State} (hs : s.isIdle s.cur = true) (a r : Byte) :
    exec (.encWr a r) s = .next (s.draw.updPort s.cur (Port.putFrame (encWrite a r s.payloadOperand))) :=
  onIdlePort_idle s _ hs

/-- Settles O15, by the two cases of the address check. -/
theorem encRdCommandBuildsTheReadRequest : Obligations.EncRdCommandBuildsTheReadRequest := by
  refine ⟨decodeCommand_encRdWord, ?built, ?rejected, by decide +kernel⟩
  case built =>
    intro a r s hs ha
    refine ⟨_, exec_encRd hs a r, ?_⟩
    rw [State.port_updPort_self, encRead_ok a r ha]
    exact ⟨fun k hk => Port.dout_read_putFrame_ok _ _ hk, rfl, rfl, rfl⟩
  case rejected =>
    intro a r s hs ha
    refine ⟨_, exec_encRd hs a r, ?_⟩
    rw [State.port_updPort_self, encRead_error a r ha]
    exact ⟨rfl, rfl, rfl, rfl⟩

/-- Settles O16, by the two cases of the address check; the payload is the one that the command reads. -/
theorem encWrCommandBuildsTheWriteRequest : Obligations.EncWrCommandBuildsTheWriteRequest := by
  refine ⟨decodeCommand_encWrWord, ?built, ?rejected, by decide +kernel⟩
  case built =>
    intro a r s hs ha
    refine ⟨_, s.payloadOperand, exec_encWr hs a r, s.payloadOperand_reads, ?_⟩
    rw [State.port_updPort_self, encWrite_ok a r _ ha]
    exact ⟨fun k hk => Port.dout_read_putFrame_ok _ _ hk, rfl, rfl, rfl⟩
  case rejected =>
    intro a r s hs ha
    refine ⟨_, exec_encWr hs a r, ?_⟩
    rw [State.port_updPort_self, encWrite_error a r _ ha]
    exact ⟨rfl, rfl, rfl, rfl⟩

/-! ### The reply decoder (R207) -/

/-- A byte sequence of any other length than a reply's is no reply. -/
theorem decReply_of_length_ne {b : List Byte} (hb : b.length ≠ 8) (r : Reg) :
    decReply b r = .error .datagramLength := by
  unfold decReply
  split
  · exact absurd rfl hb
  · rfl

/-- Settles O18, by the length; the last check's only error is UnpackingError. -/
theorem replyDecoderReportsTheFirstFailedCheck : Obligations.ReplyDecoderReportsTheFirstFailedCheck := by
  intro b r
  by_cases hb : b.length = 8
  case neg => rw [if_pos hb, decReply_of_length_ne hb]
  case pos =>
    match b, hb with
    | [b0, b1, b2, b3, b4, b5, b6, b7], hb =>
      rw [if_neg (not_not.2 hb)]
      cases hu : unpack r (payloadOf b3 b4 b5 b6) with
      | ok f => simp [decReply, hu, Config.sync, Config.masterAddr]
      | error e =>
        obtain ⟨rfl, -⟩ := unpack_error_iff.1 hu
        simp [decReply, hu, Config.sync, Config.masterAddr]

/-- A reply that decodes has 8 bytes, and its last byte is the CRC of the others. -/
theorem decReply_ok_closed {b : List Byte} {r : Reg} {v : Word} {f : FieldRecord} (h : decReply b r = .ok (v, f)) :
    b.length = 8 ∧ crc8 (b.take 7) = b.getD 7 0 := by
  rw [replyDecoderReportsTheFirstFailedCheck] at h
  split at h
  · cases h
  · next hlength =>
    split at h
    · cases h
    · next hcrc => exact ⟨not_not.1 hlength, not_not.1 hcrc⟩

/-- A sequence of a reply's length with another last byte than the CRC of the others (R207). -/
theorem decReply_of_crc_ne {b : List Byte} (hb : b.length = 8) (hcrc : crc8 (b.take 7) ≠ b.getD 7 0) (r : Reg) :
    decReply b r = .error .crcMismatch := by
  rw [replyDecoderReportsTheFirstFailedCheck, if_neg (not_not.2 hb), if_pos hcrc]

/-! ### One changed byte changes the CRC (R208)

The CRC register after a byte is linear over GF(2) in the register and the byte together, so that it is one-to-one in
each of them when only 0 leads to 0. -/

/-- The feedback bit of one iteration: bit 7 of the register against bit 0 of the data (R230). -/
def crcFeedback (crc b : Byte) : Bool := crc.msb ^^ b.getLsbD 0

theorem ushiftRight_seven_eq (crc : Byte) : crc >>> 7 = bif crc.msb then 1 else 0 := by
  revert crc
  decide

theorem and_one_eq (b : Byte) : b &&& 1 = bif b.getLsbD 0 then 1 else 0 := by
  revert b
  decide

/-- One iteration as two parts, each of which is linear: the shifted register, and the polynomial by the feedback. -/
theorem crcShift_eq (crc b : Byte) :
    crcShift crc b = (crc <<< 1) ^^^ bif crcFeedback crc b then Config.crcPoly else 0 := by
  rw [crcShift, crcFeedback, ushiftRight_seven_eq, and_one_eq]
  cases crc.msb <;> cases b.getLsbD 0 <;> simp

theorem crcFeedback_xor (c d b e : Byte) :
    crcFeedback (c ^^^ d) (b ^^^ e) = (crcFeedback c b ^^ crcFeedback d e) := by
  simp only [crcFeedback, BitVec.msb_xor, BitVec.getLsbD_xor, Bool.xor_assoc, Bool.xor_left_comm]

theorem crcShift_xor (c d b e : Byte) : crcShift (c ^^^ d) (b ^^^ e) = crcShift c b ^^^ crcShift d e := by
  have hpoly : ∀ p q : Bool, (bif p ^^ q then Config.crcPoly else 0) =
      (bif p then Config.crcPoly else 0) ^^^ (bif q then Config.crcPoly else 0) := by decide
  rw [crcShift_eq, crcFeedback_xor, hpoly, BitVec.shiftLeft_xor_distrib, crcShift_eq, crcShift_eq]
  ac_rfl

theorem crcLoop_xor (k : Nat) (c d b e : Byte) :
    crcLoop k (c ^^^ d) (b ^^^ e) = crcLoop k c b ^^^ crcLoop k d e := by
  induction k generalizing c d b e with
  | zero => rfl
  | succ k ih => rw [crcLoop, crcShift_xor, BitVec.ushiftRight_xor_distrib, ih, crcLoop, crcLoop]

theorem crcByte_xor (c d b e : Byte) : crcByte (c ^^^ d) (b ^^^ e) = crcByte c b ^^^ crcByte d e :=
  crcLoop_xor 8 c d b e

/-- Over 8 iterations the register's difference is never lost. -/
theorem crcByte_zero_right_eq_zero (d : Byte) : crcByte d 0 = 0 → d = 0 := by
  revert d
  decide

/-- Over 8 iterations the byte's difference is never lost. -/
theorem crcByte_zero_left_eq_zero (e : Byte) : crcByte 0 e = 0 → e = 0 := by
  revert e
  decide

theorem crcByte_left_injective (b : Byte) : Function.Injective (crcByte · b) := by
  intro c d h
  have hdiff : crcByte (c ^^^ d) 0 = 0 := by
    simpa [h] using crcByte_xor c d b b
  exact BitVec.xor_eq_zero_iff.1 (crcByte_zero_right_eq_zero _ hdiff)

theorem crcByte_right_injective (c : Byte) : Function.Injective (crcByte c) := by
  intro b e h
  have hdiff : crcByte 0 (b ^^^ e) = 0 := by
    simpa [h] using crcByte_xor c c b e
  exact BitVec.xor_eq_zero_iff.1 (crcByte_zero_left_eq_zero _ hdiff)

/-- Registers that differ still differ after the same bytes. -/
theorem foldl_crcByte_injective (bs : List Byte) : Function.Injective (bs.foldl crcByte ·) := by
  induction bs with
  | nil => exact Function.injective_id
  | cons b bs ih => exact ih.comp (crcByte_left_injective b)

/-- The byte put at a place is the old one if the register after all the bytes is. -/
theorem getElem?_of_foldl_crcByte_set {bs : List Byte} {i : Nat} {x c : Byte} (hi : i < bs.length)
    (h : (bs.set i x).foldl crcByte c = bs.foldl crcByte c) : bs[i]? = some x := by
  induction bs generalizing i c with
  | nil => exact absurd hi (Nat.not_lt_zero i)
  | cons b bs ih =>
    cases i with
    | zero =>
      have hbyte : crcByte c x = crcByte c b := foldl_crcByte_injective bs h
      exact congrArg some (crcByte_right_injective c hbyte).symm
    | succ i => exact ih (Nat.lt_of_succ_lt_succ hi) h

theorem crc8_set_ne {bs : List Byte} {i : Nat} {x : Byte} (hi : i < bs.length) (hx : bs[i]? ≠ some x) :
    crc8 (bs.set i x) ≠ crc8 bs :=
  fun h => hx (getElem?_of_foldl_crcByte_set hi h)

/-- Settles O19: the CRC of bytes 0 to 6 changes, and byte 7 is still the old one. -/
theorem changedByteUnderTheOldCrcIsCrcMismatch : Obligations.ChangedByteUnderTheOldCrcIsCrcMismatch := by
  intro b r r' v f i x h hi hx
  obtain ⟨hlength, hcrc⟩ := decReply_ok_closed h
  have hbody : crc8 ((b.take 7).set i x) ≠ crc8 (b.take 7) :=
    crc8_set_ne (by simp [hlength, hi]) (by rwa [List.getElem?_take_of_lt hi])
  have hlast : (b.set i x).getD 7 0 = b.getD 7 0 := by
    rw [List.getD_eq_getElem?_getD, List.getElem?_set_ne (by omega), ← List.getD_eq_getElem?_getD]
  refine decReply_of_crc_ne (by rw [List.length_set, hlength]) ?_ r'
  rwa [hlast, ← hcrc, List.take_set]

/-! ### The command DEC_REPLY (R209, R210) -/

/-- Settles O20, by what the decoder makes of the bytes that the command reads from DIN. -/
theorem decReplyCommandTrustsOnlyCheckedReplies : Obligations.DecReplyCommandTrustsOnlyCheckedReplies := by
  intro r n s hs
  refine ⟨_, s.dinOperand n, onIdlePort_idle _ _ hs, s.dinOperand_length n, s.dinOperand_reads n, ?_⟩
  rw [State.port_updPort_self]
  cases decReply (s.dinOperand n) r with
  | ok vf => exact ⟨rfl, rfl, rfl, rfl⟩
  | error e => exact ⟨rfl, rfl, rfl, rfl⟩

end Sys2Proof.Machine
end

section
/-! PROOFS of the CRC family (42_crc.md): the loop of the spec and its two commands, linearity, and what a closed frame
and a frame with one flipped bit make of the check. -/

namespace Sys2Proof.Machine

/-! ### The bit-serial loop (R230) -/

/-- Shifting the data byte right before each iteration presents its bits in rising order. -/
theorem crcLoop_eq_foldl (k : Nat) (crc b : Byte) :
    crcLoop k crc b = (List.range k).foldl (fun c i => crcShift c (b >>> i)) crc := by
  induction k generalizing crc b with
  | zero => rfl
  | succ k ih =>
    have hshift : ∀ i : Nat, b >>> 1 >>> i = b >>> (i + 1) := fun i => by
      rw [Nat.add_comm, BitVec.shiftRight_add]
    rw [crcLoop, ih, List.range_succ_eq_map, List.foldl_cons, List.foldl_map, BitVec.ushiftRight_zero]
    simp only [hshift]

theorem crc8_concat (bs : List Byte) (b : Byte) : crc8 (bs ++ [b]) = crcByte (crc8 bs) b := by
  rw [crc8, List.foldl_concat, crc8]

/-- Zero bytes leave the CRC register at its initial value. -/
theorem crc8_replicate_zero (k : Nat) : crc8 (List.replicate k 0) = 0 := by
  induction k with
  | zero => rfl
  | succ k ih =>
    rw [List.replicate_succ', crc8_concat, ih]
    decide

/-! ### The command CRC8 (R230) -/

/-- What CRC8 does on an IDLE port (R230). -/
theorem exec_crc8 {s : State} (hs : s.isIdle s.cur = true) (n : Byte) :
    exec (.crc8 n) s = .next (s.draw.updPort s.cur fun q => (q.putDout [crc8 (s.dinOperand n)]).finish .ok) :=
  onIdlePort_idle s _ hs

/-- Settles O10: the loop is the model's by `crcLoop_eq_foldl`, and the command puts the CRC of the bytes that it reads
in DOUT. -/
theorem crc8CommandWritesTheBitSerialCrc : Obligations.Crc8CommandWritesTheBitSerialCrc := by
  refine ⟨⟨rfl, ?loop⟩, ⟨by decide, crc8_replicate_zero, by decide, by decide, by decide, by decide +kernel⟩,
    decodeCommand_crc8Word, ?command⟩
  case loop =>
    intro bs b
    exact (crc8_concat bs b).trans (crcLoop_eq_foldl 8 _ b)
  case command =>
    intro n s hs
    refine ⟨_, s.dinOperand n, exec_crc8 hs n, s.dinOperand_length n, s.dinOperand_reads n, ?_⟩
    rw [State.port_updPort_self]
    exact ⟨Memory.read_write_self _ 0 _, rfl, rfl, rfl⟩

/-! ### The command CRC_CHECK (R232) -/

/-- The check on a frame with its trailing byte set apart (R232). -/
@[simp] theorem crcAccepts_concat (q : List Byte) (c : Byte) : crcAccepts (q ++ [c]) = (crc8 q == c) := by
  simp [crcAccepts]

theorem crcStatus_concat (q : List Byte) (c : Byte) :
    crcStatus (q ++ [c]) = if crc8 q = c then .ok else .crcMismatch := by
  simp [crcStatus]

/-- A frame that passes the check ends in the CRC of its other bytes: the empty one does not pass. -/
theorem crcAccepts_iff (f : List Byte) : crcAccepts f = true ↔ ∃ q, f = q ++ [crc8 q] := by
  constructor
  · intro h
    rcases List.eq_nil_or_concat' f with rfl | ⟨q, c, rfl⟩
    · cases h
    · rw [crcAccepts_concat, beq_iff_eq] at h
      exact ⟨q, by rw [h]⟩
  · rintro ⟨q, rfl⟩
    simp

/-- What CRC_CHECK does on an IDLE port (R232). -/
theorem exec_crcCheck {s : State} (hs : s.isIdle s.cur = true) {n : Byte} (hn : n ≠ 0) :
    exec (.crcCheck n) s = .next (s.draw.updPort s.cur fun q => q.finish (crcStatus (s.dinOperand n))) :=
  (onIdlePort_idle s _ hs).trans (if_neg hn)

/-- A command with N > 0 reads at least one byte, so there is a trailing one. -/
theorem State.dinOperand_eq_concat (s : State) {n : Byte} (hn : n ≠ 0) : ∃ q c, s.dinOperand n = q ++ [c] := by
  refine (List.eq_nil_or_concat' _).resolve_left fun hnil => hn ?_
  have hlength := s.dinOperand_length n
  rw [hnil] at hlength
  exact BitVec.eq_of_toNat_eq hlength.symm

/-- Settles O11, by the trailing byte of what the command reads. -/
theorem crcCheckCommandTestsTheTrailingByte : Obligations.CrcCheckCommandTestsTheTrailingByte := by
  refine ⟨?checked, ?refused⟩
  case checked =>
    intro n s hn hs
    obtain ⟨q, c, hread⟩ := s.dinOperand_eq_concat hn
    refine ⟨_, q, c, exec_crcCheck hs hn, hread ▸ s.dinOperand_length n, hread ▸ s.dinOperand_reads n, ?_⟩
    rw [State.port_updPort_self, hread, crcStatus_concat]
    exact ⟨rfl, rfl⟩
  case refused =>
    intro s hs
    exact (onIdlePort_idle s _ hs).trans (if_pos rfl)

/-! ### Linearity (R234) -/

/-- The CRC register is linear in its first value and the bytes together. -/
theorem foldl_crcByte_zipWith_xor {f e : List Byte} (h : f.length = e.length) (c d : Byte) :
    (List.zipWith (· ^^^ ·) f e).foldl crcByte (c ^^^ d) = f.foldl crcByte c ^^^ e.foldl crcByte d := by
  induction f generalizing e c d with
  | nil =>
    obtain rfl := List.eq_nil_of_length_eq_zero h.symm
    rfl
  | cons x f ih =>
    cases e with
    | nil => cases h
    | cons y e =>
      simp only [List.zipWith_cons_cons, List.foldl_cons, crcByte_xor]
      exact ih (Nat.succ.inj h) _ _

/-- Settles O12: the initial value is 0, which is its own exclusive-or. -/
theorem crcIsLinear : Obligations.CrcIsLinear :=
  fun _ _ h => foldl_crcByte_zipWith_xor h Config.crcInit Config.crcInit

/-! ### A changed byte fails the check (R234) -/

/-- A frame that passes the check fails it with one other byte: in the body the CRC changes and the trailing byte does
not, and in the trailing byte it is the other way round. -/
theorem crcAccepts_set_eq_false {f : List Byte} {i : Nat} {x : Byte} (hf : crcAccepts f = true) (hi : i < f.length)
    (hx : f[i]? ≠ some x) : crcAccepts (f.set i x) = false := by
  obtain ⟨q, rfl⟩ := (crcAccepts_iff f).1 hf
  rcases Nat.lt_or_ge i q.length with hbody | htrailing
  · have hcrc : crc8 (q.set i x) ≠ crc8 q := crc8_set_ne hbody (by rwa [List.getElem?_append_left hbody] at hx)
    rw [List.set_append_left _ _ hbody, crcAccepts_concat]
    exact beq_eq_false_iff_ne.2 hcrc
  · obtain rfl : i = q.length := by
      rw [List.length_append, List.length_singleton] at hi
      omega
    have hcrc : crc8 q ≠ x := by simpa using hx
    rw [List.set_append_right _ _ (Nat.le_refl _), Nat.sub_self, List.set_cons_zero, crcAccepts_concat]
    exact beq_eq_false_iff_ne.2 hcrc

theorem one_shiftLeft_ne_zero {k : Nat} (hk : k < 8) : (1 : Byte) <<< k ≠ 0 := by
  revert k
  decide

/-- Settles O13: the flipped byte is another byte. -/
theorem singleBitFlipFailsTheCheck : Obligations.SingleBitFlipFailsTheCheck := by
  intro f i k b hf hb hk
  obtain ⟨hi, -⟩ := List.getElem?_eq_some_iff.1 hb
  refine crcAccepts_set_eq_false hf hi fun hsame => one_shiftLeft_ne_zero hk ?_
  have hxor : b = b ^^^ (1 <<< k) := Option.some.inj (hb.symm.trans hsame)
  exact xor_left_eq_self_iff.1 hxor.symm

/-! ### Closed frames (R235) -/

/-- Settles O14: a closed reply passes each check that the decoder makes before it unpacks the payload (R207). -/
theorem closedFramesRoundTrip : Obligations.ClosedFramesRoundTrip := by
  refine ⟨fun q => (crcAccepts_iff _).2 ⟨q, rfl⟩, fun r p0 p1 p2 p3 f hf => ?_⟩
  rw [replyDecoderReportsTheFirstFailedCheck]
  simp [hf]

end Sys2Proof.Machine
end

section
/-! PROOFS of the shared bus family (43_shared_bus.md): how a sequencer moves, the arbiter's GRANT, the transport's
ANSWER, and the frames of a step, of an ANSWER and of every command. -/

namespace Sys2Proof.Machine

/-! ### How a sequencer moves (R36, R251, R252, R254) -/

/-- A sequencer leaves IDLE only by the issue of a command, into the first phase of a bus command (R251). -/
theorem PortMove.of_idle {s t : State} {p : PortId} (h : PortMove s t p) (hs : (s.port p).seq = .idle) :
    (t.port p).seq = .idle ∨
      ((∃ w rest, s.inputs = .issue p w :: rest) ∧
        ((t.port p).seq = .waitLock .raw ∨ (t.port p).seq = .waitLock .rd ∨ (t.port p).seq = .waitLock .wb)) := by
  cases h with
  | stays h _ => exact .inl (h ▸ hs)
  | operandWrite f _ hf _ h => exact .inl (by rw [h, hf.seq, hs])
  | command w c s' _ hin _ hc hp _ h =>
    subst hp
    obtain ⟨rest, hin⟩ := hin
    obtain ⟨-, -, hleaves⟩ := exec_command_next c s' t (frameBytes_of_decodeCommand w c hc) h
    obtain ⟨hidle, -⟩ | ⟨-, ph, hwait, hph⟩ := hleaves.ends
    · exact .inl hidle
    · refine .inr ⟨⟨w, rest, hin⟩, ?_⟩
      rcases hph with rfl | rfl | rfl <;> simp [hwait]
  | granted ph _ _ hwait _ _ => simp [hs] at hwait
  | answered a ph _ _ _ _ hx _ _ => simp [hs] at hx

/-- A waiting port is left as it is, or takes the free lock (R251, R252). -/
theorem PortMove.of_waitLock {s t : State} {p : PortId} {ph : Phase} (h : PortMove s t p)
    (hs : (s.port p).seq = .waitLock ph) :
    t.port p = s.port p ∨
      (s.movingPort = some p ∧ s.lockOwner = none ∧ t.lockOwner = some p ∧
        t.port p = { s.port p with seq := .xchg ph }) := by
  cases h with
  | stays h _ => exact .inl h
  | operandWrite _ _ _ hi _ => simp [State.isIdle, hs] at hi
  | command _ _ _ _ _ hi _ _ _ _ => simp [State.isIdle, hs] at hi
  | granted ph' hm hl hwait ht h =>
    obtain rfl : ph = ph' := Seq.waitLock.inj (hs.symm.trans hwait)
    exact .inr ⟨hm, hl, ht, h⟩
  | answered a ph' _ _ _ _ hx _ _ => simp [hs] at hx

/-- A port in XCHG is left as it is and keeps its lock, or gives the lock back as its command continues with the step's
answer (R254, R255). -/
theorem PortMove.of_xchg {s t : State} {p : PortId} {ph : Phase} (h : PortMove s t p) (hs : (s.port p).seq = .xchg ph) :
    (t.port p = s.port p ∧ (s.lockOwner = some p → t.lockOwner = some p)) ∨
      (s.lockOwner = some p ∧ t.lockOwner = none ∧
        ((t.port p).seq = .idle ∨ (ph = .wb ∧ (t.port p).seq = .waitLock .wm)) ∧
        ∃ a, s.stepAnswer = some a ∧ answerFits a (s.port p) = true ∧
          continueCommand ph a (s.port p) = .ok (t.port p)) := by
  cases h with
  | stays h hl => exact .inl ⟨h, hl⟩
  | operandWrite _ _ _ hi _ => simp [State.isIdle, hs] at hi
  | command _ _ _ _ _ hi _ _ _ _ => simp [State.isIdle, hs] at hi
  | granted ph' _ _ hwait _ _ => simp [hs] at hwait
  | answered a ph' _ ha hf hl hx hc ht =>
    obtain rfl : ph = ph' := Seq.xchg.inj (hs.symm.trans hx)
    obtain ⟨-, -, -, -, -, -, -, hend⟩ := continueCommand_ok ph a _ _ hc
    exact .inr ⟨hl, ht, hend.imp And.left fun ⟨hph, hwait, _⟩ => ⟨hph, hwait⟩, a, ha, hf, hc⟩

/-- Settles O55, by where the sequencer stands before the step. -/
theorem sequencersMoveOnlyByIssueGrantAndAnswer : Obligations.SequencersMoveOnlyByIssueGrantAndAnswer := by
  intro s t p h
  obtain ⟨-, hmove⟩ := step_portMove s t p h
  split
  · next hs => exact hmove.of_idle hs
  · next ph hs => exact hmove.of_waitLock hs
  · next ph hs => exact hmove.of_xchg hs

/-- Settles O57: whatever a step does to a port but leave it as it is, that port is the moving one. -/
theorem oneStepChangesOnePort : Obligations.OneStepChangesOnePort := by
  intro s t h q hq
  cases (step_portMove s t q h).2 with
  | stays h _ => exact h
  | operandWrite _ hm _ _ _ => exact absurd hm hq
  | command _ _ _ hm _ _ _ _ _ _ => exact absurd hm hq
  | granted _ hm _ _ _ _ => exact absurd hm hq
  | answered _ _ hm _ _ _ _ _ _ => exact absurd hm hq

/-! ### The environment's turn (log entries 2 and 19) -/

/-- With no move given, or while the host waits for a busy port, the step is the environment's turn. -/
theorem State.environmentMoves.step_eq {s : State} (h : s.environmentMoves) : step s = environmentTurn s := by
  obtain hin | ⟨p, rest, hin, hp, hi⟩ := h
  · exact step_of_silent hin
  · simp [step, turn, hin, State.stillWaits, hp, hi]

/-- A choice among some waiters is one of them (R252). -/
theorem exists_chooseWaiter {ws : List PortId} (k : Nat) (h : ws ≠ []) : ∃ p ∈ ws, chooseWaiter k ws = some p := by
  have hlt : Config.freeChoice k % ws.length < ws.length := Nat.mod_lt _ (List.length_pos_iff.2 h)
  exact ⟨ws[Config.freeChoice k % ws.length], List.getElem_mem hlt, List.getElem?_eq_getElem hlt⟩

/-- With an exchange in flight the environment's turn is a free ANSWER (R254). -/
theorem environmentTurn_of_wanted {s : State} {n : Nat} (hw : s.wanted = some n) :
    environmentTurn s = answer (freeAnswer s.fresh n) s.draw := by
  simp [environmentTurn, hw]

/-- With no exchange in flight the environment's turn is a GRANT to the chosen waiter (R252). -/
theorem environmentTurn_of_chooseWaiter {s : State} {p : PortId} (hw : s.wanted = none)
    (hp : chooseWaiter s.fresh s.waiters = some p) : environmentTurn s = grant p s.draw := by
  simp [environmentTurn, hw, hp]

/-- With no exchange in flight and no waiter the environment's turn moves nothing. -/
theorem environmentTurn_of_no_waiters {s : State} (hw : s.wanted = none) (hws : s.waiters = []) :
    environmentTurn s = .next s := by
  simp [environmentTurn, hw, hws, chooseWaiter]

/-! ### GRANT (R252) -/

/-- Settles O34: GRANT is exactly `takeLock`, and the environment grants one of the waiters. -/
theorem grantTakesTheFreeLockForAnyWaiter : Obligations.GrantTakesTheFreeLockForAnyWaiter := by
  refine ⟨fun s p ph hI hl hs => ?granted, fun s t p h => ?enabled, fun s p rest hin => step_of_input hin rfl,
    fun s hm hw hws => ?turn, fun s hm hw hws => ?idle⟩
  case granted =>
    obtain ⟨tx, n, htx, hn⟩ := hI.latches_of_waitLock hs
    exact ⟨s.takeLock p ph tx n, tx, n, (grant_next _ _ _).2 ⟨ph, tx, n, hl, hs, htx, hn, rfl⟩, htx, hn, rfl, rfl,
      State.port_takeLock_self .., fun q hq => State.port_takeLock_other _ _ _ _ _ _ hq, rfl, rfl, rfl, rfl, rfl, rfl⟩
  case enabled =>
    obtain ⟨ph, _, _, hl, hs, -, -, -⟩ := (grant_next _ _ _).1 h
    exact ⟨hl, ph, hs⟩
  case turn =>
    obtain ⟨p, hp, hchoice⟩ := exists_chooseWaiter s.fresh hws
    obtain ⟨ph, hs⟩ := (mem_waiters s p).1 hp
    have hport : s.environmentPort = some p := by simpa [State.environmentPort, hw] using hchoice
    exact ⟨p, ph, hport, hs, hm.step_eq.trans (environmentTurn_of_chooseWaiter hw hchoice)⟩
  case idle => exact hm.step_eq.trans (environmentTurn_of_no_waiters hw hws)

/-! ### ANSWER (R254) -/

/-- The bytes that fit an exchange are those of its length (R254). -/
theorem answerFits_bytes_iff {q : Port} {rx : List Byte} :
    answerFits (.bytes rx) q = true ↔ ∃ n, q.rxlen = some n ∧ rx.length = n.toNat := by
  simp only [answerFits, beq_iff_eq, Option.map_eq_some_iff]
  exact exists_congr fun n => and_congr_right' eq_comm

/-- An answer that does not fit the exchange in flight is a stuck state (R254, log entry 9). -/
theorem answer_of_not_answerFits {a : Answer} {s : State} {p : PortId} (hl : s.lockOwner = some p)
    (hf : answerFits a (s.port p) = false) : answer a s = .fault .noSuchMove := by
  simp only [answer, hl, hf]
  split <;> rfl

/-- Settles O35: in a good state every answer that fits ends the exchange, and bytes fit by their length. -/
theorem transportMayGiveAnyAnswer : Obligations.TransportMayGiveAnyAnswer := by
  intro s p n hI hl hn
  obtain ⟨ph, hs⟩ := (hI.lockOwner_iff p).1 hl
  refine ⟨fun rx hrx => ?fits, fun rx hrx => ?stuck, hI.answer_completes hl hs rfl, hI.answer_completes hl hs rfl⟩
  case fits => exact hI.answer_completes hl hs (answerFits_bytes_iff.2 ⟨n, hn, hrx⟩)
  case stuck =>
    refine answer_of_not_answerFits hl (Bool.eq_false_iff.2 fun hf => hrx ?_)
    obtain ⟨m, hm, hlen⟩ := answerFits_bytes_iff.1 hf
    rwa [Option.some.inj (hn.symm.trans hm)]

/-- The end of an exchange, once it is known how the owner's command continues (R254). -/
theorem answer_of_continueCommand {a : Answer} {s : State} {p : PortId} {ph : Phase} {q : Port}
    (hl : s.lockOwner = some p) (hs : (s.port p).seq = .xchg ph) (hf : answerFits a (s.port p) = true)
    (hc : continueCommand ph a (s.port p) = .ok q) : answer a s = .next (s.endExchange p a q) :=
  (answer_next _ _ _).2 ⟨p, ph, q, hl, hs, hf, hc, rfl⟩

/-- Settles O37: both outcomes fit every exchange, raise themselves in every phase, and empty the line. -/
theorem timeoutAndIoErrorKeepNothing : Obligations.TimeoutAndIoErrorKeepNothing := by
  intro s p ph a e hl hs ha
  have hothers : ∀ q, q ≠ p → (s.endExchange p a ((s.port p).raise e)).port q = s.port q :=
    fun q hq => State.port_endExchange_other _ _ _ _ _ hq
  obtain ⟨rfl, rfl⟩ | ⟨rfl, rfl⟩ := ha <;>
    exact ⟨_, answer_of_continueCommand hl hs rfl rfl, State.port_endExchange_self .., rfl, rfl, rfl, hothers⟩

/-- DOUT filled from index 0: the new bytes, and beyond them the old ones (R40, log entry 22). -/
theorem Port.dout_read_putDout (q : Port) (bs : List Byte) (k : Nat) :
    (q.putDout bs).dout.read k = if k < bs.length then bs[k]? else q.dout.read k := by
  simp [Memory.read_writeBytes]

/-- Settles O38: phase RAW puts the bytes in DOUT and checks nothing. -/
theorem exchangeReturnsTheReceivedBytes : Obligations.ExchangeReturnsTheReceivedBytes := by
  intro s p n rx hl hs hn hrx
  have hf : answerFits (.bytes rx) (s.port p) = true := answerFits_bytes_iff.2 ⟨n, hn, hrx⟩
  refine ⟨_, (s.port p).dout.writeBytes 0 rx, answer_of_continueCommand hl hs hf rfl, ?_⟩
  rw [State.port_endExchange_self]
  exact ⟨rfl, fun k hk => (Port.dout_read_putDout _ rx k).trans (if_pos hk),
    fun k hk => (Port.dout_read_putDout _ rx k).trans (if_neg (Nat.not_lt.2 hk))⟩

/-! ### What an exchange's end writes in its port, by phase (R256, R291, R297, R298) -/

/-- What the end of an exchange of each phase can make of its port. -/
inductive ExchangeWrites (q : Port) : Phase → Port → Prop where
  /-- The transport's outcome or the decoder's is raised. -/
  | raised (ph : Phase) (e : Status) : ExchangeWrites q ph (q.raise e)
  /-- EXCHANGE's bytes (R256). -/
  | returned (rx : List Byte) : ExchangeWrites q .raw ((q.putDout rx).finish .ok)
  /-- READ_REG's payload and record (R291). -/
  | decoded (v : Word) (f : FieldRecord) : ExchangeWrites q .rd (((q.putResult v).putRfields f).finish .ok)
  /-- BEFORE, of a write that the encoder rejects (R297). -/
  | rejected (b : Byte) (e : Status) : ExchangeWrites q .wb ((q.putBefore b).raise e)
  /-- BEFORE, and the request of the main exchange (R297). -/
  | requested (b : Byte) (tx : List Byte) (n : Byte) : ExchangeWrites q .wb ((q.putBefore b).busExchange .wm tx n)
  /-- AFTER, and the comparison's outcome (R298). -/
  | compared (b : Byte) (st : Status) : ExchangeWrites q .wm ((q.putAfter b).finish st)

/-- Every exchange's end, by the answer and the phase (R254). -/
theorem continueCommand_writes {ph : Phase} {a : Answer} {q q' : Port} (h : continueCommand ph a q = .ok q') :
    ExchangeWrites q ph q' := by
  cases a with
  | timeout => cases h; exact .raised ph .timeout
  | ioError => cases h; exact .raised ph .ioError
  | bytes rx =>
    cases ph with
    | raw => cases h; exact .returned rx
    | rd =>
      simp only [continueCommand, continueRd] at h
      split at h <;> cases h
      unfold Port.putReply
      split
      · exact .decoded _ _
      · exact .raised _ _
    | wb =>
      simp only [continueCommand, continueWb] at h
      split at h
      · cases h; exact .raised _ _
      · split at h
        · split at h <;> cases h
          · exact .rejected _ _
          · exact .requested _ _ _
        · cases h
    | wm =>
      simp only [continueCommand, continueWm] at h
      split at h
      · cases h; exact .raised _ _
      · split at h <;> cases h
        exact .compared _ _

section
variable {q q' : Port} {ph : Phase}

theorem ExchangeWrites.dout_eq (h : ExchangeWrites q ph q') (hph : ph ≠ .raw) :
    q'.dout = q.dout ∧ q'.doutLen = q.doutLen := by
  cases h with
  | returned => exact absurd rfl hph
  | _ => exact ⟨rfl, rfl⟩

theorem ExchangeWrites.result_eq (h : ExchangeWrites q ph q') (hph : ph ≠ .rd) :
    q'.result32 = q.result32 ∧ q'.rfields = q.rfields := by
  cases h with
  | decoded => exact absurd rfl hph
  | _ => exact ⟨rfl, rfl⟩

theorem ExchangeWrites.request_eq (h : ExchangeWrites q ph q') (hph : ph ≠ .wb) :
    q'.before = q.before ∧ q'.txb = q.txb ∧ q'.rxlen = q.rxlen := by
  cases h with
  | rejected => exact absurd rfl hph
  | requested => exact absurd rfl hph
  | _ => exact ⟨rfl, rfl, rfl⟩

theorem ExchangeWrites.after_eq (h : ExchangeWrites q ph q') (hph : ph ≠ .wm) : q'.after = q.after := by
  cases h with
  | compared => exact absurd rfl hph
  | _ => rfl

end

/-- Settles O36: an ANSWER is `endExchange` with what the phase makes of the owner's port. -/
theorem answerReleasesTheLockAndReachesTheOwner : Obligations.AnswerReleasesTheLockAndReachesTheOwner := by
  refine ⟨fun a s t h => ?answered, fun s a rest hin => step_of_input hin rfl,
    fun s n hm hw => hm.step_eq.trans (environmentTurn_of_wanted hw)⟩
  obtain ⟨p, ph, q, hl, hs, hf, hc, rfl⟩ := (answer_next _ _ _).1 h
  obtain ⟨hcfg, hcmd, hdin, hpayload, hfields, hwreg, hwpay, hend⟩ := continueCommand_ok ph a _ q hc
  have hwrites := continueCommand_writes hc
  refine ⟨p, ph, hl, hs, rfl, rfl, fun q' hq => State.port_endExchange_other _ _ _ _ _ hq, ?_⟩
  rw [State.port_endExchange_self]
  refine ⟨⟨hcfg, hcmd, hdin, hpayload, hfields⟩, rfl, rfl, rfl, rfl, rfl, fun rx ha => ?bytes, fun ha => ?discarded,
    hend.imp_left fun ⟨hidle, hst, _⟩ => ⟨hidle, hst⟩, hwreg, hwpay, hwrites.dout_eq, hwrites.result_eq,
    hwrites.request_eq, hwrites.after_eq⟩
  case bytes =>
    subst ha
    exact ⟨answerFits_bytes_iff.1 hf, rfl⟩
  case discarded => obtain rfl | rfl := ha <;> rfl

/-! ### What each command writes in its port (R330) -/

/-- What a command can make of its port. -/
inductive CommandWrites (q : Port) (i : Instr) : Port → Prop where
  /-- An outcome alone (R232, R330). -/
  | ended (st : Status) : CommandWrites q i (q.finish st)
  /-- The bytes of CRC8 and of the encoders (R200, R203, R230). -/
  | filled (bs : List Byte) (hi : (∃ n, i = .crc8 n) ∨ (∃ a r, i = .encRd a r) ∨ ∃ a r, i = .encWr a r) :
      CommandWrites q i ((q.putDout bs).finish .ok)
  /-- DEC_REPLY's payload and record (R210). -/
  | decoded (r : Reg) (n : Byte) (v : Word) (f : FieldRecord) (hi : i = .decReply r n) :
      CommandWrites q i (((q.putResult v).putRfields f).finish .ok)
  /-- UNPACK's record (R141). -/
  | unpacked (r : Reg) (f : FieldRecord) (hi : i = .unpack r) : CommandWrites q i ((q.putRfields f).finish .ok)
  /-- PACK's payload (R142). -/
  | packed (r : Reg) (v : Word) (hi : i = .pack r) : CommandWrites q i ((q.putResult v).finish .ok)
  /-- VERIFY's counts (R302). -/
  | verified (a n : Byte) (st : Status) (hi : i = .verify a n) :
      CommandWrites q i (((q.putBefore a).putAfter n).finish st)
  /-- EXCHANGE's request (R256). -/
  | exchangeRequested (a n : Byte) (tx : List Byte) (hi : i = .exchange a n) :
      CommandWrites q i (q.busExchange .raw tx a)
  /-- READ_REG's request (R290). -/
  | readRequested (r : Reg) (tx : List Byte) (n : Byte) (hi : i.canonical = .readForm r) :
      CommandWrites q i (q.busExchange .rd tx n)
  /-- WRITE_REG's latches and its first request (R296). -/
  | writeRequested (r : Reg) (w : Byte) (v : Word) (tx : List Byte) (n : Byte) (hi : i.canonical = .writeForm r) :
      CommandWrites q i ((q.latchWrite w v).busExchange .wb tx n)
  /-- WRITE_REG's latches, where the address is rejected (R292, R296). -/
  | writeRejected (r : Reg) (w : Byte) (v : Word) (e : Status) (hi : i.canonical = .writeForm r) :
      CommandWrites q i ((q.latchWrite w v).raise e)

theorem putFrame_writes {i : Instr} (hi : (∃ n, i = .crc8 n) ∨ (∃ a r, i = .encRd a r) ∨ ∃ a r, i = .encWr a r)
    (result : Except Status (List Byte)) (q : Port) : CommandWrites q i (q.putFrame result) := by
  cases result with
  | ok bs => exact .filled bs hi
  | error e => exact .ended e

theorem putReply_writes (r : Reg) (n : Byte) (result : Except Status (Word × FieldRecord)) (q : Port) :
    CommandWrites q (.decReply r n) (q.putReply result) := by
  cases result with
  | ok vf => exact .decoded r n vf.1 vf.2 rfl
  | error e => exact .ended e

theorem putUnpacked_writes (r : Reg) (result : Except Status FieldRecord) (q : Port) :
    CommandWrites q (.unpack r) (q.putUnpacked result) := by
  cases result with
  | ok f => exact .unpacked r f rfl
  | error e => exact .ended e

theorem readRegister_writes {i : Instr} {r : Reg} (hi : i.canonical = .readForm r) (s : State) :
    CommandWrites (s.port s.cur) i ((readRegister r s).port s.cur) := by
  rw [readRegister_port]
  split
  · exact .readRequested r _ _ hi
  · exact .ended _

theorem writeRegister_writes {i : Instr} {r : Reg} (hi : i.canonical = .writeForm r) (s : State) :
    CommandWrites (s.port s.cur) i ((writeRegister r s).port s.cur) := by
  rw [writeRegister_port]
  split
  · exact .writeRequested r _ _ _ _ hi
  · exact .writeRejected r _ _ _ hi

/-- A command with one way to go on writes what that way writes. -/
theorem CommandWrites.of_onIdlePort {i : Instr} {s u t : State} (h : onIdlePort s (.next u) = .next t)
    (hu : CommandWrites (s.port s.cur) i (u.port s.cur)) : CommandWrites (s.port s.cur) i (t.port s.cur) := by
  obtain ⟨-, hk⟩ := (onIdlePort_next _ _ _).1 h
  cases hk
  exact hu

/-- The same where the command is one change of its port. -/
theorem CommandWrites.of_updPort {i : Instr} {s u t : State} {f : Port → Port}
    (h : onIdlePort s (.next (u.updPort s.cur f)) = .next t)
    (hf : CommandWrites (s.port s.cur) i (f (u.port s.cur))) : CommandWrites (s.port s.cur) i (t.port s.cur) :=
  .of_onIdlePort h (by rwa [State.port_updPort_self])

/-- Every command, by its kind. -/
theorem exec_command_writes {i : Instr} {s t : State} (hi : frameBytes i = []) (h : exec i s = .next t) :
    CommandWrites (s.port s.cur) i (t.port s.cur) := by
  rcases instr_kinds i with ⟨r, rfl | rfl⟩ | ⟨r, rfl | rfl⟩ | hf | ⟨n, rfl⟩ | ⟨n, rfl⟩ | ⟨a, r, rfl⟩ | ⟨a, r, rfl⟩ |
    ⟨r, n, rfl⟩ | ⟨r, rfl⟩ | ⟨r, rfl⟩ | ⟨a, n, rfl⟩ | ⟨a, n, rfl⟩
  · exact .of_onIdlePort h (readRegister_writes rfl s)
  · rw [exec_readForm] at h
    exact .of_onIdlePort h (readRegister_writes (canonical_readForm r) s)
  · exact .of_onIdlePort h (writeRegister_writes rfl s)
  · rw [exec_writeForm] at h
    exact .of_onIdlePort h (writeRegister_writes (canonical_writeForm r) s)
  · exact absurd hi hf
  · exact .of_updPort h (.filled _ (.inl ⟨n, rfl⟩))
  · obtain ⟨-, hk⟩ := (onIdlePort_next _ _ _).1 h
    split at hk <;> cases hk
    rw [State.port_updPort_self]
    exact .ended _
  · exact .of_updPort h (putFrame_writes (.inr (.inl ⟨a, r, rfl⟩)) _ _)
  · exact .of_updPort h (putFrame_writes (.inr (.inr ⟨a, r, rfl⟩)) _ _)
  · exact .of_updPort h (putReply_writes r n _ _)
  · exact .of_updPort h (putUnpacked_writes r _ _)
  · exact .of_updPort h (.packed r _ rfl)
  · exact .of_updPort h (.exchangeRequested a n _ rfl)
  · exact .of_updPort h (.verified a n _ rfl)

/-! ### What each command leaves in its port -/

section
variable {q q' : Port} {i : Instr}

theorem CommandWrites.dout_eq (h : CommandWrites q i q') (hcrc : ∀ n, i ≠ .crc8 n) (hrd : ∀ a r, i ≠ .encRd a r)
    (hwr : ∀ a r, i ≠ .encWr a r) : q'.doutLen = q.doutLen ∧ ∀ k, q'.dout.read k = q.dout.read k := by
  cases h with
  | filled bs hi =>
    obtain ⟨n, rfl⟩ | ⟨a, r, rfl⟩ | ⟨a, r, rfl⟩ := hi
    · exact absurd rfl (hcrc n)
    · exact absurd rfl (hrd a r)
    · exact absurd rfl (hwr a r)
  | _ => exact ⟨rfl, fun _ => rfl⟩

/-- Bytes of DOUT at or beyond DOUT_LEN stay under every command (log entry 22). -/
theorem CommandWrites.dout_read_beyond (h : CommandWrites q i q') {k m : Nat} (hm : q'.doutLen = some m) (hk : m ≤ k) :
    q'.dout.read k = q.dout.read k := by
  cases h with
  | filled bs hi =>
    obtain rfl : bs.length = m := Option.some.inj hm
    exact (Port.dout_read_putDout q bs k).trans (if_neg (Nat.not_lt.2 hk))
  | _ => rfl

theorem CommandWrites.result32_eq (h : CommandWrites q i q') (hdec : ∀ r n, i ≠ .decReply r n)
    (hpack : ∀ r, i ≠ .pack r) : q'.result32 = q.result32 := by
  cases h with
  | decoded r n _ _ hi => exact absurd hi (hdec r n)
  | packed r _ hi => exact absurd hi (hpack r)
  | _ => rfl

theorem CommandWrites.rfields_eq (h : CommandWrites q i q') (hdec : ∀ r n, i ≠ .decReply r n)
    (hunpack : ∀ r, i ≠ .unpack r) : q'.rfields = q.rfields := by
  cases h with
  | decoded r n _ _ hi => exact absurd hi (hdec r n)
  | unpacked r _ hi => exact absurd hi (hunpack r)
  | _ => rfl

theorem CommandWrites.counts_eq (h : CommandWrites q i q') (hverify : ∀ a n, i ≠ .verify a n) :
    q'.before = q.before ∧ q'.after = q.after := by
  cases h with
  | verified a n _ hi => exact absurd hi (hverify a n)
  | _ => exact ⟨rfl, rfl⟩

theorem CommandWrites.writeLatches_eq (h : CommandWrites q i q') (hwrite : ∀ r, i.canonical ≠ .writeForm r) :
    q'.wreg = q.wreg ∧ q'.wpay = q.wpay := by
  cases h with
  | writeRequested r _ _ _ _ hi => exact absurd hi (hwrite r)
  | writeRejected r _ _ _ hi => exact absurd hi (hwrite r)
  | _ => exact ⟨rfl, rfl⟩

/-- A command that is no bus command ends in its issue step and requests nothing (R251). -/
theorem CommandWrites.ends (h : CommandWrites q i q') (hex : ∀ a n, i ≠ .exchange a n)
    (hread : ∀ r, i.canonical ≠ .readForm r) (hwrite : ∀ r, i.canonical ≠ .writeForm r) :
    q'.txb = q.txb ∧ q'.rxlen = q.rxlen ∧ q'.seq = .idle ∧ q'.status.isSome = true := by
  cases h with
  | exchangeRequested a n _ hi => exact absurd hi (hex a n)
  | readRequested r _ _ hi => exact absurd hi (hread r)
  | writeRequested r _ _ _ _ hi => exact absurd hi (hwrite r)
  | _ => exact ⟨rfl, rfl, rfl, rfl⟩

end

/-- Settles O44: the command changes its own port only, and of that port what `CommandWrites` says. -/
theorem commandsLeaveTheRestUnchanged : Obligations.CommandsLeaveTheRestUnchanged := by
  intro i s t hi h
  obtain ⟨-, honly, hleaves⟩ := exec_command_next i s t hi h
  have hwrites := exec_command_writes hi h
  exact ⟨honly, hleaves.operands, hwrites.dout_eq, fun _ _ => hwrites.dout_read_beyond, hwrites.result32_eq,
    hwrites.rfields_eq, hwrites.counts_eq, hwrites.writeLatches_eq, hwrites.ends⟩

/-! ### EXCHANGE's issue (R251, R256) -/

/-- Settles O30: the bytes are those that the command reads from DIN. -/
theorem exchangeIssueAsksForTheBus : Obligations.ExchangeIssueAsksForTheBus := by
  intro a n s hs
  refine ⟨_, s.dinOperand n, onIdlePort_idle _ _ hs, s.dinOperand_length n, s.dinOperand_reads n, ?_⟩
  rw [State.port_updPort_self]
  exact ⟨rfl, rfl, rfl, rfl⟩

end Sys2Proof.Machine
end

section
/-! PROOFS of the driver session family (44_driver_session.md): the ends of READ_REG and of both exchanges of WRITE_REG,
that a WRITE_REG reports no false success, the issue steps of both commands, and VERIFY. -/

namespace Sys2Proof.Machine

/-! ### What the ends of WRITE_REG's two exchanges can be (R297, R298) -/

/-- A port runs a WRITE_REG while it waits for, or is in, one of that command's two exchanges (R36). -/
theorem Port.writing_iff {q : Port} :
    q.writing = true ↔ ∃ ph, (q.seq = .waitLock ph ∨ q.seq = .xchg ph) ∧ (ph = .wb ∨ ph = .wm) := by
  unfold Port.writing
  split <;> simp [*]

/-- What WB can make of its port with received bytes: the decoder's error is raised; or, with BEFORE of an accepted reply,
the encoder's error is raised or the main exchange is requested (R297). -/
theorem continueWb_ok {rx : List Byte} {q q' : Port} (h : continueWb rx q = .ok q') :
    (∃ e, decReply (replyOfRead rx) .ifcnt = .error e ∧ q' = q.raise e) ∨
      ∃ v f, decReply (replyOfRead rx) .ifcnt = .ok (v, f) ∧
        (q' = (q.putBefore (ifcntOf v)).raise .invalidDriverAddress ∨
          ∃ tx, q' = (q.putBefore (ifcntOf v)).busExchange .wm tx Config.writeRxLen) := by
  unfold continueWb at h
  split at h
  case h_1 e hd => cases h; exact .inl ⟨e, hd, rfl⟩
  case h_2 v f hd =>
    refine .inr ⟨v, f, hd, ?_⟩
    split at h
    · split at h <;> cases h
      case h_1 e he => exact .inl (by rw [writeThenRead_error _ _ _ _ he])
      case h_2 tx _ => exact .inr ⟨tx, rfl⟩
    · cases h

/-- What WM can make of its port with received bytes: the decoder's error is raised, or AFTER of an accepted reply is
compared with BEFORE (R298). -/
theorem continueWm_ok {rx : List Byte} {q q' : Port} (h : continueWm rx q = .ok q') :
    (∃ e, decReply (replyOfWrite rx) .ifcnt = .error e ∧ q' = q.raise e) ∨
      ∃ v f b, decReply (replyOfWrite rx) .ifcnt = .ok (v, f) ∧ q.before = some b ∧
        q' = (q.putAfter (ifcntOf v)).finish (verifyStatus b (ifcntOf v)) := by
  unfold continueWm at h
  split at h
  case h_1 e hd => cases h; exact .inl ⟨e, hd, rfl⟩
  case h_2 v f hd =>
    split at h <;> cases h
    next b hb => exact .inr ⟨v, f, b, hd, hb, rfl⟩

/-! ### No false success (R304) -/

/-- The comparison's outcome is OK exactly where the counts pass it (R302). -/
theorem verifyStatus_eq_ok_iff {b a : Byte} :
    verifyStatus b a = .ok ↔ b.toNat < a.toNat ∨ (b = 255 ∧ a = 0) := by
  rw [verifyStatus_eq]
  split
  · next h => exact iff_of_true rfl h
  · next h => exact iff_of_false (by simp) h

/-- The WB exchange never ends WRITE_REG with OK: it ends it with an error alone (R297). -/
theorem continueCommand_wb_status_ne_ok {a : Answer} {q q' : Port} (h : continueCommand .wb a q = .ok q')
    (hidle : q'.seq = .idle) : q'.status ≠ some .ok := by
  cases a with
  | timeout => cases h; simp
  | ioError => cases h; simp
  | bytes rx =>
    obtain ⟨e, hd, rfl⟩ | ⟨v, f, -, rfl | ⟨tx, rfl⟩⟩ := continueWb_ok h
    · simpa using (decReply_error _ _ _ hd).1
    · simp
    · cases hidle

/-- WB goes on to the main exchange only with BEFORE of an accepted reply (R297). -/
theorem continueCommand_wb_waitLock {a : Answer} {q q' : Port} (h : continueCommand .wb a q = .ok q')
    (hwait : q'.seq = .waitLock .wm) :
    ∃ rx v f, a = .bytes rx ∧ decReply (replyOfRead rx) .ifcnt = .ok (v, f) ∧ q'.before = some (ifcntOf v) := by
  cases a with
  | timeout => cases h; cases hwait
  | ioError => cases h; cases hwait
  | bytes rx =>
    obtain ⟨e, -, rfl⟩ | ⟨v, f, hd, rfl | ⟨tx, rfl⟩⟩ := continueWb_ok h
    · cases hwait
    · cases hwait
    · exact ⟨rx, v, f, rfl, hd, rfl⟩

/-- WM ends with OK only with AFTER of an accepted reply that passes the comparison with BEFORE (R298). -/
theorem continueCommand_wm_status_ok {a : Answer} {q q' : Port} (h : continueCommand .wm a q = .ok q')
    (hok : q'.status = some .ok) :
    ∃ rx b v f, a = .bytes rx ∧ decReply (replyOfWrite rx) .ifcnt = .ok (v, f) ∧ q.before = some b ∧
      q'.before = some b ∧ q'.after = some (ifcntOf v) ∧ verifyStatus b (ifcntOf v) = .ok := by
  cases a with
  | timeout => cases h; cases hok
  | ioError => cases h; cases hok
  | bytes rx =>
    obtain ⟨e, hd, rfl⟩ | ⟨v, f, b, hd, hb, rfl⟩ := continueWm_ok h
    · exact absurd (Option.some.inj hok) (decReply_error _ _ _ hd).1
    · exact ⟨rx, b, v, f, rfl, hd, hb, hb, rfl, Option.some.inj hok⟩

/-- Settles O58, by where the WRITE_REG stands: a waiting port ends and requests nothing, WB never ends with OK, and WM
requests no further exchange. -/
theorem writeReportsNoFalseSuccess : Obligations.WriteReportsNoFalseSuccess := by
  intro s t p h hw
  obtain ⟨-, hmove⟩ := step_portMove s t p h
  obtain ⟨ph, hs | hs, hph⟩ := Port.writing_iff.1 hw
  · rcases hmove.of_waitLock hs with ht | ⟨-, -, -, ht⟩
    · exact ⟨fun hidle => by simp [ht, hs] at hidle, fun hwait hne => absurd (ht ▸ hwait) hne⟩
    · exact ⟨fun hidle => by simp [ht] at hidle, fun hwait => by simp [ht] at hwait⟩
  · rcases hmove.of_xchg hs with ⟨ht, -⟩ | ⟨-, -, hend, a, ha, -, hc⟩
    · exact ⟨fun hidle => by simp [ht, hs] at hidle, fun hwait => by simp [ht, hs] at hwait⟩
    · obtain rfl | rfl := hph
      · refine ⟨fun hidle hok => absurd hok (continueCommand_wb_status_ne_ok hc hidle), fun hwait _ => ⟨hs, ?_⟩⟩
        obtain ⟨rx, v, f, rfl, hd, hbefore⟩ := continueCommand_wb_waitLock hc hwait
        exact ⟨rx, v, f, ha, hd, hbefore⟩
      · refine ⟨fun _ hok => ⟨hs, ?_⟩, fun hwait => by simp [hwait] at hend⟩
        obtain ⟨rx, b, v, f, rfl, hd, hb, hb', hafter, hv⟩ := continueCommand_wm_status_ok hc hok
        exact ⟨rx, b, v, f, ha, hd, hb, hb', hafter, verifyStatus_eq_ok_iff.1 hv⟩

/-! ### The issue steps (R290, R292, R296) -/

/-- What READ_REG does on an IDLE port, in either spelling (R290, R145). -/
theorem exec_read {r : Reg} {i : Instr} {s : State} (hi : i = .readReg r ∨ i = Instr.readForm r)
    (hs : s.isIdle s.cur = true) : exec i s = .next (readRegister r s) := by
  obtain rfl | rfl := hi
  · exact onIdlePort_idle _ _ hs
  · exact (exec_readForm r s).trans (onIdlePort_idle _ _ hs)

/-- What WRITE_REG does on an IDLE port, in either spelling (R296, R145). -/
theorem exec_write {r : Reg} {i : Instr} {s : State} (hi : i = .writeReg r ∨ i = Instr.writeForm r)
    (hs : s.isIdle s.cur = true) : exec i s = .next (writeRegister r s) := by
  obtain rfl | rfl := hi
  · exact onIdlePort_idle _ _ hs
  · exact (exec_writeForm r s).trans (onIdlePort_idle _ _ hs)

/-- Settles O31, by the two cases of the address check. -/
theorem readIssueAsksForTheBus : Obligations.ReadIssueAsksForTheBus := by
  intro r i s hi hs
  refine ⟨fun ha => ⟨_, exec_read hi hs, ?_⟩, fun ha => ⟨_, exec_read hi hs, ?_⟩⟩
  · rw [(readRegister_port r s).trans (if_pos ha)]
    exact ⟨rfl, rfl, rfl, rfl⟩
  · rw [(readRegister_port r s).trans (if_neg (BitVec.not_le.2 ha))]
    exact ⟨rfl, rfl, rfl, rfl⟩

/-- Settles O32, by the two cases of the address check; the record is the one that the command reads from FIELDS. -/
theorem writeIssueReadsTheCounterFirst : Obligations.WriteIssueReadsTheCounterFirst := by
  intro r i s hi hs
  refine ⟨_, s.fieldsOperand r, exec_write hi hs, s.fieldsOperand_reads r, ?_⟩
  rw [writeRegister_port]
  split
  · next ha => exact ⟨rfl, rfl, fun _ => ⟨rfl, rfl, rfl, rfl⟩, fun hgt => absurd ha (BitVec.not_le.2 hgt)⟩
  · next ha => exact ⟨rfl, rfl, fun hle => absurd hle ha, fun _ => ⟨rfl, rfl, rfl, rfl⟩⟩

/-! ### VERIFY (R302) -/

/-- What VERIFY does on an IDLE port (R302). -/
theorem exec_verify {s : State} (hs : s.isIdle s.cur = true) (a n : Byte) :
    exec (.verify a n) s =
      .next (s.updPort s.cur fun q => ((q.putBefore a).putAfter n).finish (verifyStatus a n)) :=
  onIdlePort_idle s _ hs

/-- Settles O33: the outcome is that of the comparison on numbers. -/
theorem verifyCommandComparesTheCounts : Obligations.VerifyCommandComparesTheCounts := by
  refine ⟨decodeCommand_verifyWord, fun a n s hs => ⟨_, exec_verify hs a n, ?_⟩⟩
  rw [State.port_updPort_self]
  exact ⟨rfl, rfl, congrArg some (verifyStatus_eq a n), rfl⟩

/-! ### The ends of READ_REG's and WRITE_REG's exchanges (R291, R297, R298) -/

/-- Timeout and IoError write STATUS and SEQ of the owner's port and no other latch, in every phase (R259, R260). -/
theorem answer_discarded {s : State} {p : PortId} {ph : Phase} {a : Answer} {e : Status} (hl : s.lockOwner = some p)
    (hs : (s.port p).seq = .xchg ph) (ha : (a = .timeout ∧ e = .timeout) ∨ (a = .ioError ∧ e = .ioError)) :
    ∃ t, answer a s = .next t ∧ t.port p = { s.port p with status := some e, seq := .idle } := by
  obtain ⟨t, ht, hport, -⟩ := timeoutAndIoErrorKeepNothing s p ph a e hl hs ha
  exact ⟨t, ht, hport⟩

/-- Bytes of the exchange's length free the lock, and the owner's port becomes what its command makes of them (R254). -/
theorem answer_bytes {s : State} {p : PortId} {ph : Phase} {n : Byte} {rx : List Byte} {q : Port}
    (hl : s.lockOwner = some p) (hs : (s.port p).seq = .xchg ph) (hn : (s.port p).rxlen = some n)
    (hrx : rx.length = n.toNat) (hc : continueCommand ph (.bytes rx) (s.port p) = .ok q) :
    ∃ t, answer (.bytes rx) s = .next t ∧ t.lockOwner = none ∧ t.port p = q :=
  ⟨_, answer_of_continueCommand hl hs (answerFits_bytes_iff.2 ⟨n, hn, hrx⟩) hc, rfl, State.port_endExchange_self ..⟩

/-- Settles O39, by what the decoder makes of the trailing 8 bytes. -/
theorem readAnswerDecodesTheTrailingBytes : Obligations.ReadAnswerDecodesTheTrailingBytes := by
  refine ⟨fun s p a e => answer_discarded, fun s p r echo reply hl hs hn hr hecho hreply => ?_⟩
  have hrx : (echo ++ reply).length = (12 : Byte).toNat := by simp [hecho, hreply]
  have hc := continueCommand_rd hr (echo ++ reply)
  rw [replyOfRead_append hecho hreply] at hc
  cases hd : decReply reply r with
  | error e => exact answer_bytes hl hs hn hrx (by rw [hc, hd]; rfl)
  | ok vf => exact answer_bytes hl hs hn hrx (by rw [hc, hd]; rfl)

/-- Settles O40, by what the decoder makes of the trailing 8 bytes. -/
theorem writeIsSentOnlyAfterTheCounterWasRead : Obligations.WriteIsSentOnlyAfterTheCounterWasRead := by
  refine ⟨fun s p a e => answer_discarded, fun s p w pay echo reply hl hs hn ha hw hpay hecho hreply => ?_⟩
  have hrx : (echo ++ reply).length = (12 : Byte).toNat := by simp [hecho, hreply]
  cases hd : decReply reply .ifcnt with
  | error e =>
    rw [← replyOfRead_append hecho hreply] at hd
    obtain ⟨t, ht, -, hport⟩ := answer_bytes hl hs hn hrx (continueCommand_wb_error hd _)
    exact ⟨t, ht, hport⟩
  | ok vf =>
    rw [← replyOfRead_append hecho hreply] at hd
    obtain ⟨t, ht, -, hport⟩ := answer_bytes hl hs hn hrx (continueCommand_wb_ok hd ha hw hpay)
    exact ⟨t, ht, hport⟩

/-- Settles O41, by what the decoder makes of the trailing 8 bytes. -/
theorem writeAnswerComparesTheCounts : Obligations.WriteAnswerComparesTheCounts := by
  refine ⟨fun s p a e => answer_discarded, fun s p b echo reply hl hs hn hb hecho hreply => ?_⟩
  have hrx : (echo ++ reply).length = (20 : Byte).toNat := by simp [hecho, hreply]
  cases hd : decReply reply .ifcnt with
  | error e =>
    rw [← replyOfWrite_append hecho hreply] at hd
    obtain ⟨t, ht, -, hport⟩ := answer_bytes hl hs hn hrx (continueCommand_wm_error hd _)
    exact ⟨t, ht, hport⟩
  | ok vf =>
    simp only [← verifyStatus_eq]
    rw [← replyOfWrite_append hecho hreply] at hd
    obtain ⟨t, ht, -, hport⟩ := answer_bytes hl hs hn hrx (continueCommand_wm_ok hd hb)
    exact ⟨t, ht, hport⟩

end Sys2Proof.Machine
end

section
/-! PROOFS of the exceptions family (60_exceptions.md): which issues are refused, what raise writes, the codes of the
outcomes and the info recovered beside them, and the host's reads of the result latches. -/

namespace Sys2Proof.Machine

/-! ### Refused issues (R339, R344) -/

section
variable {s : State} {p : PortId} {w : Word}

theorem issue_of_not_hasPort (hp : s.hasPort p = false) : issue p w s = .refused .noSuchPort := by
  simp [issue, hp]

theorem issue_of_busy (hp : s.hasPort p = true) (hi : s.isIdle p = false) : issue p w s = .refused .portBusy := by
  simp [issue, hp, hi]

theorem issue_of_decodeCommand_error {e : DecodeError} (hp : s.hasPort p = true) (hi : s.isIdle p = true)
    (hd : decodeCommand w = .error e) : issue p w s = .refused (.undecodable e) := by
  simp [issue, hp, hi, hd]

end

/-- Settles O9: the issue is the first move, and it is refused at the first check that fails. -/
theorem reservedOrBusyIssueIsRefused : Obligations.ReservedOrBusyIssueIsRefused := by
  intro s p w rest hin
  have hstep : step s = issue p w { s with inputs := rest } := step_of_input hin rfl
  rw [hstep]
  exact ⟨fun hp => issue_of_not_hasPort hp, fun hp hi => issue_of_busy hp hi,
    fun _ hp hi hd => issue_of_decodeCommand_error hp hi hd⟩

/-! ### raise (R330) -/

/-- Settles O45: raise is a change of one port, which ends in IDLE with the outcome. -/
theorem raiseWritesStatusAndSeqOnly : Obligations.RaiseWritesStatusAndSeqOnly := by
  intro p e s
  have hport : (raise p e s).port p = (s.port p).raise e := State.port_updPort_self _ _ _
  exact ⟨hport, onlyPort_updPort s p _, (State.isIdle_iff _ _).2 (by rw [hport, Port.raise_seq])⟩

/-! ### The codes of the outcomes (R331) -/

/-- The outcomes in the order of R331's table. -/
def Status.table : List Status :=
  [.ok, .invalidDriverAddress, .invalidSyncByte, .invalidMasterAddress, .crcMismatch, .registerAddressMismatch,
    .datagramLength, .packingError, .unpackingError, .ioError, .timeout, .writeVerificationFailed]

/-- The code of an outcome is its place in the table. -/
theorem Status.table_getElem?_code (a : Status) : Status.table[a.code.toNat]? = some a := by
  cases a <;> rfl

theorem Status.code_injective : Function.Injective Status.code := fun a b h =>
  Option.some.inj <| calc
    some a = Status.table[a.code.toNat]? := a.table_getElem?_code.symm
    _ = Status.table[b.code.toNat]? := by rw [h]
    _ = some b := b.table_getElem?_code

/-! ### The info recovered beside an outcome (R331, R332) -/

section
variable {q : Port} {w : Word}

theorem Port.info_of_invalidDriverAddress (hc : q.cmd = some w) (hs : q.status = some .invalidDriverAddress) :
    q.info = some (.address (if opcOf w = 0x10 ∨ opcOf w = 0x11 then aOf w else q.cfgAddr)) := by
  simp only [Port.info, hs, hc]
  split <;> rfl

theorem Port.info_of_crcCheck (hc : q.cmd = some w) (hs : q.status = some .crcMismatch) (ho : opcOf w = 0x02) :
    q.info = some (.length (nOf w)) := by
  simp [Port.info, hs, hc, ho]

/-- A check of the reply decoder failed (R207), not CRC_CHECK's own: the info is the expected register. -/
theorem Port.info_of_replyCheck (hc : q.cmd = some w) (ho : opcOf w ≠ 0x02)
    (hs : q.status ∈ ([some .invalidSyncByte, some .invalidMasterAddress, some .crcMismatch,
      some .registerAddressMismatch, some .datagramLength] : List (Option Status))) :
    q.info = some (.register (expectedRegister w)) := by
  simp only [List.mem_cons, List.not_mem_nil, or_false] at hs
  rcases hs with hs | hs | hs | hs | hs <;> simp only [Port.info, hs, hc, if_neg ho]

theorem Port.info_of_unpackingError (hc : q.cmd = some w) (hs : q.status = some .unpackingError) :
    q.info = some (.register (rOf w)) := by
  simp [Port.info, hs, hc]

theorem Port.info_of_writeVerificationFailed {b c : Byte} (hs : q.status = some .writeVerificationFailed)
    (hb : q.before = some b) (ha : q.after = some c) : q.info = some (.counts b c) := by
  simp [Port.info, hs, hb, ha]

theorem Port.info_eq_none
    (hs : q.status ∈ ([some .ok, some .packingError, some .ioError, some .timeout] : List (Option Status))) :
    q.info = none := by
  simp only [List.mem_cons, List.not_mem_nil, or_false] at hs
  rcases hs with hs | hs | hs | hs <;> simp [Port.info, hs]

end

/-- IFCNT's address for WRITE_REG, the command's R for every other command (R210, R291, R297, R298). -/
theorem expectedRegister_commandWord (o a r n : Byte) :
    expectedRegister (commandWord o a r n) = if o = 0x41 then 0x02 else r := by
  simp [expectedRegister, Reg.addr]

/-- Settles O46: the codes by their places in the table, and the info by the outcome. -/
theorem outcomeCodesAreTheTable : Obligations.OutcomeCodesAreTheTable := by
  refine ⟨rfl, fun _ _ h => Status.code_injective h, fun q o a r n hc => ⟨fun hs => ?driver, fun hs => ?reply,
    fun hs ho => ?crcCheck, fun hs ho => ?length, fun hs _ => ?unpack,
    fun _ _ => Port.info_of_writeVerificationFailed, Port.info_eq_none⟩⟩
  case driver =>
    rw [Port.info_of_invalidDriverAddress hc hs, opcOf_commandWord, aOf_commandWord]
    refine ⟨fun ho => by rw [if_pos ho], fun ho => ?_⟩
    rcases ho with rfl | rfl <;> rfl
  case reply =>
    have hinfo : o ≠ 0x02 → q.info = some (.register (if o = 0x41 then 0x02 else r)) := fun ho => by
      rw [← expectedRegister_commandWord o a r n]
      exact Port.info_of_replyCheck hc (by simpa using ho) (List.mem_append_left [some Status.datagramLength] hs)
    refine ⟨fun ho => ?_, fun ho => ?_⟩
    · rcases ho with rfl | rfl <;> exact hinfo (by decide)
    · subst ho
      exact hinfo (by decide)
  case crcCheck => simpa using Port.info_of_crcCheck hc hs (by simpa using ho)
  case length =>
    subst ho
    simpa [expectedRegister_commandWord] using Port.info_of_replyCheck hc (by simp) (by simp [hs])
  case unpack => simpa using Port.info_of_unpackingError hc hs

/-! ### The host's reads of the result latches (R338, R345) -/

/-- On an IDLE port the read of a latch that is written gives its value, and the read of one that holds ⊥ faults; `o` is
the latch's own field and `f` makes it a value for the host. -/
theorem step_read_of_latch_eq_map {α : Type} {s : State} {p : PortId} {l : Latch} {rest : List Input} {o : Option α}
    {f : α → HostValue} (hin : s.inputs = .read p l :: rest) (hp : s.hasPort p = true) (hi : s.isIdle p = true)
    (hl : (s.port p).latch l = o.map f) :
    (∀ x, o = some x → step s = .next { s with inputs := rest, readout := some (f x) }) ∧
      (o = none → step s = .fault (.unwrittenLatch l)) := by
  have hstep : step s = hostRead p l { s with inputs := rest } :=
    (step_of_input hin rfl).trans (onHostPort_idle hp hi)
  have hl' : (State.port { s with inputs := rest } p).latch l = o.map f := hl
  rw [hstep, hostRead, hl']
  constructor
  · rintro x rfl
    rfl
  · rintro rfl
    rfl

/-- Settles O48: each result latch is one field of the port, as a value for the host. -/
theorem hostReadGivesTheLatchOrFaults : Obligations.HostReadGivesTheLatchOrFaults := by
  intro s p l rest hin hp hi
  cases l <;> exact step_read_of_latch_eq_map hin hp hi rfl

end Sys2Proof.Machine
end

section
/-! PROOFS of the reset and hazards family (70_reset_and_hazards.md): construction meets the invariant and the launch
premises, and no step changes the configuration. -/

namespace Sys2Proof.Machine

/-! ### Construction meets the invariant and the launch premises (R370, R375) -/

theorem Port.construct_ok (addr : Byte) : (Port.construct addr).ok = true := rfl

theorem Port.construct_not_inXchg (addr : Byte) : (Port.construct addr).inXchg = false := rfl

section
variable (n : Nat) (a0 a1 a2 a3 : Byte) (p : PortId)

theorem State.isIdle_construct : (State.construct n a0 a1 a2 a3).isIdle p = true := by
  rw [State.isIdle_iff, State.port_construct, Port.construct]

theorem State.hasPort_construct : (State.construct n a0 a1 a2 a3).hasPort p = true ↔ p.val < n :=
  decide_eq_true_iff

theorem State.cfgAddr_construct :
    ((State.construct n a0 a1 a2 a3).port p).cfgAddr = [a0, a1, a2, a3].getD p.val 0 := by
  rw [State.port_construct, Port.construct]

end

/-- Every port is fresh and IDLE, so no port is in XCHG and the free lock is right. -/
theorem State.construct_inv {n : Nat} (a0 a1 a2 a3 : Byte) (h1 : 1 ≤ n) (h4 : n ≤ 4) :
    (State.construct n a0 a1 a2 a3).Inv where
  nports := ⟨h1, h4⟩
  cur := (State.hasPort_construct ..).2 h1
  ports p := by rw [State.port_construct]; exact Port.construct_ok _
  absent p _ := State.isIdle_construct ..
  lock p := by
    rw [State.port_construct]
    exact iff_of_false (by simp [State.construct]) (by simp [Port.construct_not_inXchg])
  xfer := rfl

/-- The launch premises are about the addresses alone: the ports are IDLE and the lock is free (R370). -/
theorem State.construct_launch {n : Nat} {a0 a1 a2 a3 : Byte} {expected : List PortId}
    (hdistinct : ∀ p q : PortId, p.val < n → q.val < n → p ≠ q →
      [a0, a1, a2, a3].getD p.val 0 ≠ [a0, a1, a2, a3].getD q.val 0)
    (hexpected : ∀ p ∈ expected, p.val < n ∧ [a0, a1, a2, a3].getD p.val 0 ≤ 3) :
    (State.construct n a0 a1 a2 a3).Launch expected := by
  simp only [State.Launch, State.hasPort_construct, State.cfgAddr_construct]
  exact ⟨fun p => State.isIdle_construct .., rfl, hexpected, hdistinct⟩

/-- Settles O51: `State.reset` is a construction with four ports, whose addresses are distinct and at most 3. -/
theorem constructionMeetsTheInvariant : Obligations.ConstructionMeetsTheInvariant :=
  ⟨fun _ a0 a1 a2 a3 => State.construct_inv a0 a1 a2 a3, fun _ _ _ _ _ _ => State.construct_launch,
    State.construct_inv 0 1 2 3 (by decide) (by decide), State.construct_launch (by decide) (by decide)⟩

/-! ### The configuration (R373) -/

theorem OperandWrite.cfgAddr {f : Port → Port} (hf : OperandWrite f) (q : Port) : (f q).cfgAddr = q.cfgAddr := by
  cases hf <;> rfl

/-- Whatever a step does to a port, the port keeps its driver address (R31). -/
theorem PortMove.cfgAddr {s t : State} {p : PortId} (h : PortMove s t p) :
    (t.port p).cfgAddr = (s.port p).cfgAddr := by
  cases h with
  | stays h _ => rw [h]
  | operandWrite f _ hf _ h => rw [h, hf.cfgAddr]
  | command w c s' _ _ _ hc hp hs h =>
    subst hp
    obtain ⟨-, -, hleaves⟩ := exec_command_next c s' t (frameBytes_of_decodeCommand w c hc) h
    rw [hleaves.operands.cfgAddr, hs, Port.putCmd_cfgAddr]
  | granted ph _ _ _ _ h => rw [h]
  | answered a ph _ _ _ _ _ h _ => exact (continueCommand_ok ph a _ _ h).1

/-- Settles O56, port by port, by what a step can be for the port. -/
theorem configurationNeverChanges : Obligations.ConfigurationNeverChanges := by
  intro s t h
  exact ⟨(step_portMove s t 0 h).1, fun p => (step_portMove s t p h).2.cfgAddr⟩

end Sys2Proof.Machine
end
